-- ==== Sys2Proof/Word.lean ====
section
/-! DEFINITION. The widths of the WTC801 unit's registers (spec/10_state.md R21). -/

namespace Sys2Proof

/-- A command word, or the data of one host transaction: 32 bits (R21, R90). -/
abbrev Word := BitVec 32

/-- A 16-bit register value or a register index `0x0000 .. 0xFFFF` (R21). -/
abbrev Half := BitVec 16

/-- One byte of `STATE`, or `RES_PROTO`: 8 bits (R29, R33). -/
abbrev Byte := BitVec 8

end Sys2Proof
end

