-- ==== Sys2Proof/Syntax.lean ====
section
/-! DEFINITION. The eight commands of the unit, one constructor per row of spec/opcode_table.json
(spec/30_encoding.md R95). -/

namespace Sys2Proof

/-- `SEL`: which profile constant a MATCH command compares with (R93). The values 6 and 7 are reserved and
have no constructor. -/
inductive Sel where
  | hdrMark
  | hdrSpace
  | bitMark
  | oneSpace
  | zeroSpace
  | gap
  deriving DecidableEq, Repr

/-- A command. `strict` is the flag `S`, `n` is `NBITS` used as the natural number it encodes (R92). -/
inductive Instr where
  /-- `nop` (R185) -/
  | nop
  /-- `decode n`, `decode.s n` (R130) -/
  | decode (strict : Bool) (n : Nat)
  /-- `encode n` (R170) -/
  | encode (n : Nat)
  /-- `chksum` (R163) -/
  | chksum
  /-- `xtract` (R165) -/
  | xtract
  /-- `matchm sel` (R117) -/
  | matchm (sel : Sel)
  /-- `matchs sel` (R118) -/
  | matchs (sel : Sel)
  /-- `matchg sel` (R119) -/
  | matchg (sel : Sel)
  deriving DecidableEq, Repr

end Sys2Proof
end

