-- ==== Sys2Proof/WellFormed.lean ====
section
/-! DEFINITION. Which commands a command word can hold (spec/30_encoding.md R91, R92). -/

namespace Sys2Proof

/-- `NBITS` is a 16-bit field (R91): `0 .. 65535`. -/
def nbitsFits (n : Nat) : Bool := decide (n < 2 ^ 16)

/-- A command is well formed when its bit count fits `NBITS`. A flag and a selector always fit, by their
types. -/
def Instr.wf : Instr → Bool
  | .nop => true
  | .decode _ n => nbitsFits n
  | .encode n => nbitsFits n
  | .chksum => true
  | .xtract => true
  | .matchm _ => true
  | .matchs _ => true
  | .matchg _ => true

end Sys2Proof
end

