-- ==== Sys2Proof/Decode.lean ====
section
/-! DEFINITION. The decoder of command words, total on 32-bit words (spec/30_encoding.md R97), then the
encoder (R95, R99), then the mask and match words of the opcode map (R95). A word that is no command is
illegal (R96): the decoder answers `none`. -/

namespace Sys2Proof

/-- The six fields of format `C` (R91). -/
structure Fields where
  /-- bits 31:28 -/
  op : BitVec 4
  /-- bit 27 -/
  s : BitVec 1
  /-- bits 26:25 -/
  kind : BitVec 2
  /-- bits 24:22 -/
  sel : BitVec 3
  /-- bits 21:16, reserved -/
  rsv : BitVec 6
  /-- bits 15:0 -/
  nbits : BitVec 16
  deriving DecidableEq, Repr

/-- The fields of a word (R91, R97). -/
def fieldsOf (w : Word) : Fields where
  op := w.extractLsb' 28 4
  s := w.extractLsb' 27 1
  kind := w.extractLsb' 25 2
  sel := w.extractLsb' 22 3
  rsv := w.extractLsb' 16 6
  nbits := w.extractLsb' 0 16

/-- The word with the given fields (R91). -/
def wordOf (f : Fields) : Word :=
  f.op ++ f.s ++ f.kind ++ f.sel ++ f.rsv ++ f.nbits

/-- The selector a value of `SEL` names; 6 and 7 are reserved (R93). -/
def selOf (v : BitVec 3) : Option Sel :=
  match v.toNat with
  | 0 => some .hdrMark
  | 1 => some .hdrSpace
  | 2 => some .bitMark
  | 3 => some .oneSpace
  | 4 => some .zeroSpace
  | 5 => some .gap
  | _ => none

/-- The value of `SEL` for a selector (R93). -/
def selCode : Sel → BitVec 3
  | .hdrMark => 0
  | .hdrSpace => 1
  | .bitMark => 2
  | .oneSpace => 3
  | .zeroSpace => 4
  | .gap => 5

/-- The MATCH command a value of `KIND` names; 3 is reserved (R94). -/
def matchOf (kind : BitVec 2) (sel : Sel) : Option Instr :=
  match kind.toNat with
  | 0 => some (.matchm sel)
  | 1 => some (.matchs sel)
  | 2 => some (.matchg sel)
  | _ => none

/-- `i` when the fields it does not use are zero, else illegal (R96). -/
def onlyIf (unusedZero : Bool) (i : Instr) : Option Instr := if unusedZero then some i else none

/-- The decoder on the fields, case by case as R97 writes it. -/
def decodeFields (f : Fields) : Option Instr :=
  if f.rsv ≠ 0 then none
  else match f.op.toNat with
  | 0 => onlyIf (f.s == 0 && f.kind == 0 && f.sel == 0 && f.nbits == 0) .nop
  | 1 => onlyIf (f.kind == 0 && f.sel == 0) (.decode (f.s == 1) f.nbits.toNat)
  | 2 => onlyIf (f.s == 0 && f.kind == 0 && f.sel == 0) (.encode f.nbits.toNat)
  | 3 => onlyIf (f.s == 0 && f.kind == 0 && f.sel == 0 && f.nbits == 0) .chksum
  | 4 => onlyIf (f.s == 0 && f.kind == 0 && f.sel == 0 && f.nbits == 0) .xtract
  | 5 =>
    if f.s == 0 && f.nbits == 0 then
      match selOf f.sel with
      | some sel => matchOf f.kind sel
      | none => none
    else none
  | _ => none

/-- The decoder: the command a word holds, or `none` where the word is illegal (R96, R97). It reads nothing
but the word (R98). -/
def decode (w : Word) : Option Instr := decodeFields (fieldsOf w)

/-- The fields of a command's word (R95): those the command does not use are zero. -/
def encodeFields : Instr → Fields
  | .nop => { op := 0, s := 0, kind := 0, sel := 0, rsv := 0, nbits := 0 }
  | .decode strict n =>
    { op := 1, s := BitVec.ofBool strict, kind := 0, sel := 0, rsv := 0, nbits := BitVec.ofNat 16 n }
  | .encode n => { op := 2, s := 0, kind := 0, sel := 0, rsv := 0, nbits := BitVec.ofNat 16 n }
  | .chksum => { op := 3, s := 0, kind := 0, sel := 0, rsv := 0, nbits := 0 }
  | .xtract => { op := 4, s := 0, kind := 0, sel := 0, rsv := 0, nbits := 0 }
  | .matchm sel => { op := 5, s := 0, kind := 0, sel := selCode sel, rsv := 0, nbits := 0 }
  | .matchs sel => { op := 5, s := 0, kind := 1, sel := selCode sel, rsv := 0, nbits := 0 }
  | .matchg sel => { op := 5, s := 0, kind := 2, sel := selCode sel, rsv := 0, nbits := 0 }

/-- The encoder: the word of a well-formed command (R95, R99). -/
def encode (i : Instr) : Word := wordOf (encodeFields i)

/-- `mask` of a command's row of the opcode map (R95). -/
def rowMask : Instr → Word
  | .nop => 0xFFFFFFFF
  | .decode _ _ => 0xF7FF0000
  | .encode _ => 0xFFFF0000
  | .chksum => 0xFFFFFFFF
  | .xtract => 0xFFFFFFFF
  | .matchm _ => 0xFE3FFFFF
  | .matchs _ => 0xFE3FFFFF
  | .matchg _ => 0xFE3FFFFF

/-- `match` of a command's row of the opcode map (R95). -/
def rowMatch : Instr → Word
  | .nop => 0x00000000
  | .decode _ _ => 0x10000000
  | .encode _ => 0x20000000
  | .chksum => 0x30000000
  | .xtract => 0x40000000
  | .matchm _ => 0x50000000
  | .matchs _ => 0x52000000
  | .matchg _ => 0x54000000

/-- The host's view of the decoder: the command whose bits are `w`, `nbits` of them. Every command is one
32-bit word (R90), so the bits above `nbits` are 0. -/
def decodeTableWord (nbits w : Nat) : Option Instr := decode (BitVec.ofNat 32 (w % 2 ^ nbits))

end Sys2Proof
end

