-- ==== Sys2Proof/Machine/Compare.lean ====
section
/-! DEFINITION. The tolerance comparison of one measured duration with one expected duration
(spec/40_match.md section 1, R110 to R115). The functions read the two knobs and their two arguments and
no state (R116 (e)); durations are natural numbers and nothing wraps (spec/00_scope.md R15, R17). -/

namespace Sys2Proof.Machine

/-- The two knobs: `TOL_PCT` and `MARK_EXCESS` (spec/00_scope.md R9). -/
structure Tolerance where
  /-- `TOL_PCT`, per cent. -/
  pct : Nat
  /-- `MARK_EXCESS`, time units. -/
  excess : Nat
  deriving DecidableEq, Repr

/-- `Lo(d)`, the least measurement accepted for `d` (R110). -/
def lo (t : Tolerance) (d : Nat) : Nat := d * (100 - t.pct) / 100

/-- `Hi(d)`, the greatest measurement accepted for `d` (R111). -/
def hi (t : Tolerance) (d : Nat) : Nat := d * (100 + t.pct) / 100 + 1

/-- `Match(m, d)`: both edges are inclusive (R112). -/
def inWindow (t : Tolerance) (m d : Nat) : Bool := decide (lo t d ≤ m) && decide (m ≤ hi t d)

/-- The expected length of a measured mark: longer by the excess margin (R113). -/
def stretched (t : Tolerance) (d : Nat) : Nat := d + t.excess

/-- The expected length of a measured space: shorter by the excess margin, and 0 where the margin is
larger (R114; the subtraction of natural numbers saturates). -/
def shrunk (t : Tolerance) (d : Nat) : Nat := d - t.excess

/-- `MatchMark(m, d)` (R113). -/
def matchMark (t : Tolerance) (m d : Nat) : Bool := inWindow t m (stretched t d)

/-- `MatchSpace(m, d)` (R114). -/
def matchSpace (t : Tolerance) (m d : Nat) : Bool := inWindow t m (shrunk t d)

/-- `MatchAtLeast(m, d)`: only the lower edge of the space window (R115). -/
def matchAtLeast (t : Tolerance) (m d : Nat) : Bool := decide (lo t (shrunk t d) ≤ m)

end Sys2Proof.Machine
end

