-- ==== Sys2Proof/Config.lean ====
section
/-! DEFINITION. What one implementation fixes: the parameters of spec/00_scope.md R8 and R9, which
assignments of them are a valid configuration (R10), the reference configuration of the test vectors (R11),
this unit's own configuration, which the spec leaves open, and the free values. -/

namespace Sys2Proof

open Sys2Proof.Machine

/-- One assignment of the parameters (spec/00_scope.md R8, R9). -/
structure Params where
  /-- `K_HDR_MARK` -/
  hdrMark : Nat
  /-- `K_HDR_SPACE` -/
  hdrSpace : Nat
  /-- `K_BIT_MARK` -/
  bitMark : Nat
  /-- `K_ONE_SPACE` -/
  oneSpace : Nat
  /-- `K_ZERO_SPACE` -/
  zeroSpace : Nat
  /-- `K_GAP` -/
  gap : Nat
  /-- `K_BITS` -/
  bits : Nat
  /-- `K_STATE_LEN` -/
  stateLen : Nat
  /-- `TOL_PCT` and `MARK_EXCESS` -/
  tol : Tolerance
  /-- `LSB_FIRST` -/
  lsbFirst : Bool
  /-- `DUR_W` -/
  durW : Nat
  /-- `RAW_CAP` -/
  rawCap : Nat
  /-- `STATE_CAP` -/
  stateCap : Nat
  /-- `K_PROTO_TAG` -/
  protoTag : Nat
  /-- `K_FREQ` (open) -/
  freq : Nat
  /-- `K_DUTY` (open) -/
  duty : Nat
  /-- `BASE` (open, the platform's) -/
  base : Nat
  /-- `STRIDE` (open, the platform's) -/
  stride : Nat
  deriving DecidableEq, Repr

/-- The constraint of a duration in the table of R8: `1 <= v < 2^DUR_W`. -/
def Params.durationOk (p : Params) (v : Nat) : Bool := decide (1 ≤ v) && decide (v < 2 ^ p.durW)

/-- Every constraint of the tables of R8 and R9. -/
def Params.tablesHold (p : Params) : Bool :=
  p.durationOk p.hdrMark && p.durationOk p.hdrSpace && p.durationOk p.bitMark &&
  p.durationOk p.oneSpace && p.durationOk p.zeroSpace && p.durationOk p.gap &&
  decide (p.zeroSpace ≠ p.oneSpace) &&
  decide (p.bits % 8 = 0) && decide (24 ≤ p.bits) && decide (p.bits ≤ 64) &&
  decide (p.stateLen = p.bits / 8) &&
  decide (p.tol.pct ≤ 100) && decide (p.tol.excess < 2 ^ p.durW) &&
  decide (8 ≤ p.durW) && decide (p.durW ≤ 16) &&
  decide (2 * p.bits + 4 ≤ p.rawCap) && decide (p.rawCap ≤ 61440) &&
  decide (p.stateLen ≤ p.stateCap) && decide (p.stateCap ≤ 64) &&
  decide (1 ≤ p.protoTag) && decide (p.protoTag ≤ 255) &&
  decide (1 ≤ p.duty) && decide (p.duty ≤ 100)

/-- The self-match condition of R10: every constant is accepted for itself. -/
def Params.selfMatch (p : Params) : Bool :=
  matchMark p.tol p.hdrMark p.hdrMark && matchSpace p.tol p.hdrSpace p.hdrSpace &&
  matchMark p.tol p.bitMark p.bitMark && matchSpace p.tol p.oneSpace p.oneSpace &&
  matchSpace p.tol p.zeroSpace p.zeroSpace && matchAtLeast p.tol p.gap p.gap

/-- The separation condition of R10, on the edges of the two windows: no duration satisfies both
`MatchSpace(., K_ONE_SPACE)` and `MatchSpace(., K_ZERO_SPACE)` exactly when one window ends below the other
(`Params.separated_iff` in Laws/Config.lean says so; log 12, DEDUCED). -/
def Params.separated (p : Params) : Bool :=
  decide (hi p.tol (shrunk p.tol p.oneSpace) < lo p.tol (shrunk p.tol p.zeroSpace)) ||
  decide (hi p.tol (shrunk p.tol p.zeroSpace) < lo p.tol (shrunk p.tol p.oneSpace))

/-- `ValidConfig` (R10). -/
def Params.valid (p : Params) : Bool := p.tablesHold && p.selfMatch && p.separated

/-- A valid configuration: the only ones the model gives a meaning to (R10; 93_implementation_defined.md
U10: a model is not instantiated at any other). The default field values are those of `REF` (R11); they only
show that the type has a value, and `Config.unit` below does not reduce to them. -/
structure Config extends Params where
  hdrMark := 8000
  hdrSpace := 4000
  bitMark := 600
  oneSpace := 1600
  zeroSpace := 600
  gap := 20000
  bits := 32
  stateLen := 4
  tol := { pct := 25, excess := 50 }
  lsbFirst := false
  durW := 16
  rawCap := 256
  stateCap := 8
  protoTag := 1
  freq := 38000
  duty := 50
  base := 0
  stride := 4
  /-- The assignment is a `ValidConfig`. -/
  valid : toParams.valid = true := by decide
  deriving DecidableEq, Repr, Inhabited

/-- The reference configuration `REF` of R11, used by the spec's numeric vectors only. Nothing about the real
protocol may be inferred from it. `BASE` and `STRIDE` are no part of `REF` and are read by nothing. -/
def Config.ref : Config := {}

/-- This unit's configuration. The spec gives no value for any parameter (R8; 91_not_in_source.md N1), so
the constant has no body: it may be any valid configuration (log 1). -/
opaque Config.unit : Config

/-- The free values: the `k`-th word drawn where the spec leaves a value unspecified (R72, R78; logs 3, 4).
No body: nothing is known of any of them. -/
opaque Config.freeValue : Nat → Word

end Sys2Proof
end

