-- ==== Sys2Proof/Machine/State.lean ====
section
/-! DEFINITION. The state of the unit (spec/10_state.md R20 to R36), what the agents around it can do to it,
and its state after reset (R40). -/

namespace Sys2Proof.Machine

/-- The unit stops with no fault: every failure is local, ends one command and leaves the unit ready for the
next (spec/60_exceptions.md R204, R205), and no access raises an error (spec/10_state.md R41). So the type
has no constructor. -/
inductive Fault where
  deriving DecidableEq, Repr

/-- Why the model gives no meaning. -/
inductive Refusal where
  /-- An instruction that has no meaning yet. Raised by no arm of `exec`: safe. -/
  | notModelled (mnemonic : String)
  deriving DecidableEq, Repr

/-- The failure classes (spec/60_exceptions.md R200). `STATUS.DIAG` holds one of them or none; the codes 8
to 15 are never produced and have no constructor. -/
inductive FailClass where
  /-- fewer cells than the command needs -/
  | tooShort
  /-- strict mode, and `n` is not `K_BITS` -/
  | strictBits
  /-- a comparison was false -/
  | pulseMismatch
  /-- the checksum does not hold -/
  | checksum
  /-- an ENCODE of fewer than `K_BITS` bits -/
  | badEncode
  /-- a bit count the data stage cannot pack -/
  | badNbits
  /-- an illegal command word -/
  | illegalCmd
  deriving DecidableEq, Repr

/-- The fields of `STATUS` (spec/10_state.md R23). Its reserved bits hold nothing. -/
structure Status where
  /-- a command has been accepted and has not completed -/
  busy : Bool
  /-- a command has completed since the last acceptance -/
  done : Bool
  /-- the last completed command succeeded -/
  ok : Bool
  /-- a host write was dropped because `BUSY = 1` -/
  lockerr : Bool
  /-- the failure class of the last completed command, `none` (code 0) when it succeeded -/
  diag : Option FailClass
  deriving DecidableEq, Repr

/-- What an emitted interval is (spec/10_state.md R35). -/
inductive TxKind where
  | mark
  | space
  deriving DecidableEq, Repr

/-- One emitted interval: its kind and its duration in time units (R35, R17). -/
structure TxEvent where
  kind : TxKind
  dur : Nat
  deriving DecidableEq, Repr

/-- The two buffers of the unit, each a list of (index, value) with strictly rising indices.
`stateBuf` lists the bytes of `STATE` that are not 0: an unlisted byte reads as its reset value 0 (R33, R40).
`raw` lists the written cells of `RAW`: a cell's written mark is that it is listed, and an unlisted cell
reads as a free value (R34; logs 3, 9). -/
structure Memory where
  stateBuf : List Host.Cell
  raw : List (Nat × Half)
  deriving DecidableEq, Repr

/-- The read-only profile and parameter registers (spec/10_state.md R32). -/
inductive ParamReg where
  | hdrMark
  | hdrSpace
  | bitMark
  | oneSpace
  | zeroSpace
  | gap
  | bits
  | stateLen
  | tolPct
  | markExcess
  | freq
  | duty
  | caps
  | protoTag
  deriving DecidableEq, Repr

/-- What a register index names (spec/10_state.md R21). -/
inductive Reg where
  | cmd
  | status
  | offset
  | repeatCount
  | dataLo
  | dataHi
  | rawlen
  | resBits
  | resProto
  | resCmd
  | failidx
  | param (p : ParamReg)
  | stateCell (j : Nat)
  | rawCell (i : Nat)
  | unmapped
  deriving DecidableEq, Repr

/-- One turn of an agent: a transaction of the host (spec/20_memory.md R66), the engine's turn
(spec/10_state.md R36), or the platform's reset (spec/70_reset_and_hazards.md R230). -/
inductive Event where
  | hostRead (index : Half)
  | hostWrite (index : Half) (value : Word)
  | engine
  | reset
  deriving DecidableEq, Repr

/-- What the interface returned to one host read. -/
structure ReadRecord where
  index : Half
  value : Word
  deriving DecidableEq, Repr

/-- The state. Every field but the first and the last three is state of spec/10_state.md R20. -/
structure State where
  /-- The hard-wired parameters (R32). No step and no reset changes them (log 1). -/
  cfg : Config
  /-- `CMDR` (R22) -/
  cmdr : Word
  /-- `STATUS` (R23) -/
  status : Status
  /-- `OFFSET` (R24) -/
  offset : Half
  /-- `REPEAT` (R25) -/
  repeatCount : Half
  /-- `DATA_LO` (R26) -/
  dataLo : Word
  /-- `DATA_HI` (R26) -/
  dataHi : Word
  /-- `RAWLEN` (R27) -/
  rawlen : Half
  /-- `RES_BITS` (R28) -/
  resBits : Half
  /-- `RES_PROTO` (R29) -/
  resProto : Byte
  /-- `RES_CMD` (R30) -/
  resCmd : BitVec 1
  /-- `FAILIDX` (R31) -/
  failidx : Half
  /-- `STATE` (R33) and `RAW` with its written marks (R34) -/
  mem : Memory
  /-- `TXLOG`, oldest first (R35) -/
  txlog : List TxEvent
  /-- The MODEL's own: the agents' turns still to come, next first (log 2). -/
  pending : List Event
  /-- The MODEL's own: what the host's reads returned, oldest first (log 5). -/
  readLog : List ReadRecord
  /-- The MODEL's own: how many free values have been drawn (log 3). -/
  fresh : Nat
  deriving DecidableEq, Repr

/-- What `FAILIDX` holds when no cell failed (R31). -/
def noIndex : Half := 0xFFFF

/-- The state after reset (R40; spec/70_reset_and_hazards.md R231). The last three fields are the model's
own (log 14); the parameters are this unit's and are not affected by reset (R32). -/
def State.reset : State where
  cfg := Config.unit
  cmdr := 0
  status := { busy := false, done := false, ok := false, lockerr := false, diag := none }
  offset := 0
  repeatCount := 0
  dataLo := 0
  dataHi := 0
  rawlen := 0
  resBits := 0
  resProto := 0
  resCmd := 0
  failidx := noIndex
  mem := { stateBuf := [], raw := [] }
  txlog := []
  pending := []
  readLog := []
  fresh := 0

end Sys2Proof.Machine
end

