-- ==== Sys2Proof/Machine/Flags.lean ====
section
/-! DEFINITION. The flags of `STATUS`: the word a host reads (spec/10_state.md R23) and the one way each
event changes them (R22, R23, R36, R38; spec/60_exceptions.md R200, R204). -/

namespace Sys2Proof.Machine

/-- The code of a failure class (spec/60_exceptions.md R200). -/
def FailClass.code : FailClass → BitVec 4
  | .tooShort => 1
  | .strictBits => 2
  | .pulseMismatch => 3
  | .checksum => 4
  | .badEncode => 5
  | .badNbits => 6
  | .illegalCmd => 7

/-- The value of `DIAG`: 0 when the last completed command succeeded (R23, R200). -/
def diagCode (d : Option FailClass) : BitVec 4 :=
  match d with
  | none => 0
  | some c => c.code

/-- The word a read of `STATUS` returns (R23): bit 0 `BUSY`, bit 1 `DONE`, bit 2 `OK`, bit 3 `LOCKERR`,
bits 11:8 `DIAG`, every other bit 0. -/
def Status.word (t : Status) : Word :=
  (0 : BitVec 20) ++ diagCode t.diag ++ (0 : BitVec 4) ++
    BitVec.ofBool t.lockerr ++ BitVec.ofBool t.ok ++ BitVec.ofBool t.done ++ BitVec.ofBool t.busy

/-- Acceptance: `BUSY <- 1; DONE <- 0; OK <- 0; DIAG <- 0` (R22). -/
def Status.onAccept (t : Status) : Status :=
  { t with busy := true, done := false, ok := false, diag := none }

/-- Completion of a command that succeeded: `BUSY <- 0; DONE <- 1; OK <- 1; DIAG <- 0` (R36). -/
def Status.onSuccess (t : Status) : Status :=
  { t with busy := false, done := true, ok := true, diag := none }

/-- Completion of a command that failed: `BUSY <- 0; DONE <- 1; OK <- 0; DIAG <- class` (R36, R204). -/
def Status.onFailure (c : FailClass) (t : Status) : Status :=
  { t with busy := false, done := true, ok := false, diag := some c }

/-- A host write dropped because `BUSY = 1` (R23; spec/20_memory.md R71). -/
def Status.onDrop (t : Status) : Status := { t with lockerr := true }

/-- A host write to `STATUS`: bit 3 set clears `LOCKERR`; every other bit of the word is ignored (R23). -/
def Status.onWrite (v : Word) (t : Status) : Status :=
  { t with lockerr := t.lockerr && !v.getLsbD 3 }

end Sys2Proof.Machine
end

