-- ==== Sys2Proof/Machine/Ops.lean ====
section
/-! DEFINITION. The named operations over memory and registers: sparse lists and the two buffers
(spec/20_memory.md R60, R61), free values, acceptance, success, failure (the unit's exception entry,
spec/60_exceptions.md R204) and the short-circuit sequencing of a command's tests (spec/44_control.md
R187). -/

namespace Sys2Proof.Machine

/-! ### Sparse lists -/

/-- The value listed at index `a`. -/
def lookup {α : Type} (a : Nat) : List (Nat × α) → Option α
  | [] => none
  | c :: rest => if c.1 = a then some c.2 else lookup a rest

/-- A value put in front of a list, or nothing. -/
def consSome {α : Type} (a : Nat) (v : Option α) (rest : List (Nat × α)) : List (Nat × α) :=
  match v with
  | none => rest
  | some x => (a, x) :: rest

/-- The list with `v` at index `a` (`none`: with nothing there), its indices still rising. -/
def update {α : Type} (a : Nat) (v : Option α) : List (Nat × α) → List (Nat × α)
  | [] => consSome a v []
  | c :: rest =>
    if a < c.1 then consSome a v (c :: rest)
    else if c.1 = a then consSome a v rest
    else c :: update a v rest

/-- Every index of the list is above `a`. -/
def allAbove {α : Type} (a : Nat) (l : List (Nat × α)) : Bool := l.all fun c => decide (a < c.1)

/-- The indices rise strictly. -/
def rising {α : Type} : List (Nat × α) → Bool
  | [] => true
  | c :: rest => allAbove c.1 rest && rising rest

/-! ### The two buffers -/

/-- The canonical form: both lists rise strictly, and `STATE` lists no byte equal to what an unlisted byte
reads as. -/
def Memory.wf (m : Memory) : Bool :=
  rising m.stateBuf && rising m.raw && m.stateBuf.all fun c => decide (c.2 ≠ 0)

/-- `STATE[j]`: an unlisted byte reads as its reset value 0 (spec/10_state.md R33, R40). -/
def Memory.stateByte (m : Memory) (j : Nat) : Byte := (lookup j m.stateBuf).getD 0

/-- `STATE[j] <- b` (spec/00_scope.md R16). -/
def Memory.setStateByte (j : Nat) (b : Byte) (m : Memory) : Memory :=
  { m with stateBuf := update j (if b = 0 then none else some b) m.stateBuf }

/-- `RAW[i]` where the cell has been written, `none` where its written mark is false (spec/10_state.md
R34). -/
def Memory.rawCell (m : Memory) (i : Nat) : Option Half := lookup i m.raw

/-- `RAW[i] <- v`, with the written mark set (R34). -/
def Memory.setRawCell (i : Nat) (v : Half) (m : Memory) : Memory :=
  { m with raw := update i (some v) m.raw }

/-! ### Updates of the state -/

/-- The next free value is taken (log 3). -/
def State.drawn (s : State) : State := { s with fresh := s.fresh + 1 }

/-- The free value that is drawn next, `w` bits of it (R72, R78). -/
def State.freeBits (w : Nat) (s : State) : Nat := (Config.freeValue s.fresh).toNat % 2 ^ w

/-- One read of `RAW[i]` by the engine, and the state after it: the duration the cell encodes, or a free
`DUR_W`-bit value where the cell was never written, a new one at each read (spec/20_memory.md R78). -/
def State.loadRaw (i : Nat) (s : State) : Nat × State :=
  match s.mem.rawCell i with
  | some v => (v.toNat, s)
  | none => (s.freeBits s.cfg.durW, s.drawn)

/-- `STATE[j] <- b`. -/
def State.storeByte (j : Nat) (b : Byte) (s : State) : State :=
  { s with mem := s.mem.setStateByte j b }

/-- The three result registers of DECODE (spec/41_decode.md R131, R143). -/
def State.setResult (bits : Half) (proto : Byte) (cmd : BitVec 1) (s : State) : State :=
  { s with resBits := bits, resProto := proto, resCmd := cmd }

/-- `RES_CMD <- b` (spec/42_verify_extract.md R165). -/
def State.setResCmd (b : BitVec 1) (s : State) : State := { s with resCmd := b }

/-- The events appended to `TXLOG`, in order (spec/00_scope.md R16, `Tx`). -/
def State.emit (evs : List TxEvent) (s : State) : State := { s with txlog := s.txlog ++ evs }

/-- The turns still to come. -/
def State.withPending (p : List Event) (s : State) : State := { s with pending := p }

/-! ### Acceptance and completion -/

/-- Acceptance of a command word: `CMDR <- v; BUSY <- 1; DONE <- 0; OK <- 0; DIAG <- 0; FAILIDX <- 0xFFFF`
(spec/10_state.md R22). It is also the return from a failure: the next acceptance is all that the host does
to acknowledge one (spec/60_exceptions.md R206). -/
def State.accept (v : Word) (s : State) : State :=
  { s with cmdr := v, status := s.status.onAccept, failidx := noIndex }

/-- `succeed`: the command ends as a success (spec/00_scope.md R16; spec/10_state.md R36). `FAILIDX` is
`0xFFFF` after it (spec/60_exceptions.md R200; log 7). -/
def State.succeed (s : State) : State :=
  { s with status := s.status.onSuccess, failidx := noIndex }

/-- `raise Fail(class, idx)`: the one way a command fails, and exactly what changes then
(spec/60_exceptions.md R204). Without an index, `idx` is `noIndex`. -/
def State.raiseFail (c : FailClass) (idx : Half) (s : State) : State :=
  { s with status := s.status.onFailure c, failidx := idx }

/-! ### The short-circuit sequence of a command's lines -/

/-- How a line of a command's pseudocode ends: the next line runs with a value and a state, or the command
has failed and no later line runs (spec/44_control.md R187; spec/60_exceptions.md R203). -/
inductive Flow (α : Type) where
  | go (a : α) (s : State)
  | stop (c : FailClass) (idx : Half) (s : State)
  deriving DecidableEq, Repr

/-- One line after another. -/
def Flow.andThen {α β : Type} (f : Flow α) (k : α → State → Flow β) : Flow β :=
  match f with
  | .go a s => k a s
  | .stop c idx s => .stop c idx s

/-- The end of the command: `succeed` after its last line, or the failure it met. -/
def Flow.close {α : Type} (f : Flow α) : State :=
  match f with
  | .go _ s => s.succeed
  | .stop c idx s => s.raiseFail c idx

/-- `if not b then raise Fail(class)`. -/
def require (b : Bool) (c : FailClass) (s : State) : Flow Unit :=
  if b then .go () s else .stop c noIndex s

/-- A cell index as `FAILIDX` holds it (spec/10_state.md R31; log 15). -/
def cellIndex (i : Nat) : Half := BitVec.ofNat 16 i

/-- `if not test(RAW[i]) then raise Fail(PULSE_MISMATCH, i)`. -/
def matchCell (test : Nat → Bool) (i : Nat) (s : State) : Flow Unit :=
  if test (s.loadRaw i).1 then .go () (s.loadRaw i).2
  else .stop .pulseMismatch (cellIndex i) (s.loadRaw i).2

end Sys2Proof.Machine
end

