-- ==== Sys2Proof/Machine/Operands.lean ====
section
/-! DEFINITION. The operands of the commands that are not in the command word as plain numbers: the expected
duration a selector names (spec/30_encoding.md R93), the cells from `OFFSET` on (spec/41_decode.md R132), the
payload and its bits (spec/10_state.md R26; spec/20_memory.md R64), and the bytes of `STATE` that are summed
(spec/42_verify_extract.md R160). -/

namespace Sys2Proof.Machine

/-- `K[SEL]` (R93). -/
def expected (c : Config) : Sel → Nat
  | .hdrMark => c.hdrMark
  | .hdrSpace => c.hdrSpace
  | .bitMark => c.bitMark
  | .oneSpace => c.oneSpace
  | .zeroSpace => c.zeroSpace
  | .gap => c.gap

/-- `avail = RAWLEN - OFFSET`, an integer that is negative when the offset is beyond the length (R132). -/
def State.avail (s : State) : Int := (s.rawlen.toNat : Int) - (s.offset.toNat : Int)

/-- `DATA = {DATA_HI, DATA_LO}` (R26). -/
def State.data (s : State) : BitVec 64 := s.dataHi ++ s.dataLo

/-- The `t`-th data bit of `n` that ENCODE sends: `D[n-1-t]`, or `D[t]` with `LSB_FIRST`; `D` is `DATA`
extended with zeros (spec/20_memory.md R64). -/
def sentBit (lsbFirst : Bool) (d : BitVec 64) (n t : Nat) : Bool :=
  if lsbFirst then d.getLsbD t else d.getLsbD (n - 1 - t)

/-- The byte after its `k`-th bit has arrived: `(acc << 1) OR bit`, or `acc OR (bit << k)` with `LSB_FIRST`
(spec/41_decode.md R138). -/
def packBit (lsbFirst : Bool) (k : Nat) (acc : Byte) (b : Bool) : Byte :=
  let bit : Byte := (BitVec.ofBool b).setWidth 8
  if lsbFirst then acc ||| (bit <<< k) else (acc <<< 1) ||| bit

/-- `STATE[0 .. len-1]`. -/
def State.bytes (len : Nat) (s : State) : List Byte := (List.range len).map s.mem.stateByte

/-- `Sum(B)`, with no reduction (spec/42_verify_extract.md R160). -/
def byteSum (bs : List Byte) : Nat := (bs.map BitVec.toNat).sum

/-- `ChecksumOK(B)`: `((Sum(B) XOR 0x1FE) mod 256) = 0`, the literal kept as written (R161, R166). -/
def checksumOk (bs : List Byte) : Bool := (byteSum bs ^^^ 0x1FE) % 256 == 0

/-- `ChecksumOK(STATE[0 .. K_STATE_LEN-1])` (R142, R163). -/
def State.checksumHolds (s : State) : Bool := checksumOk (s.bytes s.cfg.stateLen)

/-- `ExtractCmd(STATE) = STATE[2][7]` (R164). -/
def State.commandBit (s : State) : BitVec 1 := (s.mem.stateByte 2).extractLsb' 7 1

end Sys2Proof.Machine
end

