-- ==== Sys2Proof/Machine/Control.lean ====
section
/-! DEFINITION. NOP and the completion of an illegal word (spec/44_control.md R185, R186). -/

namespace Sys2Proof.Machine

/-- `NOP`: `succeed` (R185). -/
def execNop (s : State) : Host.Outcome State Fault Refusal := .next s.succeed

/-- The completion of an illegal word: `raise Fail(ILLEGAL_CMD)` (R186; spec/30_encoding.md R96). -/
def State.completeIllegal (s : State) : State := s.raiseFail .illegalCmd noIndex

end Sys2Proof.Machine
end

