-- ==== Sys2Proof/Machine/DecodeCmd.lean ====
section
/-! DEFINITION. The command DECODE (spec/41_decode.md): its six steps, in the order and with the short
circuits of R146. `i` is the raw cursor (spec/10_state.md R37). -/

namespace Sys2Proof.Machine

/-- Step 3: header mark, then header space (R134). -/
def preHeader (i : Nat) (s : State) : Flow Unit :=
  (matchCell (fun m => matchMark s.cfg.tol m s.cfg.hdrMark) i s).andThen fun _ s =>
    matchCell (fun m => matchSpace s.cfg.tol m s.cfg.hdrSpace) (i + 1) s

/-- The space cell of a data bit: the one-space is tried first, then the zero-space; each try is a read of
the cell (R137; spec/20_memory.md R78; log 3). -/
def bitSpace (i : Nat) (s : State) : Flow Bool :=
  let one := s.loadRaw i
  if matchSpace s.cfg.tol one.1 s.cfg.oneSpace then .go true one.2
  else
    let zero := one.2.loadRaw i
    if matchSpace s.cfg.tol zero.1 s.cfg.zeroSpace then .go false zero.2
    else .stop .pulseMismatch (cellIndex i) zero.2

/-- Step 4c: one data bit, its mark cell at `i` (R137). -/
def dataBit (i : Nat) (s : State) : Flow Bool :=
  (matchCell (fun m => matchMark s.cfg.tol m s.cfg.bitMark) i s).andThen fun _ s =>
    bitSpace (i + 1) s

/-- Step 4d: the last `rem` bits of one byte, from its `k`-th bit on (R138). -/
def dataByte : (rem k : Nat) → (acc : Byte) → (i : Nat) → State → Flow Byte
  | 0, _, acc, _, s => .go acc s
  | rem + 1, k, acc, i, s =>
    (dataBit i s).andThen fun b s => dataByte rem (k + 1) (packBit s.cfg.lsbFirst k acc b) (i + 2) s

/-- Steps 4c to 4e: the last `rem` bytes, from byte `j` on; a byte is written after its eighth bit has
matched, and only then (R138, R139). -/
def dataBytes : (rem j i : Nat) → State → Flow Unit
  | 0, _, _, s => .go () s
  | rem + 1, j, i, s =>
    (dataByte 8 0 0 i s).andThen fun acc s => dataBytes rem (j + 1) (i + 16) (s.storeByte j acc)

/-- Steps 4f and 4g: footer mark, then footer gap (R140, R141). -/
def footer (i : Nat) (s : State) : Flow Unit :=
  (matchCell (fun m => matchMark s.cfg.tol m s.cfg.bitMark) i s).andThen fun _ s =>
    matchCell (fun m => matchAtLeast s.cfg.tol m s.cfg.gap) (i + 1) s

/-- Step 4a's test: `n` is a whole, non-zero number of bytes that fit `STATE` (R135). -/
def bitsAdmissible (c : Config) (n : Nat) : Bool :=
  decide (n ≠ 0) && decide (n % 8 = 0) && decide (n / 8 ≤ c.stateCap)

/-- Step 6: the result registers (R143). -/
def State.storeResult (n : Nat) (s : State) : State :=
  s.setResult (BitVec.ofNat 16 n) (BitVec.ofNat 8 s.cfg.protoTag) s.commandBit

/-- Steps 1 to 6 (R146), after the result registers have been cleared. -/
def decodeSteps (strict : Bool) (n : Nat) (s : State) : Flow Unit :=
  let off := s.offset.toNat
  (require (decide (2 * ((n : Int) + 1) ≤ s.avail)) .tooShort s).andThen fun _ s =>
  (require (!strict || decide (n = s.cfg.bits)) .strictBits s).andThen fun _ s =>
  (preHeader off s).andThen fun _ s =>
  (require (bitsAdmissible s.cfg n) .badNbits s).andThen fun _ s =>
  (require (decide (2 * (n : Int) + 4 ≤ s.avail)) .tooShort s).andThen fun _ s =>
  (dataBytes (n / 8) 0 (off + 2) s).andThen fun _ s =>
  (footer (off + 2 + 2 * n) s).andThen fun _ s =>
  (require (!strict || s.checksumHolds) .checksum s).andThen fun _ s =>
  .go () (s.storeResult n)

/-- `DECODE` (R130, R146): the result registers are cleared first (R131), then the six steps run. -/
def execDecode (strict : Bool) (n : Nat) (s : State) : Host.Outcome State Fault Refusal :=
  .next (decodeSteps strict n (s.setResult 0 0 0)).close

end Sys2Proof.Machine
end

