-- ==== Sys2Proof/Machine/EncodeCmd.lean ====
section
/-! DEFINITION. The command ENCODE (spec/43_encode.md). -/

namespace Sys2Proof.Machine

/-- The two events of one data bit (R172). -/
def bitEvents (c : Config) (b : Bool) : List TxEvent :=
  [⟨.mark, c.bitMark⟩, ⟨.space, if b then c.oneSpace else c.zeroSpace⟩]

/-- One transmission of `n` bits: header, data bits in the order of R173, footer (R172). -/
def frame (c : Config) (d : BitVec 64) (n : Nat) : List TxEvent :=
  [⟨.mark, c.hdrMark⟩, ⟨.space, c.hdrSpace⟩] ++
    (List.range n).flatMap (fun t => bitEvents c (sentBit c.lsbFirst d n t)) ++
    [⟨.mark, c.bitMark⟩, ⟨.space, c.gap⟩]

/-- `times` transmissions back to back, with nothing between them (R174, R175). -/
def frames (c : Config) (d : BitVec 64) (n times : Nat) : List TxEvent :=
  (List.replicate times (frame c d n)).flatten

/-- `ENCODE` (R179): the guard of R171, then `REPEAT + 1` transmissions. -/
def execEncode (n : Nat) (s : State) : Host.Outcome State Fault Refusal :=
  .next ((require (decide (s.cfg.bits ≤ n)) .badEncode s).andThen fun _ s =>
    .go () (s.emit (frames s.cfg s.data n (s.repeatCount.toNat + 1)))).close

/-- What the unit presents to the modulator behind the transmit output: carrier frequency and duty cycle,
both constants (R176). -/
def carrierSettings (c : Config) : Nat × Nat := (c.freq, c.duty)

end Sys2Proof.Machine
end

