-- ==== Sys2Proof/Machine/MatchCmd.lean ====
section
/-! DEFINITION. The commands MATCHM, MATCHS and MATCHG (spec/40_match.md section 2). -/

namespace Sys2Proof.Machine

/-- The common part (R120): the index check, then one read of `RAW[OFFSET]` and one comparison with
`K[SEL]`. -/
def State.matchOne (test : Tolerance → Nat → Nat → Bool) (sel : Sel) (s : State) : State :=
  ((require (decide (s.offset.toNat < s.rawlen.toNat)) .tooShort s).andThen fun _ s =>
    matchCell (fun m => test s.cfg.tol m (expected s.cfg sel)) s.offset.toNat s).close

/-- `MATCHM sel`: compare one cell as a mark (R117). -/
def execMatchm (sel : Sel) (s : State) : Host.Outcome State Fault Refusal :=
  .next (s.matchOne matchMark sel)

/-- `MATCHS sel`: compare one cell as a space (R118). -/
def execMatchs (sel : Sel) (s : State) : Host.Outcome State Fault Refusal :=
  .next (s.matchOne matchSpace sel)

/-- `MATCHG sel`: compare one cell as a gap, at-least (R119). -/
def execMatchg (sel : Sel) (s : State) : Host.Outcome State Fault Refusal :=
  .next (s.matchOne matchAtLeast sel)

end Sys2Proof.Machine
end

