-- ==== Sys2Proof/Machine/VerifyCmd.lean ====
section
/-! DEFINITION. The checksum verifier and the extractor as commands (spec/42_verify_extract.md R163,
R165). -/

namespace Sys2Proof.Machine

/-- `CHKSUM` (R163). -/
def execChksum (s : State) : Host.Outcome State Fault Refusal :=
  .next (require s.checksumHolds .checksum s).close

/-- `XTRACT`: `RES_CMD <- STATE[2][7]; succeed` (R165). -/
def execXtract (s : State) : Host.Outcome State Fault Refusal :=
  .next (s.setResCmd s.commandBit).succeed

end Sys2Proof.Machine
end

