-- ==== Sys2Proof/Machine/Dispatch.lean ====
section
/-! DEFINITION. The completion step of a command (spec/10_state.md R36): one arm per command, each a call of
that command's meaning. -/

namespace Sys2Proof.Machine

def exec (i : Instr) (s : State) : Host.Outcome State Fault Refusal :=
  match i with
  | .nop => Sys2Proof.Machine.execNop s
  | .decode strict n => Sys2Proof.Machine.execDecode strict n s
  | .encode n => Sys2Proof.Machine.execEncode n s
  | .chksum => Sys2Proof.Machine.execChksum s
  | .xtract => Sys2Proof.Machine.execXtract s
  | .matchm sel => Sys2Proof.Machine.execMatchm sel s
  | .matchs sel => Sys2Proof.Machine.execMatchs sel s
  | .matchg sel => Sys2Proof.Machine.execMatchg sel s

end Sys2Proof.Machine
end

