-- ==== Sys2Proof/Machine/Interface.lean ====
section
/-! DEFINITION. The register interface (spec/10_state.md R21 to R34, R41, R42; spec/20_memory.md R66 to R72)
and the platform's reset (spec/70_reset_and_hazards.md R230 to R232). -/

namespace Sys2Proof.Machine

/-! ### The index map -/

/-- The profile and parameter registers `0x0010 .. 0x001D` (R32). -/
def paramRegAt (i : Nat) : Option ParamReg :=
  match i with
  | 0x10 => some .hdrMark
  | 0x11 => some .hdrSpace
  | 0x12 => some .bitMark
  | 0x13 => some .oneSpace
  | 0x14 => some .zeroSpace
  | 0x15 => some .gap
  | 0x16 => some .bits
  | 0x17 => some .stateLen
  | 0x18 => some .tolPct
  | 0x19 => some .markExcess
  | 0x1A => some .freq
  | 0x1B => some .duty
  | 0x1C => some .caps
  | 0x1D => some .protoTag
  | _ => none

/-- The single registers below the buffers (R21). -/
def controlRegAt (i : Nat) : Option Reg :=
  match i with
  | 0 => some .cmd
  | 1 => some .status
  | 2 => some .offset
  | 3 => some .repeatCount
  | 4 => some .dataLo
  | 5 => some .dataHi
  | 6 => some .rawlen
  | 7 => some .resBits
  | 8 => some .resProto
  | 9 => some .resCmd
  | 0xA => some .failidx
  | _ => none

/-- What a register index names (R21, R41). -/
def regAt (c : Config) (index : Half) : Reg :=
  let i := index.toNat
  match controlRegAt i, paramRegAt i with
  | some r, _ => r
  | none, some p => .param p
  | none, none =>
    if 0x40 ≤ i ∧ i < 0x40 + c.stateCap then .stateCell (i - 0x40)
    else if 0x1000 ≤ i ∧ i < 0x1000 + c.rawCap then .rawCell (i - 0x1000)
    else .unmapped

/-- The suggested place of a register on a bus: `BASE + STRIDE * index` (spec/20_memory.md R68; log 13). -/
def busAddress (c : Config) (index : Half) : Nat := c.base + c.stride * index.toNat

/-! ### Reads -/

/-- `CAPS`: bits 15:0 `RAW_CAP`, 22:16 `STATE_CAP`, 23 `LSB_FIRST`, 28:24 `DUR_W` (R32). -/
def capsWord (c : Config) : Word :=
  (0 : BitVec 3) ++ BitVec.ofNat 5 c.durW ++ BitVec.ofBool c.lsbFirst ++ BitVec.ofNat 7 c.stateCap ++
    BitVec.ofNat 16 c.rawCap

/-- What a profile or parameter register returns (R32). -/
def paramWord (c : Config) : ParamReg → Word
  | .hdrMark => BitVec.ofNat 32 c.hdrMark
  | .hdrSpace => BitVec.ofNat 32 c.hdrSpace
  | .bitMark => BitVec.ofNat 32 c.bitMark
  | .oneSpace => BitVec.ofNat 32 c.oneSpace
  | .zeroSpace => BitVec.ofNat 32 c.zeroSpace
  | .gap => BitVec.ofNat 32 c.gap
  | .bits => BitVec.ofNat 32 c.bits
  | .stateLen => BitVec.ofNat 32 c.stateLen
  | .tolPct => BitVec.ofNat 32 c.tol.pct
  | .markExcess => BitVec.ofNat 32 c.tol.excess
  | .freq => BitVec.ofNat 32 c.freq
  | .duty => BitVec.ofNat 32 c.duty
  | .caps => capsWord c
  | .protoTag => BitVec.ofNat 32 c.protoTag

/-- The value a register holds, zero-extended (R42); an unmapped index holds 0 (R41). A cell never written
holds no value: see `unspecifiedWidth`. -/
def State.regWord (s : State) : Reg → Word
  | .cmd => s.cmdr
  | .status => s.status.word
  | .offset => s.offset.setWidth 32
  | .repeatCount => s.repeatCount.setWidth 32
  | .dataLo => s.dataLo
  | .dataHi => s.dataHi
  | .rawlen => s.rawlen.setWidth 32
  | .resBits => s.resBits.setWidth 32
  | .resProto => s.resProto.setWidth 32
  | .resCmd => s.resCmd.setWidth 32
  | .failidx => s.failidx.setWidth 32
  | .param p => paramWord s.cfg p
  | .stateCell j => (s.mem.stateByte j).setWidth 32
  | .rawCell i => ((s.mem.rawCell i).getD 0).setWidth 32
  | .unmapped => 0

/-- Where a read returns an unspecified value, its width: the results of a command in flight
(spec/20_memory.md R72) and a RAW cell that was never written (spec/10_state.md R34). -/
def State.unspecifiedWidth (s : State) : Reg → Option Nat
  | .stateCell _ => if s.status.busy then some 8 else none
  | .resBits => if s.status.busy then some 16 else none
  | .resProto => if s.status.busy then some 8 else none
  | .resCmd => if s.status.busy then some 1 else none
  | .failidx => if s.status.busy then some 16 else none
  | .rawCell i => if s.mem.rawCell i = none then some s.cfg.durW else none
  | .cmd => none
  | .status => none
  | .offset => none
  | .repeatCount => none
  | .dataLo => none
  | .dataHi => none
  | .rawlen => none
  | .param _ => none
  | .unmapped => none

/-- The value a read of the register returns: the one it holds, or a free value of the register's width. -/
def State.readValue (r : Reg) (s : State) : Word :=
  match s.unspecifiedWidth r with
  | some w => BitVec.ofNat 32 (s.freeBits w)
  | none => s.regWord r

/-- The read recorded for the host (log 5). -/
def State.recordRead (index : Half) (v : Word) (s : State) : State :=
  { s with readLog := s.readLog ++ [⟨index, v⟩] }

/-- `HostRead(index)`: the value goes to the host; nothing of the unit changes (spec/20_memory.md R67). -/
def State.hostRead (index : Half) (s : State) : State :=
  let r := regAt s.cfg index
  let s' := s.recordRead index (s.readValue r)
  if s.unspecifiedWidth r = none then s' else s'.drawn

/-! ### Writes -/

/-- A write that reaches its register, while `BUSY = 0`. Read-only registers and unmapped indices ignore it
(R21, R32, R41); a narrow register keeps the low bits (R42); `RAWLEN` clamps (R27); a write to `CMD` is an
acceptance (R22); a write to `STATUS` touches only `LOCKERR` (R23); a write to a RAW cell sets its written
mark (R34). -/
def State.writeReg (v : Word) (s : State) : Reg → State
  | .cmd => s.accept v
  | .status => { s with status := s.status.onWrite v }
  | .offset => { s with offset := v.setWidth 16 }
  | .repeatCount => { s with repeatCount := v.setWidth 16 }
  | .dataLo => { s with dataLo := v }
  | .dataHi => { s with dataHi := v }
  | .rawlen => { s with rawlen := BitVec.ofNat 16 (min (v.toNat % 2 ^ 16) s.cfg.rawCap) }
  | .stateCell j => s.storeByte j (v.setWidth 8)
  | .rawCell i => { s with mem := s.mem.setRawCell i (BitVec.ofNat 16 (v.toNat % 2 ^ s.cfg.durW)) }
  | .resBits => s
  | .resProto => s
  | .resCmd => s
  | .failidx => s
  | .param _ => s
  | .unmapped => s

/-- A write dropped under the `BUSY` lock: nothing changes but `LOCKERR <- 1` (spec/20_memory.md R71). -/
def State.dropWrite (s : State) : State := { s with status := s.status.onDrop }

/-- `HostWrite(index, v)`. -/
def State.hostWrite (index : Half) (v : Word) (s : State) : State :=
  if s.status.busy then s.dropWrite else s.writeReg v (regAt s.cfg index)

/-! ### Reset -/

/-- The platform's reset (spec/70_reset_and_hazards.md R231, R232): every piece of the unit's state takes its
reset value and a command in flight is abandoned. The parameters are hard-wired; the host's side (the turns
still to come and what it has read) is no state of the unit, and free values stay new ones (log 10). -/
def State.resetUnit (s : State) : State :=
  { State.reset with cfg := s.cfg, pending := s.pending, readLog := s.readLog, fresh := s.fresh }

/-! ### Host lines of spec/30_encoding.md R99 and R100 -/

/-- `cmd w`: a command word written to `CMD`. -/
def cmdLine (w : Word) : Event := .hostWrite 0x0000 w

/-- `wait`: the command in flight completes, then `rd STATUS` (log 16). -/
def waitLines : List Event := [.engine, .hostRead 0x0001]

/-- `ldraw i: v0, v1, ...`. -/
def ldrawLines (i : Nat) (vs : List Word) : List Event :=
  vs.zipIdx.map fun p => .hostWrite (BitVec.ofNat 16 (0x1000 + i + p.2)) p.1

end Sys2Proof.Machine
end

