-- ==== Sys2Proof/Machine/Engine.lean ====
section
/-! DEFINITION. One turn of each agent (spec/00_scope.md R19 (1); spec/10_state.md R36; spec/20_memory.md
R70). -/

namespace Sys2Proof.Machine

/-- The engine's turn. With a command in flight it is the one completion step of that command: the word in
`CMDR` is decoded and its meaning runs; an illegal word fails as `ILLEGAL_CMD` (R36; spec/44_control.md
R186). With no command in flight the engine is idle and nothing changes (spec/60_exceptions.md R214; log 2). -/
def engineTurn (s : State) : Host.Outcome State Fault Refusal :=
  if s.status.busy then
    match decode s.cmdr with
    | some i => exec i s
    | none => .next s.completeIllegal
  else .next s

/-- The turn of the agent an event names. -/
def turn (e : Event) (s : State) : Host.Outcome State Fault Refusal :=
  match e with
  | .hostRead index => .next (s.hostRead index)
  | .hostWrite index v => .next (s.hostWrite index v)
  | .engine => engineTurn s
  | .reset => .next s.resetUnit

end Sys2Proof.Machine
end

