-- ==== Sys2Proof/Machine/Step.lean ====
section
/-! DEFINITION. One step of the unit and its surroundings: the next turn in the order `pending` gives
(spec/20_memory.md R70; log 2). -/

namespace Sys2Proof.Machine

/-- One step. The first event of `pending` is taken; when none is left it is the engine's turn, so a command
in flight always completes (spec/70_reset_and_hazards.md R242, weak fairness; log 2). -/
def step (s : State) : Host.Outcome State Fault Refusal :=
  match s.pending with
  | [] => engineTurn s
  | e :: rest => turn e (s.withPending rest)

/-- `s` with the command word `w` accepted (spec/10_state.md R22) and the engine's turn next, so that the
next step is the completion of exactly that command (log 6). A command is one 32-bit word, so the bits above
`nbits` are 0. -/
def State.withFetchWord (s : State) (nbits w : Nat) : State :=
  (s.accept (BitVec.ofNat 32 (w % 2 ^ nbits))).withPending (.engine :: s.pending)

end Sys2Proof.Machine
end

