-- ==== Sys2Proof/Safety.lean ====
section
/-! DEFINITION. What claims about the unit are stated in: the invariants of every reachable state, the duty
of the host to load what it announces, and what it means that the cells of `RAW` align with the timing
profile. -/

namespace Sys2Proof.Machine

/-! ### Invariants -/

/-- Marks and spaces alternate strictly, starting with a mark and ending with a space (spec/43_encode.md
R172). -/
def alternating : List TxEvent → Bool
  | [] => true
  | [_] => false
  | m :: sp :: rest => (m.kind == .mark) && (sp.kind == .space) && alternating rest

/-- What holds in every reachable state. -/
structure State.Inv (s : State) : Prop where
  /-- The buffers keep their canonical form. -/
  memory : s.mem.wf = true
  /-- Only bytes of `STATE` that exist are listed (spec/10_state.md R33). -/
  stateInside : ∀ c ∈ s.mem.stateBuf, c.1 < s.cfg.stateCap
  /-- Only cells of `RAW` that exist are listed (R34). -/
  rawInside : ∀ c ∈ s.mem.raw, c.1 < s.cfg.rawCap
  /-- A cell holds a `DUR_W`-bit value (R34). -/
  rawWidth : ∀ c ∈ s.mem.raw, c.2.toNat < 2 ^ s.cfg.durW
  /-- `RAWLEN` is legal (R27). -/
  rawlen : s.rawlen.toNat ≤ s.cfg.rawCap
  /-- `RES_PROTO` holds no other value (R29). -/
  proto : s.resProto = 0 ∨ s.resProto = BitVec.ofNat 8 s.cfg.protoTag
  /-- A result has a protocol exactly when it has bits (spec/41_decode.md R131, R143). -/
  resultWhole : s.resProto = 0 ↔ s.resBits = 0
  /-- A bit count in the result is a whole number of bytes of `STATE` (R135, R143). -/
  resultBits : s.resBits.toNat % 8 = 0 ∧ s.resBits.toNat / 8 ≤ s.cfg.stateCap
  /-- `BUSY = 1` implies `DONE = 0` (R23). -/
  busyNotDone : s.status.busy = true → s.status.done = false
  /-- `OK = 1` implies `DONE = 1` (R23). -/
  okDone : s.status.ok = true → s.status.done = true
  /-- `DONE = 1` implies (`OK = 1` iff `DIAG = 0`) (R23). -/
  okDiag : s.status.done = true → (s.status.ok = true ↔ s.status.diag = none)
  /-- `DIAG` is 0 until a command has completed (R22, R23). -/
  diagDone : s.status.done = false → s.status.diag = none
  /-- `FAILIDX` is `0xFFFF` but after a `PULSE_MISMATCH` (R31). -/
  indexOnlyMismatch : s.status.diag ≠ some .pulseMismatch → s.failidx = noIndex
  /-- After a `PULSE_MISMATCH` it is an index of `RAW` (R31). -/
  indexInside : s.status.diag = some .pulseMismatch → s.failidx.toNat < s.cfg.rawCap
  /-- What has been sent alternates (spec/43_encode.md R172). -/
  sent : alternating s.txlog = true

/-! ### What the host loads -/

/-- The duration `RAW[i]` encodes, 0 where it was never written. Used only of written cells. -/
def State.cellValue (s : State) (i : Nat) : Nat := ((s.mem.rawCell i).getD 0).toNat

/-- The cells `a .. b-1` have been written (spec/70_reset_and_hazards.md R237). -/
def State.written (s : State) (a b : Nat) : Prop := ∀ i, a ≤ i → i < b → s.mem.rawCell i ≠ none

/-- The value of arrival bit `t` of the frame that starts at `OFFSET`: 1 where its space cell is a one-space
(spec/41_decode.md R137). -/
def State.arrived (s : State) (t : Nat) : Bool :=
  matchSpace s.cfg.tol (s.cellValue (s.offset.toNat + 3 + 2 * t)) s.cfg.oneSpace

/-- Byte `j` of a frame whose arrival bits are `bit 0, bit 1, ...`: arrival bit `8j + k` stands at position
`7 - k`, or `k` with `LSB_FIRST` (spec/20_memory.md R63). -/
def packedByte (lsbFirst : Bool) (bit : Nat → Bool) (j : Nat) : Byte :=
  BitVec.ofNat 8 (((List.range 8).map fun k =>
    if bit (8 * j + k) then 2 ^ (if lsbFirst then k else 7 - k) else 0).sum)

/-- Byte `j` of the frame that starts at `OFFSET`. -/
def State.arrivedByte (s : State) (j : Nat) : Byte := packedByte s.cfg.lsbFirst s.arrived j

/-- The two header cells align (spec/41_decode.md R134). -/
abbrev State.headerAligned (s : State) : Prop :=
  matchMark s.cfg.tol (s.cellValue s.offset.toNat) s.cfg.hdrMark = true ∧
  matchSpace s.cfg.tol (s.cellValue (s.offset.toNat + 1)) s.cfg.hdrSpace = true

/-- The mark cell of data bit `t` aligns (R137). -/
abbrev State.bitMarkAligned (s : State) (t : Nat) : Prop :=
  matchMark s.cfg.tol (s.cellValue (s.offset.toNat + 2 + 2 * t)) s.cfg.bitMark = true

/-- The space cell of data bit `t` aligns, as a one-space or as a zero-space (R137). -/
abbrev State.bitSpaceAligned (s : State) (t : Nat) : Prop :=
  matchSpace s.cfg.tol (s.cellValue (s.offset.toNat + 3 + 2 * t)) s.cfg.oneSpace = true ∨
  matchSpace s.cfg.tol (s.cellValue (s.offset.toNat + 3 + 2 * t)) s.cfg.zeroSpace = true

/-- The footer mark of an `n`-bit frame aligns (R140). -/
abbrev State.footerMarkAligned (s : State) (n : Nat) : Prop :=
  matchMark s.cfg.tol (s.cellValue (s.offset.toNat + 2 + 2 * n)) s.cfg.bitMark = true

/-- The footer gap of an `n`-bit frame aligns (R141). -/
abbrev State.footerGapAligned (s : State) (n : Nat) : Prop :=
  matchAtLeast s.cfg.tol (s.cellValue (s.offset.toNat + 3 + 2 * n)) s.cfg.gap = true

/-- The tests of DECODE that come before its first data bit pass: length, strictness, header, bit count,
length of the data stage (R132 to R136), the header cells being written; and the first `b` data bits align,
their cells being written (R137). -/
structure State.AlignedTo (s : State) (strict : Bool) (n b : Nat) : Prop where
  length : s.offset.toNat + (2 * n + 4) ≤ s.rawlen.toNat
  strictBits : strict = true → n = s.cfg.bits
  header : s.headerAligned
  nonzero : n ≠ 0
  wholeBytes : n % 8 = 0
  fits : n / 8 ≤ s.cfg.stateCap
  cells : s.written s.offset.toNat (s.offset.toNat + (2 + 2 * b))
  marks : ∀ t, t < b → s.bitMarkAligned t
  spaces : ∀ t, t < b → s.bitSpaceAligned t

/-- The header test of DECODE passes on the two values it reads, written or free (R134). -/
abbrev State.headerPasses (s : State) : Prop :=
  matchMark s.cfg.tol (s.loadRaw s.offset.toNat).1 s.cfg.hdrMark = true ∧
  matchSpace s.cfg.tol ((s.loadRaw s.offset.toNat).2.loadRaw (s.offset.toNat + 1)).1 s.cfg.hdrSpace = true

/-- The state after the two header cells have been read: free values may have been drawn. -/
def State.headerRead (s : State) : State :=
  ((s.loadRaw s.offset.toNat).2.loadRaw (s.offset.toNat + 1)).2

/-! ### How a command ends -/

/-- The end of a command that succeeded, written out (spec/10_state.md R36; spec/60_exceptions.md R200). -/
def State.endsOk (s : State) : State :=
  { s with
    status := { busy := false, done := true, ok := true, lockerr := s.status.lockerr, diag := none }
    failidx := 0xFFFF }

/-- The end of a command that failed, written out (spec/60_exceptions.md R204). -/
def State.endsFailed (c : FailClass) (idx : Half) (s : State) : State :=
  { s with
    status := { busy := false, done := true, ok := false, lockerr := s.status.lockerr, diag := some c }
    failidx := idx }

/-- The result registers of DECODE cleared (spec/41_decode.md R131). -/
def State.noResult (s : State) : State := { s with resBits := 0, resProto := 0, resCmd := 0 }

/-- `m` is the memory of `s` with the bytes `0 .. k-1` of `STATE` replaced by the bytes that arrived, in
canonical form (spec/41_decode.md R139). -/
structure State.HoldsArrived (s : State) (k : Nat) (m : Memory) : Prop where
  wf : m.wf = true
  raw : m.raw = s.mem.raw
  arrived : ∀ j, j < k → m.stateByte j = s.arrivedByte j
  kept : ∀ j, k ≤ j → m.stateByte j = s.mem.stateByte j

/-- Byte `j` of the payload `d` of an `n`-bit frame (spec/20_memory.md R64): big-endian, or little-endian
with `LSB_FIRST`; bits of `d` above 63 are 0. -/
def payloadByte (lsbFirst : Bool) (d : BitVec 64) (n j : Nat) : Byte :=
  if lsbFirst then (d >>> (8 * j)).setWidth 8 else (d >>> (n - 8 - 8 * j)).setWidth 8

/-- What a MATCH command does with the cell at `OFFSET` (spec/40_match.md R117, R120), `test` being its
comparison: an index out of range, a written cell, and a cell never written, whose value is unspecified
(spec/20_memory.md R78). -/
def ComparesOneCell (command : Sel → Instr) (test : Tolerance → Nat → Nat → Bool) : Prop :=
  ∀ (sel : Sel) (s : State),
    (s.rawlen.toNat ≤ s.offset.toNat →
      exec (command sel) s = .next (s.endsFailed .tooShort 0xFFFF)) ∧
    (s.offset.toNat < s.rawlen.toNat → ∀ v, s.mem.rawCell s.offset.toNat = some v →
      exec (command sel) s = .next
        (if test s.cfg.tol v.toNat (expected s.cfg sel) then s.endsOk
          else s.endsFailed .pulseMismatch s.offset)) ∧
    (s.offset.toNat < s.rawlen.toNat → s.mem.rawCell s.offset.toNat = none →
      ∃ m, m < 2 ^ s.cfg.durW ∧
        exec (command sel) s = .next
          (if test s.cfg.tol m (expected s.cfg sel) then s.drawn.endsOk
            else s.drawn.endsFailed .pulseMismatch s.offset))

/-! ### Bounded completion -/

/-- The state after `k` steps. -/
def runs (k : Nat) (s : State) : Host.Outcome State Fault Refusal := Host.Core.run Sys2Proof.core k s

end Sys2Proof.Machine
end

