-- ==== Sys2Proof/Certificates/Slice0/Obligations.lean ====
section
/-! DEFINITION. The statements about the unit. Each docstring names the rule of spec/ it formalises. Free
values and the schedule are the model's own (logs 2 to 5); no statement rests on a particular one. -/

open Sys2Proof Sys2Proof.Machine

/-! ### Encoding (spec/30_encoding.md) -/

/-- Decoding the word of a well-formed command gives the command back, with every operand (R95, R97). -/
def Obligations.DecodeOfEncodeGivesTheCommand : Prop :=
  ∀ i : Instr, i.wf = true → decode (encode i) = some i

/-- A word that decodes to a command is the one word of that command, and the command is well formed: there
are no aliases (R96, R97). -/
def Obligations.LegalWordsAreTheWordsOfTheirCommands : Prop :=
  ∀ (w : Word) (i : Instr), decode w = some i → i.wf = true ∧ encode i = w

/-- The opcode map (R95): a word selects a row exactly when mask, match and constraint hold, and the fields
are the operands. -/
def Obligations.WordsSelectTheRowsOfTheOpcodeMap : Prop :=
  ∀ w : Word,
    (decode w = some .nop ↔ w &&& 0xFFFFFFFF = 0x00000000) ∧
    (∀ strict n, decode w = some (.decode strict n) ↔
      w &&& 0xF7FF0000 = 0x10000000 ∧ strict = w.getLsbD 27 ∧ n = w.toNat % 2 ^ 16) ∧
    (∀ n, decode w = some (.encode n) ↔ w &&& 0xFFFF0000 = 0x20000000 ∧ n = w.toNat % 2 ^ 16) ∧
    (decode w = some .chksum ↔ w &&& 0xFFFFFFFF = 0x30000000) ∧
    (decode w = some .xtract ↔ w &&& 0xFFFFFFFF = 0x40000000) ∧
    ∀ p ∈ [(Sel.hdrMark, 0), (.hdrSpace, 1), (.bitMark, 2), (.oneSpace, 3), (.zeroSpace, 4), (.gap, 5)],
      (decode w = some (.matchm p.1) ↔ w &&& 0xFE3FFFFF = 0x50000000 ∧ w.toNat / 2 ^ 22 % 8 = p.2) ∧
      (decode w = some (.matchs p.1) ↔ w &&& 0xFE3FFFFF = 0x52000000 ∧ w.toNat / 2 ^ 22 % 8 = p.2) ∧
      (decode w = some (.matchg p.1) ↔ w &&& 0xFE3FFFFF = 0x54000000 ∧ w.toNat / 2 ^ 22 % 8 = p.2)

/-- The illegal words (R96), and that one of them, written while `BUSY = 0`, is accepted and completes as
`ILLEGAL_CMD` with no other effect. -/
def Obligations.IllegalWordsAreThoseOfTheList : Prop :=
  ∀ w : Word,
    (decode w = none ↔
      (6 ≤ w.toNat / 2 ^ 28 ∨ w.toNat / 2 ^ 16 % 2 ^ 6 ≠ 0 ∨
        (w.toNat / 2 ^ 27 % 2 = 1 ∧ w.toNat / 2 ^ 28 ≠ 1) ∨
        ((w.toNat / 2 ^ 25 % 4 ≠ 0 ∨ w.toNat / 2 ^ 22 % 8 ≠ 0) ∧ w.toNat / 2 ^ 28 ≠ 5) ∨
        (w.toNat % 2 ^ 16 ≠ 0 ∧ w.toNat / 2 ^ 28 ∈ [0, 3, 4, 5]) ∨
        (w.toNat / 2 ^ 28 = 5 ∧ (w.toNat / 2 ^ 25 % 4 = 3 ∨ 6 ≤ w.toNat / 2 ^ 22 % 8)))) ∧
    (decode w = none → ∀ s : State, s.status.busy = false →
      engineTurn (s.hostWrite 0x0000 w) =
        .next (({ s with cmdr := w }).endsFailed .illegalCmd 0xFFFF))

/-- Words spelled out in the spec (R99 and the decoding vectors V17, V18). -/
def Obligations.SpelledWordsDecodeAsTheSpecSays : Prop :=
  decode 0x00000000 = some .nop ∧
  decode 0x10000020 = some (.decode false 32) ∧ decode 0x18000020 = some (.decode true 32) ∧
  decode 0x1800FFFF = some (.decode true 65535) ∧ decode 0x20000020 = some (.encode 32) ∧
  decode 0x30000000 = some .chksum ∧ decode 0x40000000 = some .xtract ∧
  decode 0x50800000 = some (.matchm .bitMark) ∧ decode 0x52400000 = some (.matchs .hdrSpace) ∧
  decode 0x53000000 = some (.matchs .zeroSpace) ∧ decode 0x55400000 = some (.matchg .gap) ∧
  [0x60000000, 0xF0000000, 0xFFFFFFFF, 0x10010020, 0x28000020, 0x12000020, 0x00000001, 0x30000001,
      0x40000020, 0x50000001, 0x56000000, 0x51800000, 0x51C00000].map decode = List.replicate 13 none

/-! ### Comparison and configuration (spec/40_match.md section 1; spec/00_scope.md section 3) -/

/-- The six comparison functions and the values the rules state of them (R110 to R115). -/
def Obligations.ComparisonFunctionsAreAsDefined : Prop :=
  ∀ (t : Tolerance) (m d : Nat),
    (lo t d = d * (100 - t.pct) / 100 ∧ lo t 0 = 0 ∧ (t.pct = 100 → lo t d = 0) ∧
      (t.pct = 0 → lo t d = d) ∧ (d < 2 ^ 17 → d * (100 - t.pct) < 2 ^ 24)) ∧
    (hi t d = d * (100 + t.pct) / 100 + 1 ∧ hi t 0 = 1 ∧ d + 1 ≤ hi t d) ∧
    (inWindow t m d = true ↔ lo t d ≤ m ∧ m ≤ hi t d) ∧
    matchMark t m d = inWindow t m (d + t.excess) ∧
    matchSpace t m d = inWindow t m (if t.excess ≤ d then d - t.excess else 0) ∧
    (matchAtLeast t m d = true ↔ lo t (if t.excess ≤ d then d - t.excess else 0) ≤ m)

/-- The laws of the comparison (R116). Law (e), that the functions read no state, is in their types. -/
def Obligations.ComparisonLaws : Prop :=
  (∀ (t : Tolerance) (d : Nat),
    (lo t d ≤ d ∧ d < hi t d) ∧
    (∃ a b, a ≤ b ∧ ∀ m, inWindow t m d = true ↔ a ≤ m ∧ m ≤ b) ∧
    (∃ a b, a ≤ b ∧ ∀ m, matchMark t m d = true ↔ a ≤ m ∧ m ≤ b) ∧
    (∃ a b, a ≤ b ∧ ∀ m, matchSpace t m d = true ↔ a ≤ m ∧ m ≤ b) ∧
    (∀ u : Tolerance, t.pct ≤ u.pct → t.excess = u.excess → ∀ m,
      (inWindow t m d = true → inWindow u m d = true) ∧
      (matchMark t m d = true → matchMark u m d = true) ∧
      (matchSpace t m d = true → matchSpace u m d = true)) ∧
    (∀ m k, m ≤ k → matchAtLeast t m d = true → matchAtLeast t k d = true) ∧
    (∀ m, matchSpace t m d = true → matchAtLeast t m d = true) ∧
    (t.pct = 0 → t.excess = 0 → ∀ m,
      (inWindow t m d = true ↔ m = d ∨ m = d + 1) ∧ (matchMark t m d = true ↔ m = d ∨ m = d + 1) ∧
      (matchSpace t m d = true ↔ m = d ∨ m = d + 1)) ∧
    (matchMark t d d = true ↔ lo t (d + t.excess) ≤ d) ∧
    (matchSpace t d d = true ↔ d ≤ hi t (d - t.excess))) ∧
  (∃ t d, 0 < t.excess ∧ matchMark t d d = false) ∧ (∃ t d, 0 < t.excess ∧ matchSpace t d d = false) ∧
  (∀ m,
    (matchMark Config.ref.tol m 8000 = true ↔ 6037 ≤ m ∧ m ≤ 10063) ∧
    (matchSpace Config.ref.tol m 4000 = true ↔ 2962 ≤ m ∧ m ≤ 4938) ∧
    (matchMark Config.ref.tol m 600 = true ↔ 487 ≤ m ∧ m ≤ 813) ∧
    (matchSpace Config.ref.tol m 1600 = true ↔ 1162 ≤ m ∧ m ≤ 1938) ∧
    (matchSpace Config.ref.tol m 600 = true ↔ 412 ≤ m ∧ m ≤ 688) ∧
    (matchAtLeast Config.ref.tol m 20000 = true ↔ 14962 ≤ m))

/-- A parameter assignment is a `ValidConfig` exactly when the constraints of R8 and R9, the self-match
condition and the separation condition hold (R10). -/
def Obligations.ValidConfigIsTheConditionOfTheSpec : Prop :=
  (∀ p : Params, p.valid = true ↔
    ((∀ v ∈ [p.hdrMark, p.hdrSpace, p.bitMark, p.oneSpace, p.zeroSpace, p.gap], 1 ≤ v ∧ v < 2 ^ p.durW) ∧
      p.zeroSpace ≠ p.oneSpace ∧ p.bits % 8 = 0 ∧ 24 ≤ p.bits ∧ p.bits ≤ 64 ∧ p.stateLen = p.bits / 8 ∧
      p.tol.pct ≤ 100 ∧ p.tol.excess < 2 ^ p.durW ∧ 8 ≤ p.durW ∧ p.durW ≤ 16 ∧
      2 * p.bits + 4 ≤ p.rawCap ∧ p.rawCap ≤ 61440 ∧ p.stateLen ≤ p.stateCap ∧ p.stateCap ≤ 64 ∧
      1 ≤ p.protoTag ∧ p.protoTag ≤ 255 ∧ 1 ≤ p.duty ∧ p.duty ≤ 100) ∧
    (matchMark p.tol p.hdrMark p.hdrMark = true ∧ matchSpace p.tol p.hdrSpace p.hdrSpace = true ∧
      matchMark p.tol p.bitMark p.bitMark = true ∧ matchSpace p.tol p.oneSpace p.oneSpace = true ∧
      matchSpace p.tol p.zeroSpace p.zeroSpace = true ∧ matchAtLeast p.tol p.gap p.gap = true) ∧
    ∀ m, ¬ (matchSpace p.tol m p.oneSpace = true ∧ matchSpace p.tol m p.zeroSpace = true)) ∧
  ∀ s : State, s.cfg.toParams.valid = true

/-! ### The MATCH commands (spec/40_match.md section 2) -/

/-- `MATCHM` (R117, R120): its word, its three outcomes, and the example in `REF`. That a cell never written
compares as one free value, and does not stop the unit, is the model's choice between the two that
spec/20_memory.md R78 allows (log 3, DESIGN CHOICE). -/
def Obligations.MatchmComparesOneCellAsAMark : Prop :=
  (∀ sel, encode (.matchm sel) = 0x50000000 + (selCode sel).setWidth 32 * 0x00400000) ∧
  ComparesOneCell .matchm (fun t m d => inWindow t m (d + t.excess)) ∧
  ∀ s : State, s.cfg = Config.ref → s.offset = 0 → s.rawlen = 1 →
    (s.mem.rawCell 0 = some 6037 → exec (.matchm .hdrMark) s = .next s.endsOk) ∧
    (s.mem.rawCell 0 = some 6036 → exec (.matchm .hdrMark) s = .next (s.endsFailed .pulseMismatch 0))

/-- `MATCHS` (R118, R120): its word, its three outcomes, and the example in `REF`. A cell never written: the
model's choice of log 3 (DESIGN CHOICE), as for `MATCHM`. -/
def Obligations.MatchsComparesOneCellAsASpace : Prop :=
  (∀ sel, encode (.matchs sel) = 0x52000000 + (selCode sel).setWidth 32 * 0x00400000) ∧
  ComparesOneCell .matchs (fun t m d => inWindow t m (d - t.excess)) ∧
  ∀ s : State, s.cfg = Config.ref → s.offset = 3 → s.rawlen = 4 →
    (s.mem.rawCell 3 = some 1938 → exec (.matchs .oneSpace) s = .next s.endsOk) ∧
    (s.mem.rawCell 3 = some 1939 → exec (.matchs .oneSpace) s = .next (s.endsFailed .pulseMismatch 3))

/-- `MATCHG` (R119, R120): its word, its three outcomes with no upper edge, and the examples in `REF`. A cell
never written: the model's choice of log 3 (DESIGN CHOICE), as for `MATCHM`. -/
def Obligations.MatchgComparesOneCellAsAGap : Prop :=
  (∀ sel, encode (.matchg sel) = 0x54000000 + (selCode sel).setWidth 32 * 0x00400000) ∧
  ComparesOneCell .matchg (fun t m d => decide (lo t (d - t.excess) ≤ m)) ∧
  ∀ s : State, s.cfg = Config.ref → s.offset = 0 → s.rawlen = 1 →
    (s.mem.rawCell 0 = some 14962 → exec (.matchg .gap) s = .next s.endsOk) ∧
    (s.mem.rawCell 0 = some 65535 → exec (.matchg .gap) s = .next s.endsOk) ∧
    (s.mem.rawCell 0 = some 14961 → exec (.matchg .gap) s = .next (s.endsFailed .pulseMismatch 0))

/-! ### DECODE (spec/41_decode.md) -/

/-- Step 1 (R132): the length check, before any cell is read. -/
def Obligations.DecodeFailsOnAShortSequence : Prop :=
  ∀ (strict : Bool) (n : Nat) (s : State),
    (s.rawlen.toNat : Int) - (s.offset.toNat : Int) < 2 * ((n : Int) + 1) →
    exec (.decode strict n) s = .next (s.noResult.endsFailed .tooShort 0xFFFF)

/-- Step 2 (R133): a strict DECODE of another bit count fails before any cell is read, after step 1; no other
DECODE fails so. -/
def Obligations.StrictDecodeRejectsOtherBitCounts : Prop :=
  (∀ (n : Nat) (s : State), n ≠ s.cfg.bits →
    exec (.decode true n) s = .next (s.noResult.endsFailed
      (if (s.rawlen.toNat : Int) - (s.offset.toNat : Int) < 2 * ((n : Int) + 1) then .tooShort
        else .strictBits) 0xFFFF)) ∧
  ∀ (strict : Bool) (n : Nat) (s t : State), exec (.decode strict n) s = .next t →
    t.status.diag = some .strictBits → strict = true ∧ n ≠ s.cfg.bits

/-- Step 3 (R134): the header mark is tested first, then the header space; each failure names its cell. -/
def Obligations.DecodeMatchesThePreHeader : Prop :=
  ∀ (strict : Bool) (n : Nat) (s : State),
    s.offset.toNat + 2 * (n + 1) ≤ s.rawlen.toNat → (strict = true → n = s.cfg.bits) →
    (matchMark s.cfg.tol (s.loadRaw s.offset.toNat).1 s.cfg.hdrMark = false →
      exec (.decode strict n) s = .next
        ((s.loadRaw s.offset.toNat).2.noResult.endsFailed .pulseMismatch s.offset)) ∧
    (matchMark s.cfg.tol (s.loadRaw s.offset.toNat).1 s.cfg.hdrMark = true →
      matchSpace s.cfg.tol ((s.loadRaw s.offset.toNat).2.loadRaw (s.offset.toNat + 1)).1
        s.cfg.hdrSpace = false →
      exec (.decode strict n) s = .next
        (s.headerRead.noResult.endsFailed .pulseMismatch (s.offset + 1)))

/-- Step 4a (R135): a bit count that is no whole, non-zero number of bytes of `STATE` fails with nothing
written; a strict DECODE never fails so. -/
def Obligations.DecodeRejectsBitCountsItCannotPack : Prop :=
  (∀ (n : Nat) (s : State),
    s.offset.toNat + 2 * (n + 1) ≤ s.rawlen.toNat → s.headerPasses →
    (n = 0 ∨ n % 8 ≠ 0 ∨ s.cfg.stateCap < n / 8) →
    exec (.decode false n) s = .next (s.headerRead.noResult.endsFailed .badNbits 0xFFFF)) ∧
  ∀ (n : Nat) (s t : State), exec (.decode true n) s = .next t → t.status.diag ≠ some .badNbits

/-- Step 4b (R136): the data stage needs `2n + 4` cells; nothing is written where they are not there. -/
def Obligations.DecodeChecksTheLengthOfTheDataStage : Prop :=
  ∀ (strict : Bool) (n : Nat) (s : State),
    s.offset.toNat + 2 * (n + 1) ≤ s.rawlen.toNat → s.rawlen.toNat < s.offset.toNat + (2 * n + 4) →
    (strict = true → n = s.cfg.bits) → s.headerPasses →
    n ≠ 0 → n % 8 = 0 → n / 8 ≤ s.cfg.stateCap →
    exec (.decode strict n) s = .next (s.headerRead.noResult.endsFailed .tooShort 0xFFFF)

/-- Steps 4c to 4e (R137 to R139): at the first data bit `b` that does not align, the command fails at its
mark cell, or at its space cell where the mark aligns; the bytes before byte `b div 8` have been stored, no
other. -/
def Obligations.DecodeStopsAtTheFirstBadBit : Prop :=
  ∀ (strict : Bool) (n b : Nat) (s : State),
    s.mem.wf = true → s.AlignedTo strict n b → b < n →
    (s.mem.rawCell (s.offset.toNat + 2 + 2 * b) ≠ none → ¬ s.bitMarkAligned b →
      ∃ m, s.HoldsArrived (b / 8) m ∧
        exec (.decode strict n) s = .next (({ s with mem := m }).noResult.endsFailed .pulseMismatch
          (BitVec.ofNat 16 (s.offset.toNat + 2 + 2 * b)))) ∧
    (s.mem.rawCell (s.offset.toNat + 2 + 2 * b) ≠ none →
      s.mem.rawCell (s.offset.toNat + 3 + 2 * b) ≠ none → s.bitMarkAligned b → ¬ s.bitSpaceAligned b →
      ∃ m, s.HoldsArrived (b / 8) m ∧
        exec (.decode strict n) s = .next (({ s with mem := m }).noResult.endsFailed .pulseMismatch
          (BitVec.ofNat 16 (s.offset.toNat + 3 + 2 * b))))

/-- Steps 4f and 4g (R140, R141): the footer mark, then the footer gap, all bytes having been stored. -/
def Obligations.DecodeMatchesTheFooter : Prop :=
  ∀ (strict : Bool) (n : Nat) (s : State),
    s.mem.wf = true → s.AlignedTo strict n n →
    s.written (s.offset.toNat + 2 + 2 * n) (s.offset.toNat + 4 + 2 * n) →
    (¬ s.footerMarkAligned n →
      ∃ m, s.HoldsArrived (n / 8) m ∧
        exec (.decode strict n) s = .next (({ s with mem := m }).noResult.endsFailed .pulseMismatch
          (BitVec.ofNat 16 (s.offset.toNat + 2 + 2 * n)))) ∧
    (s.footerMarkAligned n → ¬ s.footerGapAligned n →
      ∃ m, s.HoldsArrived (n / 8) m ∧
        exec (.decode strict n) s = .next (({ s with mem := m }).noResult.endsFailed .pulseMismatch
          (BitVec.ofNat 16 (s.offset.toNat + 3 + 2 * n))))

/-- Step 5 (R142): a strict DECODE whose pulses all align fails where the checksum of the bytes that arrived
does not hold; they stay stored. A DECODE fails so only where it is strict, has the protocol's bit count and
has left bytes whose checksum does not hold, whatever the cells it read. -/
def Obligations.StrictDecodeRejectsABadChecksum : Prop :=
  (∀ (n : Nat) (s : State),
    s.mem.wf = true → s.AlignedTo true n n →
    s.written (s.offset.toNat + 2 + 2 * n) (s.offset.toNat + 4 + 2 * n) →
    s.footerMarkAligned n → s.footerGapAligned n →
    ((byteSum ((List.range s.cfg.stateLen).map s.arrivedByte) ^^^ 0x1FE) % 256 ≠ 0) →
    ∃ m, s.HoldsArrived (n / 8) m ∧
      exec (.decode true n) s = .next (({ s with mem := m }).noResult.endsFailed .checksum 0xFFFF)) ∧
  ∀ (strict : Bool) (n : Nat) (s t : State), exec (.decode strict n) s = .next t →
    t.status.diag = some .checksum → strict = true ∧ n = s.cfg.bits ∧
      (byteSum ((List.range s.cfg.stateLen).map t.mem.stateByte) ^^^ 0x1FE) % 256 ≠ 0

/-- Step 6 and the whole success (R143, R144): every pulse aligns, and the checksum holds where strict; the
bytes that arrived stand in `STATE`, the result registers hold bit count, tag and command bit, and nothing
else changes. -/
def Obligations.DecodeOfAnAlignedFrameSucceeds : Prop :=
  ∀ (strict : Bool) (n : Nat) (s : State),
    s.mem.wf = true → s.AlignedTo strict n n →
    s.written (s.offset.toNat + 2 + 2 * n) (s.offset.toNat + 4 + 2 * n) →
    s.footerMarkAligned n → s.footerGapAligned n →
    (strict = true → (byteSum ((List.range s.cfg.stateLen).map s.arrivedByte) ^^^ 0x1FE) % 256 = 0) →
    ∃ m, s.HoldsArrived (n / 8) m ∧
      exec (.decode strict n) s = .next (State.endsOk { s with
        mem := m
        resBits := BitVec.ofNat 16 n
        resProto := BitVec.ofNat 8 s.cfg.protoTag
        resCmd := (m.stateByte 2).extractLsb' 7 1 })

/-- Where every cell below `RAWLEN` has been written, DECODE succeeds exactly on frames whose every pulse
aligns, and whose checksum holds where strict (R132 to R143, R150). -/
def Obligations.DecodeSucceedsExactlyOnAlignedFrames : Prop :=
  ∀ (strict : Bool) (n : Nat) (s : State),
    s.mem.wf = true → s.written 0 s.rawlen.toNat →
    ((∃ t, exec (.decode strict n) s = .next t ∧ t.status.ok = true) ↔
      s.AlignedTo strict n n ∧ s.footerMarkAligned n ∧ s.footerGapAligned n ∧
      (strict = true → (byteSum ((List.range s.cfg.stateLen).map s.arrivedByte) ^^^ 0x1FE) % 256 = 0))

/-- A DECODE that fails leaves no result, and STATE only as R139 and R145 allow: bytes from `n div 8` on keep
their values, and all bytes do where the failure precedes the data stage (R131, R139, R145). -/
def Obligations.FailedDecodeLeavesNoResult : Prop :=
  ∀ (strict : Bool) (n : Nat) (s t : State),
    exec (.decode strict n) s = .next t → t.status.ok = false →
    (t.resBits = 0 ∧ t.resProto = 0 ∧ t.resCmd = 0) ∧
    (∃ c, t.status.diag = some c ∧ (c ≠ .pulseMismatch → t.failidx = 0xFFFF)) ∧
    (∀ j, n / 8 ≤ j → t.mem.stateByte j = s.mem.stateByte j) ∧
    (t.status.diag = some .tooShort ∨ t.status.diag = some .strictBits ∨ t.status.diag = some .badNbits →
      t.mem = s.mem)

/-- A strict DECODE succeeds only with the protocol's bit count and a STATE whose checksum holds, and then
its result says so (R142, R143, R150). -/
def Obligations.StrictSuccessHasCountAndChecksum : Prop :=
  ∀ (n : Nat) (s t : State), exec (.decode true n) s = .next t → t.status.ok = true →
    n = s.cfg.bits ∧
    (byteSum ((List.range s.cfg.stateLen).map t.mem.stateByte) ^^^ 0x1FE) % 256 = 0 ∧
    t.resBits.toNat = s.cfg.bits ∧ t.resProto.toNat = s.cfg.protoTag ∧
    t.resCmd = (t.mem.stateByte 2).extractLsb' 7 1

/-- Cells outside `OFFSET .. OFFSET + 2n + 3` and cells at or above `RAWLEN` do not influence a DECODE
(R147; spec/20_memory.md R77): with other values or marks there it ends alike. -/
def Obligations.DecodeIgnoresCellsOutsideItsFrame : Prop :=
  ∀ (strict : Bool) (n : Nat) (s t : State) (other : List (Nat × Half)),
    (∀ i, s.offset.toNat ≤ i → i ≤ s.offset.toNat + 2 * n + 3 → i < s.rawlen.toNat →
      lookup i other = s.mem.rawCell i) →
    exec (.decode strict n) s = .next t →
    exec (.decode strict n) { s with mem := { s.mem with raw := other } } =
      .next { t with mem := { t.mem with raw := other } }

/-- A DECODE of 8 or 16 bits leaves `STATE[2]` and takes its command bit from there (R149 (d);
spec/10_state.md R43). -/
def Obligations.ShortDecodeTakesTheOldCommandBit : Prop :=
  ∀ (strict : Bool) (n : Nat) (s t : State), n < 24 →
    exec (.decode strict n) s = .next t → t.status.ok = true →
    t.mem.stateByte 2 = s.mem.stateByte 2 ∧ t.resCmd = (s.mem.stateByte 2).extractLsb' 7 1 ∧
    (n = 8 ∨ n = 16)

/-! ### Checksum and extractor (spec/42_verify_extract.md) -/

/-- The checksum and what follows from its literal (R161, R162). -/
def Obligations.ChecksumIsTheLowByteOfTheSum : Prop :=
  (∀ bs : List Byte,
    (checksumOk bs = true ↔ (byteSum bs ^^^ 0x1FE) % 256 = 0) ∧
    (checksumOk bs = true ↔ byteSum bs % 256 = 0xFE) ∧
    (checksumOk bs = true ↔ (byteSum bs ^^^ 0x0FE) % 256 = 0) ∧
    (∀ w, 8 ≤ w → (checksumOk bs = true ↔ ((byteSum bs % 2 ^ w) ^^^ 0x1FE) % 256 = 0)) ∧
    (byteSum bs ∈ [0x1FE, 0xFE, 0x2FE] → checksumOk bs = true)) ∧
  ∀ len, checksumOk (List.replicate len 0) = false

/-- `CHKSUM` (R163): its word, its two ends, and its corner cases. -/
def Obligations.ChksumVerifiesTheStateBytes : Prop :=
  encode .chksum = 0x30000000 ∧
  (∀ s : State, exec .chksum s = .next
    (if (byteSum ((List.range s.cfg.stateLen).map s.mem.stateByte) ^^^ 0x1FE) % 256 = 0 then s.endsOk
      else s.endsFailed .checksum 0xFFFF)) ∧
  (∀ s : State, (∀ j, s.mem.stateByte j = 0) → exec .chksum s = .next (s.endsFailed .checksum 0xFFFF)) ∧
  ∀ (s : State) (b0 b1 b2 b3 : Byte), s.cfg = Config.ref →
    s.mem.stateByte 0 = b0 → s.mem.stateByte 1 = b1 → s.mem.stateByte 2 = b2 → s.mem.stateByte 3 = b3 →
    ([b0, b1, b2, b3] = [0xA5, 0x3C, 0x80, 0x9D] ∨ [b0, b1, b2, b3] = [0xFF, 0xFF, 0xFF, 0x01] →
      exec .chksum s = .next s.endsOk) ∧
    ([b0, b1, b2, b3] = [0, 0, 0, 0] → exec .chksum s = .next (s.endsFailed .checksum 0xFFFF))

/-- `XTRACT` (R164, R165): `RES_CMD` becomes bit 7 of `STATE[2]`, which is 1 exactly from `0x80` on, and
nothing else changes but the status. -/
def Obligations.XtractTakesTheCommandBit : Prop :=
  encode .xtract = 0x40000000 ∧
  ∀ s : State,
    exec .xtract s = .next (State.endsOk { s with resCmd := (s.mem.stateByte 2).extractLsb' 7 1 }) ∧
    ∀ t, exec .xtract s = .next t →
      (t.resCmd = 1 ↔ 0x80 ≤ (s.mem.stateByte 2).toNat) ∧
      t.resCmd.toNat = (s.mem.stateByte 2).toNat / 2 ^ 7 % 2

/-! ### ENCODE (spec/43_encode.md) -/

/-- The guard (R171): fewer bits than the protocol's emit nothing; the protocol's count and any greater one
pass. -/
def Obligations.EncodeRefusesTooFewBits : Prop :=
  ∀ (n : Nat) (s : State),
    (n < s.cfg.bits → exec (.encode n) s = .next (s.endsFailed .badEncode 0xFFFF)) ∧
    (s.cfg.bits ≤ n → ∃ t, exec (.encode n) s = .next t ∧ t.status.ok = true)

/-- ENCODE appends `REPEAT + 1` identical transmissions, back to back, and nothing else changes but the
status; the events of one transmission are, in order, header, `n` data bits, footer, and bit `t` is
`D[n-1-t]`, or `D[t]` with `LSB_FIRST`, of the payload extended with zeros (R172 to R175, R177). -/
def Obligations.EncodeEmitsTheFrames : Prop :=
  ∀ (n : Nat) (s : State), s.cfg.bits ≤ n →
    ∃ f : List TxEvent,
      exec (.encode n) s = .next (State.endsOk
        { s with txlog := s.txlog ++ (List.replicate (s.repeatCount.toNat + 1) f).flatten }) ∧
      f.length = 2 * n + 4 ∧
      f[0]? = some ⟨.mark, s.cfg.hdrMark⟩ ∧ f[1]? = some ⟨.space, s.cfg.hdrSpace⟩ ∧
      (∀ t, t < n →
        f[2 + 2 * t]? = some ⟨.mark, s.cfg.bitMark⟩ ∧
        f[3 + 2 * t]? = some ⟨.space,
          if (if s.cfg.lsbFirst then t else n - 1 - t) < 64 ∧
              (s.dataHi.toNat * 2 ^ 32 + s.dataLo.toNat).testBit (if s.cfg.lsbFirst then t else n - 1 - t)
          then s.cfg.oneSpace else s.cfg.zeroSpace⟩) ∧
      f[2 + 2 * n]? = some ⟨.mark, s.cfg.bitMark⟩ ∧ f[3 + 2 * n]? = some ⟨.space, s.cfg.gap⟩

/-- The counting law (R180). -/
def Obligations.EncodeCountsAndDurations : Prop :=
  ∀ (n : Nat) (s t : State), exec (.encode n) s = .next t →
    (n < s.cfg.bits → t.txlog = s.txlog) ∧
    (s.cfg.bits ≤ n →
      ∃ added : List TxEvent, t.txlog = s.txlog ++ added ∧
        added.length = (s.repeatCount.toNat + 1) * (2 * n + 4) ∧
        (added.filter fun e => e.kind == .mark).length = (s.repeatCount.toNat + 1) * (n + 2) ∧
        (added.filter fun e => e.kind == .space).length = (s.repeatCount.toNat + 1) * (n + 2) ∧
        (added.map TxEvent.dur).sum = (s.repeatCount.toNat + 1) *
          (s.cfg.hdrMark + s.cfg.hdrSpace + (n + 1) * s.cfg.bitMark +
            ((List.range n).filter fun k => sentBit s.cfg.lsbFirst s.data n k).length * s.cfg.oneSpace +
            (n - ((List.range n).filter fun k => sentBit s.cfg.lsbFirst s.data n k).length) *
              s.cfg.zeroSpace + s.cfg.gap))

/-- The round trip (R181): the durations of any one of the transmissions an ENCODE appended, loaded from
`OFFSET` on, decode to the payload bytes; a strict DECODE of them succeeds exactly with the protocol's bit
count and a payload whose checksum holds. -/
def Obligations.EncodeThenDecodeRecoversThePayload : Prop :=
  ∀ (n r : Nat) (s₀ s₁ s : State),
    n % 8 = 0 → s₀.cfg.bits ≤ n → n ≤ 8 * s₀.cfg.stateCap →
    exec (.encode n) s₀ = .next s₁ → r ≤ s₀.repeatCount.toNat →
    s.cfg = s₀.cfg → s.mem.wf = true → s.offset.toNat + 2 * n + 4 ≤ s.rawlen.toNat →
    (∀ i, i < 2 * n + 4 → ∃ e, s₁.txlog[s₀.txlog.length + r * (2 * n + 4) + i]? = some e ∧
      s.mem.rawCell (s.offset.toNat + i) = some (BitVec.ofNat 16 e.dur)) →
    (∃ t, exec (.decode false n) s = .next t ∧ t.status.ok = true ∧ t.resBits.toNat = n ∧
      t.resProto.toNat = s.cfg.protoTag ∧
      (∀ j, j < n / 8 → t.mem.stateByte j = payloadByte s.cfg.lsbFirst s₀.data n j) ∧
      t.resCmd = (t.mem.stateByte 2).extractLsb' 7 1) ∧
    ∃ u, exec (.decode true n) s = .next u ∧
      (u.status.ok = true ↔ n = s.cfg.bits ∧
        checksumOk ((List.range (n / 8)).map (payloadByte s.cfg.lsbFirst s₀.data n)) = true)

/-! ### NOP, illegal words, what commands read and write (spec/44_control.md; spec/20_memory.md section 5) -/

/-- `NOP` (R185): it succeeds and changes nothing else; with its acceptance it erases the status of the
command before it, but not `LOCKERR`. -/
def Obligations.NopSucceedsAndErasesTheStatus : Prop :=
  encode .nop = 0x00000000 ∧
  (∀ s : State, exec .nop s = .next s.endsOk) ∧
  (∀ s : State, s.status.busy = false →
    engineTurn (s.hostWrite 0x0000 0x00000000) = .next (({ s with cmdr := 0 }).endsOk)) ∧
  ∀ s t : State, s.status.word = 0x00000402 → engineTurn (s.hostWrite 0x0000 0x00000000) = .next t →
    t.status.word = 0x00000006

/-- An illegal word (R186): accepted while `BUSY = 0`, it completes as `ILLEGAL_CMD` with no other effect and
stays readable in `CMD` until the next acceptance: a step changes `CMDR` only where it is a host write to
`CMD` while `BUSY = 0`, or a reset (R230); the two examples. -/
def Obligations.IllegalWordFailsAndStaysReadable : Prop :=
  (∀ (w : Word) (s : State), decode w = none → s.status.busy = false →
    (s.hostWrite 0x0000 w).status.busy = true ∧ (s.hostWrite 0x0000 w).cmdr = w ∧
    engineTurn (s.hostWrite 0x0000 w) =
      .next (({ s with cmdr := w }).endsFailed .illegalCmd 0xFFFF) ∧
    ∀ t, engineTurn (s.hostWrite 0x0000 w) = .next t →
      (t.hostRead 0x0000).readLog = t.readLog ++ [⟨0x0000, w⟩]) ∧
  (∀ s t : State, step s = .next t → t.cmdr ≠ s.cmdr →
    (∃ v rest, s.pending = .hostWrite 0x0000 v :: rest ∧ s.status.busy = false ∧ t.cmdr = v) ∨
    ∃ rest, s.pending = .reset :: rest) ∧
  ∀ (s t : State) (w : Word), w = 0x60000000 ∨ w = 0x30000001 → s.status.busy = false →
    s.status.lockerr = false → engineTurn (s.hostWrite 0x0000 w) = .next t →
    t.status.word = 0x00000702

/-- Every command completes, whatever the state, with `BUSY = 0` and `DONE = 1`, `OK` telling exactly whether
a class is recorded, and `FAILIDX` naming a cell only after a mismatch (spec/10_state.md R36; R187;
spec/60_exceptions.md R204). -/
def Obligations.EveryCommandCompletes : Prop :=
  ∀ (i : Instr) (s : State), ∃ t, exec i s = .next t ∧
    t.status.busy = false ∧ t.status.done = true ∧ t.status.lockerr = s.status.lockerr ∧
    (t.status.ok = true ↔ t.status.diag = none) ∧
    (t.status.diag ≠ some .pulseMismatch → t.failidx = 0xFFFF)

/-- The frame of every command (R79; spec/10_state.md R24 to R34): no command changes a parameter, `CMDR`,
an operand register, a cell or mark of RAW, or `LOCKERR`; only DECODE changes STATE, below byte `n div 8`,
`RES_BITS` and `RES_PROTO`; only DECODE and XTRACT change `RES_CMD`; only ENCODE changes `TXLOG`. -/
def Obligations.CommandsWriteOnlyTheirSpaces : Prop :=
  ∀ (i : Instr) (s t : State), exec i s = .next t →
    (t.cfg = s.cfg ∧ t.cmdr = s.cmdr ∧ t.offset = s.offset ∧ t.repeatCount = s.repeatCount ∧
      t.dataLo = s.dataLo ∧ t.dataHi = s.dataHi ∧ t.rawlen = s.rawlen ∧
      t.status.lockerr = s.status.lockerr ∧ t.pending = s.pending ∧ t.readLog = s.readLog) ∧
    (∀ k, t.mem.rawCell k = s.mem.rawCell k) ∧
    (∀ strict n, i = .decode strict n → ∀ j, n / 8 ≤ j → t.mem.stateByte j = s.mem.stateByte j) ∧
    ((∀ strict n, i ≠ .decode strict n) →
      (∀ j, t.mem.stateByte j = s.mem.stateByte j) ∧ t.resBits = s.resBits ∧ t.resProto = s.resProto) ∧
    ((∀ strict n, i ≠ .decode strict n) → i ≠ .xtract → t.resCmd = s.resCmd) ∧
    ((∀ n, i ≠ .encode n) → t.txlog = s.txlog)

/-- No command reads a flag (spec/10_state.md R38): with any other `STATUS` and `FAILIDX` it ends alike, but
for `LOCKERR`, which it leaves. -/
def Obligations.NoCommandReadsAFlag : Prop :=
  ∀ (i : Instr) (s t : State) (flags : Status) (idx : Half), exec i s = .next t →
    exec i { s with status := flags, failidx := idx } =
      .next { t with status := { t.status with lockerr := flags.lockerr } }

/-- No command depends on a cell of RAW at or above `RAWLEN` (spec/20_memory.md R77). -/
def Obligations.NoCommandReadsBeyondRawlen : Prop :=
  ∀ (i : Instr) (s t : State) (other : List (Nat × Half)),
    (∀ k, k < s.rawlen.toNat → lookup k other = s.mem.rawCell k) →
    exec i s = .next t →
    exec i { s with mem := { s.mem with raw := other } } =
      .next { t with mem := { t.mem with raw := other } }

/-! ### The register interface (spec/10_state.md; spec/20_memory.md) -/

/-- A write to `CMD` (R22). -/
def Obligations.WriteToCmdAcceptsACommand : Prop :=
  (∀ (s : State) (v : Word),
    (s.status.busy = false → s.hostWrite 0x0000 v = { s with
      cmdr := v
      status := { busy := true, done := false, ok := false, lockerr := s.status.lockerr, diag := none }
      failidx := 0xFFFF }) ∧
    (s.status.busy = true →
      s.hostWrite 0x0000 v = { s with status := { s.status with lockerr := true } }) ∧
    s.hostRead 0x0000 = { s with readLog := s.readLog ++ [⟨0x0000, s.cmdr⟩] }) ∧
  State.reset.cmdr = 0x00000000

/-- The `BUSY` lock (spec/20_memory.md R71): every host write while `BUSY = 1`, to any index, changes nothing
but `LOCKERR <- 1`. -/
def Obligations.WritesWhileBusyAreDropped : Prop :=
  ∀ (s : State) (index : Half) (v : Word) (rest : List Event),
    s.status.busy = true → s.pending = .hostWrite index v :: rest →
    step s = .next { s with pending := rest, status := { s.status with lockerr := true } }

/-- The word a read of `STATUS` returns and what a write to it does (R23, and the codes of R200). -/
def Obligations.StatusWordAndItsWrite : Prop :=
  (∀ t : Status,
    t.word.getLsbD 0 = t.busy ∧ t.word.getLsbD 1 = t.done ∧ t.word.getLsbD 2 = t.ok ∧
    t.word.getLsbD 3 = t.lockerr ∧ t.word.extractLsb' 4 4 = 0 ∧ t.word.extractLsb' 12 20 = 0 ∧
    (t.diag = none → t.word.extractLsb' 8 4 = 0) ∧
    ∀ p ∈ [(FailClass.tooShort, 1), (.strictBits, 2), (.pulseMismatch, 3), (.checksum, 4), (.badEncode, 5),
        (.badNbits, 6), (.illegalCmd, 7)], t.diag = some p.1 → (t.word.extractLsb' 8 4).toNat = p.2) ∧
  ∀ (s : State) (v : Word), s.status.busy = false →
    s.hostWrite 0x0001 v =
      { s with status := { s.status with lockerr := if v.getLsbD 3 then false else s.status.lockerr } }

/-- Widths (R42, R27): a read zero-extends, a write keeps the low bits and changes nothing else; `RAWLEN`
clamps; a first write to a RAW cell sets its written mark. -/
def Obligations.WritesKeepTheLowBits : Prop :=
  ∀ (s : State) (v : Word), s.status.busy = false → s.mem.wf = true →
    (∃ x : Half, x.toNat = v.toNat % 2 ^ 16 ∧ s.hostWrite 0x0002 v = { s with offset := x } ∧
      s.hostWrite 0x0003 v = { s with repeatCount := x }) ∧
    s.hostWrite 0x0004 v = { s with dataLo := v } ∧ s.hostWrite 0x0005 v = { s with dataHi := v } ∧
    (∃ x : Half, x.toNat = min (v.toNat % 2 ^ 16) s.cfg.rawCap ∧
      s.hostWrite 0x0006 v = { s with rawlen := x }) ∧
    (∀ j, j < s.cfg.stateCap → ∃ m : Memory, s.hostWrite (BitVec.ofNat 16 (0x40 + j)) v = { s with mem := m } ∧
      m.wf = true ∧ m.raw = s.mem.raw ∧ (m.stateByte j).toNat = v.toNat % 2 ^ 8 ∧
      ∀ k, k ≠ j → m.stateByte k = s.mem.stateByte k) ∧
    (∀ i, i < s.cfg.rawCap → ∃ m : Memory, s.hostWrite (BitVec.ofNat 16 (0x1000 + i)) v = { s with mem := m } ∧
      m.wf = true ∧ m.stateBuf = s.mem.stateBuf ∧
      (∃ c, m.rawCell i = some c ∧ c.toNat = v.toNat % 2 ^ s.cfg.durW) ∧
      ∀ k, k ≠ i → m.rawCell k = s.mem.rawCell k)

/-- What a host read returns, and that it changes nothing of the unit (R21, R42; spec/20_memory.md R67, R72):
the registers a command cannot change, always; the results of a command, while `BUSY = 0`; some value of the
register's width while `BUSY = 1`, or where a RAW cell was never written. -/
def Obligations.HostReadsReturnTheRegister : Prop :=
  ∀ s : State,
    (∀ p ∈ [((0x0000 : Half), s.cmdr), (0x0001, s.status.word), (0x0002, s.offset.setWidth 32),
        (0x0003, s.repeatCount.setWidth 32), (0x0004, s.dataLo), (0x0005, s.dataHi),
        (0x0006, s.rawlen.setWidth 32)],
      s.hostRead p.1 = { s with readLog := s.readLog ++ [⟨p.1, p.2⟩] }) ∧
    (s.status.busy = false →
      (∀ p ∈ [((0x0007 : Half), s.resBits.setWidth 32), (0x0008, s.resProto.setWidth 32),
          (0x0009, s.resCmd.setWidth 32), (0x000A, s.failidx.setWidth 32)],
        s.hostRead p.1 = { s with readLog := s.readLog ++ [⟨p.1, p.2⟩] }) ∧
      ∀ j, j < s.cfg.stateCap →
        s.hostRead (BitVec.ofNat 16 (0x40 + j)) = { s with
          readLog := s.readLog ++ [⟨BitVec.ofNat 16 (0x40 + j), (s.mem.stateByte j).setWidth 32⟩] }) ∧
    (∀ i, i < s.cfg.rawCap → ∀ c, s.mem.rawCell i = some c →
      s.hostRead (BitVec.ofNat 16 (0x1000 + i)) = { s with
        readLog := s.readLog ++ [⟨BitVec.ofNat 16 (0x1000 + i), c.setWidth 32⟩] }) ∧
    (s.status.busy = true →
      (∀ p ∈ [((0x0007 : Half), 16), (0x0008, 8), (0x0009, 1), (0x000A, 16)],
        ∃ x : Word, x.toNat < 2 ^ p.2 ∧
          s.hostRead p.1 = { s with readLog := s.readLog ++ [⟨p.1, x⟩], fresh := s.fresh + 1 }) ∧
      ∀ j, j < s.cfg.stateCap → ∃ x : Word, x.toNat < 2 ^ 8 ∧
        s.hostRead (BitVec.ofNat 16 (0x40 + j)) = { s with
          readLog := s.readLog ++ [⟨BitVec.ofNat 16 (0x40 + j), x⟩], fresh := s.fresh + 1 }) ∧
    (∀ i, i < s.cfg.rawCap → s.mem.rawCell i = none → ∃ x : Word, x.toNat < 2 ^ s.cfg.durW ∧
      s.hostRead (BitVec.ofNat 16 (0x1000 + i)) = { s with
        readLog := s.readLog ++ [⟨BitVec.ofNat 16 (0x1000 + i), x⟩], fresh := s.fresh + 1 })

/-- The profile and parameter registers (R32): what each returns, in any state; writes to them are ignored,
and neither reset nor a command changes them. -/
def Obligations.ParameterRegistersAreHardwired : Prop :=
  (∀ s : State,
    ∀ p ∈ [((0x0010 : Half), s.cfg.hdrMark), (0x0011, s.cfg.hdrSpace), (0x0012, s.cfg.bitMark),
        (0x0013, s.cfg.oneSpace), (0x0014, s.cfg.zeroSpace), (0x0015, s.cfg.gap), (0x0016, s.cfg.bits),
        (0x0017, s.cfg.stateLen), (0x0018, s.cfg.tol.pct), (0x0019, s.cfg.tol.excess),
        (0x001A, s.cfg.freq % 2 ^ 32), (0x001B, s.cfg.duty),
        (0x001C, s.cfg.rawCap + s.cfg.stateCap * 2 ^ 16 + (if s.cfg.lsbFirst then 2 ^ 23 else 0) +
          s.cfg.durW * 2 ^ 24), (0x001D, s.cfg.protoTag)],
      (∃ x : Word, x.toNat = p.2 ∧
        s.hostRead p.1 = { s with readLog := s.readLog ++ [⟨p.1, x⟩] }) ∧
      ∀ v, (s.status.busy = false → s.hostWrite p.1 v = s) ∧
        (s.status.busy = true →
          s.hostWrite p.1 v = { s with status := { s.status with lockerr := true } })) ∧
  (∀ (s : State) (sel : Sel),
    s.hostRead (0x0010 + (selCode sel).setWidth 16) = { s with
      readLog := s.readLog ++
        [⟨0x0010 + (selCode sel).setWidth 16, BitVec.ofNat 32 (expected s.cfg sel)⟩] }) ∧
  ∀ s t : State, step s = .next t → t.cfg = s.cfg

/-- Unmapped indices (R41): they read 0 and ignore writes, or drop them under the lock; no access raises an
error. -/
def Obligations.UnmappedIndicesReadZero : Prop :=
  (∀ (s : State) (index : Half) (v : Word),
    0xA < index.toNat → ¬ (0x10 ≤ index.toNat ∧ index.toNat ≤ 0x1D) →
    ¬ (0x40 ≤ index.toNat ∧ index.toNat < 0x40 + s.cfg.stateCap) →
    ¬ (0x1000 ≤ index.toNat ∧ index.toNat < 0x1000 + s.cfg.rawCap) →
    s.hostRead index = { s with readLog := s.readLog ++ [⟨index, 0⟩] } ∧
    (s.status.busy = false → s.hostWrite index v = s) ∧
    (s.status.busy = true →
      s.hostWrite index v = { s with status := { s.status with lockerr := true } })) ∧
  ∀ (s : State) (index : Half) (v : Word) (rest : List Event),
    s.pending = .hostRead index :: rest ∨ s.pending = .hostWrite index v :: rest → ∃ t, step s = .next t

/-- The read-only result registers ignore host writes (R21, R28 to R31). -/
def Obligations.ResultRegistersIgnoreWrites : Prop :=
  ∀ (s : State) (v : Word), s.status.busy = false →
    ∀ index ∈ [(0x0007 : Half), 0x0008, 0x0009, 0x000A], s.hostWrite index v = s

/-- `LOCKERR` changes only by a dropped write, by the host's write of a word with bit 3 set to `STATUS` while
`BUSY = 0`, or by reset (R23, R38). -/
def Obligations.LockerrChangesOnlyByHostOrReset : Prop :=
  ∀ s t : State, step s = .next t → t.status.lockerr ≠ s.status.lockerr →
    (∃ index v rest, s.pending = .hostWrite index v :: rest ∧
      ((s.status.busy = true ∧ t.status.lockerr = true) ∨
        (s.status.busy = false ∧ index = 0x0001 ∧ v.getLsbD 3 = true ∧ t.status.lockerr = false))) ∨
    ∃ rest, s.pending = .reset :: rest

/-! ### Reset, steps and invariants -/

/-- The reset values (R40). -/
def Obligations.ResetGivesTheTableOfValues : Prop :=
  (State.reset.cmdr = 0x00000000 ∧ State.reset.status.word = 0 ∧
    State.reset.status.busy = false ∧ State.reset.status.done = false ∧ State.reset.status.ok = false ∧
    State.reset.status.lockerr = false ∧ State.reset.status.diag = none ∧
    State.reset.offset = 0 ∧ State.reset.repeatCount = 0 ∧ State.reset.rawlen = 0 ∧
    State.reset.dataLo = 0 ∧ State.reset.dataHi = 0 ∧ State.reset.resBits = 0 ∧
    State.reset.resProto = 0 ∧ State.reset.resCmd = 0 ∧ State.reset.failidx = 0xFFFF ∧
    (∀ j, State.reset.mem.stateByte j = 0x00) ∧ (∀ i, State.reset.mem.rawCell i = none) ∧
    State.reset.txlog = []) ∧
  ∀ s : State, s.resetUnit.cfg = s.cfg

/-- The platform's reset, in any state (spec/70_reset_and_hazards.md R230 to R232): the unit's state is the
reset state with the same parameters, a command in flight is abandoned, and nothing follows from it. That the
schedule, the host's record and the count of free values are kept is the model's choice (log 10, DESIGN
CHOICE). -/
def Obligations.ResetAbandonsTheCommandInFlight : Prop :=
  ∀ (s : State) (rest : List Event), s.pending = .reset :: rest →
    step s = .next { State.reset with
      cfg := s.cfg, pending := rest, readLog := s.readLog, fresh := s.fresh }

/-- The engine's turn with a command in flight is `exec` of the command in `CMDR` (spec/10_state.md R36);
it comes when the schedule says so, and when the schedule is at its end (log 2). -/
def Obligations.StepRunsTheCommandInFlight : Prop :=
  ∀ (s : State) (i : Instr), s.status.busy = true → decode s.cmdr = some i →
    (s.pending = [] → step s = exec i s) ∧
    ∀ rest, s.pending = .engine :: rest → step s = exec i { s with pending := rest }

/-- The host's placing of a word (log 6): after it the next step runs exactly that word's command, or fails
it as illegal. -/
def Obligations.PlacedWordRunsNext : Prop :=
  ∀ (s : State) (w : Word),
    step (s.withFetchWord 32 w.toNat) =
      match decode w with
      | some i => exec i { s with
          cmdr := w
          status := { busy := true, done := false, ok := false, lockerr := s.status.lockerr, diag := none }
          failidx := 0xFFFF }
      | none => .next (({ s with cmdr := w }).endsFailed .illegalCmd 0xFFFF)

/-- No step stops the unit: none traps, none hangs (spec/00_scope.md R19 (5); spec/60_exceptions.md R205). -/
def Obligations.EveryStepAnswersANextState : Prop :=
  ∀ s : State, ∃ t, step s = .next t

/-- An accepted command completes, or is abandoned by a reset, after finitely many turns, and until then
nothing it reads changes: the state at its completion differs from the state at acceptance only in `LOCKERR`
and in the host's side (spec/10_state.md R36; spec/20_memory.md R71; spec/70_reset_and_hazards.md R242). The
bound is the model's: R242 gives only weak fairness, and the schedule with the engine at its end is log 2
(DESIGN CHOICE). -/
def Obligations.AcceptedCommandCompletesOnItsState : Prop :=
  ∀ s : State, s.status.busy = true →
    ∃ k u, k ≤ s.pending.length ∧ runs k s = .next u ∧
      u = { s with status := { s.status with lockerr := u.status.lockerr },
                   pending := u.pending, readLog := u.readLog, fresh := u.fresh } ∧
      (u.pending = [] ∨ (∃ rest, u.pending = .engine :: rest) ∨ ∃ rest, u.pending = .reset :: rest) ∧
      ∃ t, step u = .next t ∧ t.status.busy = false

/-- The invariants hold at reset. -/
def Obligations.ResetSatisfiesTheInvariants : Prop := State.reset.Inv

/-- Every step keeps the invariants (R23, R27, R29, R31, R33, R34; spec/43_encode.md R172). -/
def Obligations.EveryStepKeepsTheInvariants : Prop :=
  ∀ s t : State, s.Inv → step s = .next t → t.Inv

/-- Canonical memories that read alike are equal: a law of the model's own form of the two buffers, in which a
cell's written mark is that it is listed (log 9, DESIGN CHOICE), and no rule of the spec. -/
def Obligations.MemoriesThatReadAlikeAreEqual : Prop :=
  ∀ m k : Memory, m.wf = true → k.wf = true → (∀ j, m.stateByte j = k.stateByte j) →
    (∀ i, m.rawCell i = k.rawCell i) → m = k

/-! ### DECODE, whatever the cells it read -/

/-- A DECODE that succeeds, whether its cells were written or not, leaves exactly its result: a bit count of
whole bytes that fit `STATE`, no byte from `n div 8` on changed, the result registers of R143, the flags of
R144, and nothing else. That a cell never written is read as free values, which only the model's count of them
shows, is the model's choice (log 3, DESIGN CHOICE). -/
def Obligations.SuccessfulDecodeLeavesExactlyItsResult : Prop :=
  ∀ (strict : Bool) (n : Nat) (s t : State), exec (.decode strict n) s = .next t → t.status.ok = true →
    (n ≠ 0 ∧ n % 8 = 0 ∧ n / 8 ≤ s.cfg.stateCap) ∧
    ∃ m : Memory, m.raw = s.mem.raw ∧ (∀ j, n / 8 ≤ j → m.stateByte j = s.mem.stateByte j) ∧
      t = State.endsOk { s with
        mem := m
        resBits := BitVec.ofNat 16 n
        resProto := BitVec.ofNat 8 s.cfg.protoTag
        resCmd := (m.stateByte 2).extractLsb' 7 1
        fresh := t.fresh }
end

