-- ==== Sys2Proof/Laws/Config.lean ====
section
/-! SUPPORT. What a valid configuration guarantees, and that the test for it says what spec/00_scope.md R10
says. -/

namespace Sys2Proof

open Sys2Proof.Machine

namespace Machine

theorem lo_le (t : Tolerance) (d : Nat) : lo t d ≤ d := by
  unfold lo
  apply Nat.div_le_of_le_mul
  rw [Nat.mul_comm 100 d]
  exact Nat.mul_le_mul_left d (Nat.sub_le 100 t.pct)

theorem lt_hi (t : Tolerance) (d : Nat) : d < hi t d := by
  unfold hi
  have h : d ≤ d * (100 + t.pct) / 100 := by
    rw [Nat.le_div_iff_mul_le (by decide)]
    exact Nat.mul_le_mul_left d (Nat.le_add_right 100 t.pct)
  omega

theorem inWindow_iff (t : Tolerance) (m d : Nat) :
    inWindow t m d = true ↔ lo t d ≤ m ∧ m ≤ hi t d := by
  simp [inWindow]

theorem matchMark_iff (t : Tolerance) (m d : Nat) :
    matchMark t m d = true ↔ lo t (d + t.excess) ≤ m ∧ m ≤ hi t (d + t.excess) :=
  inWindow_iff t m _

theorem matchSpace_iff (t : Tolerance) (m d : Nat) :
    matchSpace t m d = true ↔ lo t (d - t.excess) ≤ m ∧ m ≤ hi t (d - t.excess) :=
  inWindow_iff t m _

theorem matchAtLeast_iff (t : Tolerance) (m d : Nat) :
    matchAtLeast t m d = true ↔ lo t (d - t.excess) ≤ m := by
  rw [matchAtLeast, decide_eq_true_eq, shrunk]

end Machine

/-- The test on the window edges says that no duration is in both windows. -/
theorem Params.separated_iff (p : Params) :
    p.separated = true ↔
      ∀ m, ¬ (matchSpace p.tol m p.oneSpace = true ∧ matchSpace p.tol m p.zeroSpace = true) := by
  have h1 := lo_le p.tol (p.oneSpace - p.tol.excess)
  have h2 := lo_le p.tol (p.zeroSpace - p.tol.excess)
  have h3 := lt_hi p.tol (p.oneSpace - p.tol.excess)
  have h4 := lt_hi p.tol (p.zeroSpace - p.tol.excess)
  simp only [matchSpace_iff, Params.separated, Bool.or_eq_true, decide_eq_true_eq]
  unfold shrunk
  constructor
  · rintro (h | h) m <;> omega
  · intro h
    have := h (max (lo p.tol (p.oneSpace - p.tol.excess)) (lo p.tol (p.zeroSpace - p.tol.excess)))
    omega

/-- The parts of validity. -/
theorem Params.valid_iff (p : Params) :
    p.valid = true ↔ p.tablesHold = true ∧ p.selfMatch = true ∧ p.separated = true := by
  simp [Params.valid, and_assoc]

/-- What the tables of R8 and R9 say, constraint by constraint. -/
theorem Params.tablesHold_iff (p : Params) :
    p.tablesHold = true ↔
      (∀ v ∈ [p.hdrMark, p.hdrSpace, p.bitMark, p.oneSpace, p.zeroSpace, p.gap], 1 ≤ v ∧ v < 2 ^ p.durW) ∧
      p.zeroSpace ≠ p.oneSpace ∧
      (p.bits % 8 = 0 ∧ 24 ≤ p.bits ∧ p.bits ≤ 64) ∧ p.stateLen = p.bits / 8 ∧
      p.tol.pct ≤ 100 ∧ p.tol.excess < 2 ^ p.durW ∧ (8 ≤ p.durW ∧ p.durW ≤ 16) ∧
      (2 * p.bits + 4 ≤ p.rawCap ∧ p.rawCap ≤ 61440) ∧ (p.stateLen ≤ p.stateCap ∧ p.stateCap ≤ 64) ∧
      (1 ≤ p.protoTag ∧ p.protoTag ≤ 255) ∧ (1 ≤ p.duty ∧ p.duty ≤ 100) := by
  simp [Params.tablesHold, Params.durationOk, and_assoc]

/-! ### A configuration of the machine -/

variable (c : Config)

theorem Config.tables : c.tablesHold = true := ((Params.valid_iff _).1 c.valid).1

theorem Config.selfMatches : c.selfMatch = true := ((Params.valid_iff _).1 c.valid).2.1

/-- No duration is a one-space and a zero-space (R10). -/
theorem Config.separate (m : Nat) (h1 : matchSpace c.tol m c.oneSpace = true) :
    matchSpace c.tol m c.zeroSpace = false := by
  have := (Params.separated_iff c.toParams).1 ((Params.valid_iff _).1 c.valid).2.2 m
  simpa [h1] using this

/-- `K_BITS` is a whole number of bytes, 24 to 64 bits (R8). -/
theorem Config.bits_bounds : c.bits % 8 = 0 ∧ 24 ≤ c.bits ∧ c.bits ≤ 64 :=
  ((Params.tablesHold_iff _).1 c.tables).2.2.1

theorem Config.stateLen_eq : c.stateLen = c.bits / 8 :=
  ((Params.tablesHold_iff _).1 c.tables).2.2.2.1

theorem Config.durW_bounds : 8 ≤ c.durW ∧ c.durW ≤ 16 :=
  ((Params.tablesHold_iff _).1 c.tables).2.2.2.2.2.2.1

theorem Config.rawCap_bounds : 2 * c.bits + 4 ≤ c.rawCap ∧ c.rawCap ≤ 61440 :=
  ((Params.tablesHold_iff _).1 c.tables).2.2.2.2.2.2.2.1

theorem Config.stateCap_bounds : c.stateLen ≤ c.stateCap ∧ c.stateCap ≤ 64 :=
  ((Params.tablesHold_iff _).1 c.tables).2.2.2.2.2.2.2.2.1

theorem Config.protoTag_bounds : 1 ≤ c.protoTag ∧ c.protoTag ≤ 255 :=
  ((Params.tablesHold_iff _).1 c.tables).2.2.2.2.2.2.2.2.2.1

/-- Every profile constant fits a cell of `RAW` (R8). -/
theorem Config.duration_bounds {v : Nat}
    (hv : v ∈ [c.hdrMark, c.hdrSpace, c.bitMark, c.oneSpace, c.zeroSpace, c.gap]) :
    1 ≤ v ∧ v < 2 ^ c.durW :=
  ((Params.tablesHold_iff _).1 c.tables).1 v hv

/-- Every profile constant fits 16 bits. -/
theorem Config.duration_lt {v : Nat}
    (hv : v ∈ [c.hdrMark, c.hdrSpace, c.bitMark, c.oneSpace, c.zeroSpace, c.gap]) : v < 2 ^ 16 :=
  lt_of_lt_of_le (c.duration_bounds hv).2 (Nat.pow_le_pow_right (by decide) c.durW_bounds.2)

end Sys2Proof
end

