-- ==== Sys2Proof/Laws/Decode.lean ====
section
/-! SUPPORT. The fields of a word and the word of fields are inverse, and so are the codes of the selectors
and of the MATCH kinds. -/

namespace Sys2Proof

@[simp] theorem fieldsOf_wordOf (f : Fields) : fieldsOf (wordOf f) = f := by
  obtain ⟨op, s, kind, sel, rsv, nbits⟩ := f
  simp only [fieldsOf, wordOf, Fields.mk.injEq]
  refine ⟨?_, ?_, ?_, ?_, ?_, ?_⟩ <;>
    (apply BitVec.eq_of_getLsbD_eq; intro i hi
     simp only [BitVec.getLsbD_extractLsb', BitVec.getLsbD_append])
  · interval_cases i <;> simp
  · interval_cases i; simp
  · interval_cases i <;> simp
  · interval_cases i <;> simp
  · interval_cases i <;> simp
  · simp [hi]

@[simp] theorem wordOf_fieldsOf (w : Word) : wordOf (fieldsOf w) = w := by
  apply BitVec.eq_of_getLsbD_eq
  intro i hi
  simp only [fieldsOf, wordOf, BitVec.getLsbD_append, BitVec.getLsbD_extractLsb']
  interval_cases i <;> simp

@[simp] theorem selOf_selCode (sel : Sel) : selOf (selCode sel) = some sel := by
  cases sel <;> rfl

theorem selCode_of_selOf {v : BitVec 3} {sel : Sel} (h : selOf v = some sel) : selCode sel = v := by
  revert h
  revert v
  cases sel <;> decide

/-- `SEL` names a selector exactly for the values 0 to 5. -/
theorem selOf_eq_none (v : BitVec 3) : selOf v = none ↔ 6 ≤ v.toNat := by
  revert v
  decide

end Sys2Proof
end

