-- ==== Sys2Proof/Laws/Memory.lean ====
section
/-! SUPPORT. The two buffers: a read after a write, writes that keep the canonical form, and equality of
canonical buffers that read alike. -/

namespace Sys2Proof.Machine

variable {α : Type}

/-! ### Sparse lists -/

theorem allAbove_iff (a : Nat) (l : List (Nat × α)) :
    allAbove a l = true ↔ ∀ c ∈ l, a < c.1 := by
  simp [allAbove]

theorem lookup_eq_none_of_allAbove {a b : Nat} {l : List (Nat × α)} (h : allAbove b l = true)
    (hab : a ≤ b) : lookup a l = none := by
  induction l with
  | nil => rfl
  | cons c rest ih =>
    rw [allAbove_iff] at h
    have hc := h c (by simp)
    have hrest : allAbove b rest = true := (allAbove_iff b rest).2 fun d hd => h d (by simp [hd])
    simp [lookup, ih hrest, show c.1 ≠ a by omega]

theorem lookup_consSome_self (a : Nat) (v : Option α) {l : List (Nat × α)}
    (h : lookup a l = none) : lookup a (consSome a v l) = v := by
  cases v <;> simp [consSome, lookup, h]

theorem lookup_consSome_ne {a b : Nat} (hab : a ≠ b) (v : Option α) (l : List (Nat × α)) :
    lookup b (consSome a v l) = lookup b l := by
  cases v <;> simp [consSome, lookup, hab]

theorem lookup_update_self (a : Nat) (v : Option α) {l : List (Nat × α)} (h : rising l = true) :
    lookup a (update a v l) = v := by
  induction l with
  | nil => exact lookup_consSome_self a v rfl
  | cons c rest ih =>
    simp only [rising, Bool.and_eq_true] at h
    unfold update
    split
    · rename_i hlt
      refine lookup_consSome_self a v ?_
      simp [lookup, show c.1 ≠ a by omega,
        lookup_eq_none_of_allAbove h.1 (Nat.le_of_lt hlt)]
    · split
      · rename_i heq
        exact lookup_consSome_self a v (lookup_eq_none_of_allAbove h.1 (by omega))
      · rename_i hne
        simp [lookup, hne, ih h.2]

theorem lookup_update_ne {a b : Nat} (hab : a ≠ b) (v : Option α) (l : List (Nat × α)) :
    lookup b (update a v l) = lookup b l := by
  induction l with
  | nil => exact lookup_consSome_ne hab v []
  | cons c rest ih =>
    unfold update
    split
    · exact lookup_consSome_ne hab v _
    · split
      · rename_i heq
        rw [lookup_consSome_ne hab]
        simp [lookup, show c.1 ≠ b by omega]
      · simp [lookup, ih]

theorem mem_consSome {a : Nat} {v : Option α} {l : List (Nat × α)} {c : Nat × α}
    (h : c ∈ consSome a v l) : (v = some c.2 ∧ c.1 = a) ∨ c ∈ l := by
  cases v with
  | none => exact .inr h
  | some x =>
    simp only [consSome, List.mem_cons] at h
    rcases h with rfl | h
    · exact .inl ⟨rfl, rfl⟩
    · exact .inr h

theorem mem_update {a : Nat} {v : Option α} {l : List (Nat × α)} {c : Nat × α}
    (h : c ∈ update a v l) : (v = some c.2 ∧ c.1 = a) ∨ c ∈ l := by
  induction l with
  | nil => exact mem_consSome h
  | cons d rest ih =>
    unfold update at h
    split at h
    · exact mem_consSome h
    · split at h
      · exact (mem_consSome h).imp id (List.mem_cons_of_mem d)
      · rcases List.mem_cons.1 h with rfl | h
        · exact .inr (by simp)
        · exact (ih h).imp id (List.mem_cons_of_mem d)

theorem allAbove_update {a b : Nat} {v : Option α} {l : List (Nat × α)} (h : allAbove b l = true)
    (hab : b < a) : allAbove b (update a v l) = true := by
  rw [allAbove_iff] at h ⊢
  intro c hc
  rcases mem_update hc with ⟨-, hca⟩ | hc
  · omega
  · exact h c hc

theorem rising_consSome {a : Nat} (v : Option α) {l : List (Nat × α)} (ha : allAbove a l = true)
    (h : rising l = true) : rising (consSome a v l) = true := by
  cases v with
  | none => exact h
  | some x => simp [consSome, rising, ha, h]

theorem rising_update (a : Nat) (v : Option α) {l : List (Nat × α)} (h : rising l = true) :
    rising (update a v l) = true := by
  induction l with
  | nil => exact rising_consSome v rfl rfl
  | cons c rest ih =>
    have h' := h
    simp only [rising, Bool.and_eq_true] at h
    unfold update
    split
    · rename_i hlt
      refine rising_consSome v ?_ h'
      rw [allAbove_iff]
      intro d hd
      rcases List.mem_cons.1 hd with rfl | hd
      · exact hlt
      · have := (allAbove_iff c.1 rest).1 h.1 d hd
        omega
    · split
      · rename_i heq
        exact rising_consSome v (heq ▸ h.1) h.2
      · rename_i hlt hne
        simp only [rising, Bool.and_eq_true]
        exact ⟨allAbove_update h.1 (by omega), ih h.2⟩

theorem lookup_mem {a : Nat} {v : α} {l : List (Nat × α)} (h : lookup a l = some v) : (a, v) ∈ l := by
  induction l with
  | nil => simp [lookup] at h
  | cons c rest ih =>
    unfold lookup at h
    split at h
    · rename_i hc
      simp only [Option.some.injEq] at h
      subst hc h
      simp
    · exact List.mem_cons_of_mem c (ih h)

theorem lookup_of_mem {c : Nat × α} {l : List (Nat × α)} (hr : rising l = true) (h : c ∈ l) :
    lookup c.1 l = some c.2 := by
  induction l with
  | nil => simp at h
  | cons d rest ih =>
    simp only [rising, Bool.and_eq_true] at hr
    rcases List.mem_cons.1 h with rfl | h
    · simp [lookup]
    · have hd := (allAbove_iff d.1 rest).1 hr.1 c h
      simp [lookup, show d.1 ≠ c.1 by omega, ih hr.2 h]

/-- Rising lists with the same lookups are the same list. -/
theorem rising_ext {l k : List (Nat × α)} (hl : rising l = true) (hk : rising k = true)
    (h : ∀ a, lookup a l = lookup a k) : l = k := by
  induction l generalizing k with
  | nil =>
    cases k with
    | nil => rfl
    | cons d krest => simpa [lookup] using h d.1
  | cons c rest ih =>
    cases k with
    | nil => simpa [lookup] using h c.1
    | cons d krest =>
      simp only [rising, Bool.and_eq_true] at hl hk
      have hc := h c.1
      have hd := h d.1
      have heq : c.1 = d.1 := by
        rcases Nat.lt_trichotomy c.1 d.1 with hlt | heq | hlt
        · simp [lookup, show d.1 ≠ c.1 by omega,
            lookup_eq_none_of_allAbove hk.1 (Nat.le_of_lt hlt)] at hc
        · exact heq
        · simp [lookup, show c.1 ≠ d.1 by omega,
            lookup_eq_none_of_allAbove hl.1 (Nat.le_of_lt hlt)] at hd
      have hval : c.2 = d.2 := by simpa [lookup, heq] using hc
      have hrest : rest = krest := by
        refine ih hl.2 hk.2 fun a => ?_
        by_cases ha : a ≤ c.1
        · rw [lookup_eq_none_of_allAbove hl.1 ha,
            lookup_eq_none_of_allAbove hk.1 (heq ▸ ha)]
        · simpa [lookup, show c.1 ≠ a by omega, show d.1 ≠ a by omega] using h a
      rw [hrest, Prod.ext heq hval]

/-! ### The buffers -/

/-- What the canonical form says, in three parts. -/
theorem Memory.wf_iff (m : Memory) :
    m.wf = true ↔ rising m.stateBuf = true ∧ rising m.raw = true ∧ ∀ c ∈ m.stateBuf, c.2 ≠ 0 := by
  simp [Memory.wf, and_assoc]

theorem Memory.stateByte_setStateByte_self {m : Memory} (h : m.wf = true) (j : Nat) (b : Byte) :
    (m.setStateByte j b).stateByte j = b := by
  rw [Memory.wf_iff] at h
  by_cases hb : b = 0#8 <;> simp [Memory.stateByte, Memory.setStateByte, lookup_update_self _ _ h.1, hb]

theorem Memory.stateByte_setStateByte_ne {j k : Nat} (hjk : j ≠ k) (m : Memory) (b : Byte) :
    (m.setStateByte j b).stateByte k = m.stateByte k := by
  simp [Memory.stateByte, Memory.setStateByte, lookup_update_ne hjk]

@[simp] theorem Memory.rawCell_setStateByte (m : Memory) (j : Nat) (b : Byte) (i : Nat) :
    (m.setStateByte j b).rawCell i = m.rawCell i := rfl

@[simp] theorem Memory.raw_setStateByte (m : Memory) (j : Nat) (b : Byte) :
    (m.setStateByte j b).raw = m.raw := rfl

theorem Memory.rawCell_setRawCell_self {m : Memory} (h : m.wf = true) (i : Nat) (v : Half) :
    (m.setRawCell i v).rawCell i = some v := by
  rw [Memory.wf_iff] at h
  exact lookup_update_self _ _ h.2.1

theorem Memory.rawCell_setRawCell_ne {i k : Nat} (hik : i ≠ k) (m : Memory) (v : Half) :
    (m.setRawCell i v).rawCell k = m.rawCell k :=
  lookup_update_ne hik _ _

@[simp] theorem Memory.stateByte_setRawCell (m : Memory) (i : Nat) (v : Half) (j : Nat) :
    (m.setRawCell i v).stateByte j = m.stateByte j := rfl

/-- A write to `STATE` keeps the canonical form. -/
theorem Memory.wf_setStateByte {m : Memory} (h : m.wf = true) (j : Nat) (b : Byte) :
    (m.setStateByte j b).wf = true := by
  rw [Memory.wf_iff] at h ⊢
  refine ⟨rising_update _ _ h.1, h.2.1, fun c hc => ?_⟩
  rcases mem_update hc with ⟨hv, -⟩ | hc
  · by_cases hb : b = 0
    · simp [hb] at hv
    · rw [if_neg hb, Option.some.injEq] at hv
      exact hv ▸ hb
  · exact h.2.2 c hc

/-- A write to `RAW` keeps the canonical form. -/
theorem Memory.wf_setRawCell {m : Memory} (h : m.wf = true) (i : Nat) (v : Half) :
    (m.setRawCell i v).wf = true := by
  rw [Memory.wf_iff] at h ⊢
  exact ⟨h.1, rising_update _ _ h.2.1, h.2.2⟩

/-- The memory after reset has the canonical form. -/
theorem Memory.wf_reset : State.reset.mem.wf = true := rfl

/-- In a canonical `STATE` a byte is listed exactly when it is not 0. -/
theorem Memory.lookup_stateBuf {m : Memory} (h : m.wf = true) (j : Nat) :
    lookup j m.stateBuf = if m.stateByte j = 0 then none else some (m.stateByte j) := by
  rw [Memory.wf_iff] at h
  unfold Memory.stateByte
  cases hl : lookup j m.stateBuf with
  | none => simp
  | some b =>
    have hb : b ≠ 0 := h.2.2 (j, b) (lookup_mem hl)
    have hb' : ¬ b = 0#8 := hb
    simp [hb']

end Sys2Proof.Machine
end

