-- ==== Sys2Proof/Laws/State.lean ====
section
/-! SUPPORT. What each named update of the state leaves in each field: one lemma per field and update, so
that no proof unfolds a record update. -/

namespace Sys2Proof.Machine

variable (s : State)

/-! ### `State.drawn` -/

@[simp] theorem State.drawn_cfg : (s.drawn).cfg = s.cfg := rfl
@[simp] theorem State.drawn_cmdr : (s.drawn).cmdr = s.cmdr := rfl
@[simp] theorem State.drawn_status : (s.drawn).status = s.status := rfl
@[simp] theorem State.drawn_offset : (s.drawn).offset = s.offset := rfl
@[simp] theorem State.drawn_repeatCount : (s.drawn).repeatCount = s.repeatCount := rfl
@[simp] theorem State.drawn_dataLo : (s.drawn).dataLo = s.dataLo := rfl
@[simp] theorem State.drawn_dataHi : (s.drawn).dataHi = s.dataHi := rfl
@[simp] theorem State.drawn_rawlen : (s.drawn).rawlen = s.rawlen := rfl
@[simp] theorem State.drawn_resBits : (s.drawn).resBits = s.resBits := rfl
@[simp] theorem State.drawn_resProto : (s.drawn).resProto = s.resProto := rfl
@[simp] theorem State.drawn_resCmd : (s.drawn).resCmd = s.resCmd := rfl
@[simp] theorem State.drawn_failidx : (s.drawn).failidx = s.failidx := rfl
@[simp] theorem State.drawn_mem : (s.drawn).mem = s.mem := rfl
@[simp] theorem State.drawn_txlog : (s.drawn).txlog = s.txlog := rfl
@[simp] theorem State.drawn_pending : (s.drawn).pending = s.pending := rfl
@[simp] theorem State.drawn_readLog : (s.drawn).readLog = s.readLog := rfl
@[simp] theorem State.drawn_fresh : (s.drawn).fresh = s.fresh + 1 := rfl

/-! ### `State.withPending` -/

@[simp] theorem State.withPending_cfg (p : List Event) : (s.withPending p).cfg = s.cfg := rfl
@[simp] theorem State.withPending_cmdr (p : List Event) : (s.withPending p).cmdr = s.cmdr := rfl
@[simp] theorem State.withPending_status (p : List Event) : (s.withPending p).status = s.status := rfl
@[simp] theorem State.withPending_offset (p : List Event) : (s.withPending p).offset = s.offset := rfl
@[simp] theorem State.withPending_repeatCount (p : List Event) : (s.withPending p).repeatCount = s.repeatCount := rfl
@[simp] theorem State.withPending_dataLo (p : List Event) : (s.withPending p).dataLo = s.dataLo := rfl
@[simp] theorem State.withPending_dataHi (p : List Event) : (s.withPending p).dataHi = s.dataHi := rfl
@[simp] theorem State.withPending_rawlen (p : List Event) : (s.withPending p).rawlen = s.rawlen := rfl
@[simp] theorem State.withPending_resBits (p : List Event) : (s.withPending p).resBits = s.resBits := rfl
@[simp] theorem State.withPending_resProto (p : List Event) : (s.withPending p).resProto = s.resProto := rfl
@[simp] theorem State.withPending_resCmd (p : List Event) : (s.withPending p).resCmd = s.resCmd := rfl
@[simp] theorem State.withPending_failidx (p : List Event) : (s.withPending p).failidx = s.failidx := rfl
@[simp] theorem State.withPending_mem (p : List Event) : (s.withPending p).mem = s.mem := rfl
@[simp] theorem State.withPending_txlog (p : List Event) : (s.withPending p).txlog = s.txlog := rfl
@[simp] theorem State.withPending_pending (p : List Event) : (s.withPending p).pending = p := rfl
@[simp] theorem State.withPending_readLog (p : List Event) : (s.withPending p).readLog = s.readLog := rfl
@[simp] theorem State.withPending_fresh (p : List Event) : (s.withPending p).fresh = s.fresh := rfl

/-! ### `State.setResult` -/

@[simp] theorem State.setResult_cfg (b : Half) (p : Byte) (c : BitVec 1) : (s.setResult b p c).cfg = s.cfg := rfl
@[simp] theorem State.setResult_cmdr (b : Half) (p : Byte) (c : BitVec 1) : (s.setResult b p c).cmdr = s.cmdr := rfl
@[simp] theorem State.setResult_status (b : Half) (p : Byte) (c : BitVec 1) : (s.setResult b p c).status = s.status := rfl
@[simp] theorem State.setResult_offset (b : Half) (p : Byte) (c : BitVec 1) : (s.setResult b p c).offset = s.offset := rfl
@[simp] theorem State.setResult_repeatCount (b : Half) (p : Byte) (c : BitVec 1) : (s.setResult b p c).repeatCount = s.repeatCount := rfl
@[simp] theorem State.setResult_dataLo (b : Half) (p : Byte) (c : BitVec 1) : (s.setResult b p c).dataLo = s.dataLo := rfl
@[simp] theorem State.setResult_dataHi (b : Half) (p : Byte) (c : BitVec 1) : (s.setResult b p c).dataHi = s.dataHi := rfl
@[simp] theorem State.setResult_rawlen (b : Half) (p : Byte) (c : BitVec 1) : (s.setResult b p c).rawlen = s.rawlen := rfl
@[simp] theorem State.setResult_resBits (b : Half) (p : Byte) (c : BitVec 1) : (s.setResult b p c).resBits = b := rfl
@[simp] theorem State.setResult_resProto (b : Half) (p : Byte) (c : BitVec 1) : (s.setResult b p c).resProto = p := rfl
@[simp] theorem State.setResult_resCmd (b : Half) (p : Byte) (c : BitVec 1) : (s.setResult b p c).resCmd = c := rfl
@[simp] theorem State.setResult_failidx (b : Half) (p : Byte) (c : BitVec 1) : (s.setResult b p c).failidx = s.failidx := rfl
@[simp] theorem State.setResult_mem (b : Half) (p : Byte) (c : BitVec 1) : (s.setResult b p c).mem = s.mem := rfl
@[simp] theorem State.setResult_txlog (b : Half) (p : Byte) (c : BitVec 1) : (s.setResult b p c).txlog = s.txlog := rfl
@[simp] theorem State.setResult_pending (b : Half) (p : Byte) (c : BitVec 1) : (s.setResult b p c).pending = s.pending := rfl
@[simp] theorem State.setResult_readLog (b : Half) (p : Byte) (c : BitVec 1) : (s.setResult b p c).readLog = s.readLog := rfl
@[simp] theorem State.setResult_fresh (b : Half) (p : Byte) (c : BitVec 1) : (s.setResult b p c).fresh = s.fresh := rfl

/-! ### `State.setResCmd` -/

@[simp] theorem State.setResCmd_cfg (b : BitVec 1) : (s.setResCmd b).cfg = s.cfg := rfl
@[simp] theorem State.setResCmd_cmdr (b : BitVec 1) : (s.setResCmd b).cmdr = s.cmdr := rfl
@[simp] theorem State.setResCmd_status (b : BitVec 1) : (s.setResCmd b).status = s.status := rfl
@[simp] theorem State.setResCmd_offset (b : BitVec 1) : (s.setResCmd b).offset = s.offset := rfl
@[simp] theorem State.setResCmd_repeatCount (b : BitVec 1) : (s.setResCmd b).repeatCount = s.repeatCount := rfl
@[simp] theorem State.setResCmd_dataLo (b : BitVec 1) : (s.setResCmd b).dataLo = s.dataLo := rfl
@[simp] theorem State.setResCmd_dataHi (b : BitVec 1) : (s.setResCmd b).dataHi = s.dataHi := rfl
@[simp] theorem State.setResCmd_rawlen (b : BitVec 1) : (s.setResCmd b).rawlen = s.rawlen := rfl
@[simp] theorem State.setResCmd_resBits (b : BitVec 1) : (s.setResCmd b).resBits = s.resBits := rfl
@[simp] theorem State.setResCmd_resProto (b : BitVec 1) : (s.setResCmd b).resProto = s.resProto := rfl
@[simp] theorem State.setResCmd_resCmd (b : BitVec 1) : (s.setResCmd b).resCmd = b := rfl
@[simp] theorem State.setResCmd_failidx (b : BitVec 1) : (s.setResCmd b).failidx = s.failidx := rfl
@[simp] theorem State.setResCmd_mem (b : BitVec 1) : (s.setResCmd b).mem = s.mem := rfl
@[simp] theorem State.setResCmd_txlog (b : BitVec 1) : (s.setResCmd b).txlog = s.txlog := rfl
@[simp] theorem State.setResCmd_pending (b : BitVec 1) : (s.setResCmd b).pending = s.pending := rfl
@[simp] theorem State.setResCmd_readLog (b : BitVec 1) : (s.setResCmd b).readLog = s.readLog := rfl
@[simp] theorem State.setResCmd_fresh (b : BitVec 1) : (s.setResCmd b).fresh = s.fresh := rfl

/-! ### `State.emit` -/

@[simp] theorem State.emit_cfg (evs : List TxEvent) : (s.emit evs).cfg = s.cfg := rfl
@[simp] theorem State.emit_cmdr (evs : List TxEvent) : (s.emit evs).cmdr = s.cmdr := rfl
@[simp] theorem State.emit_status (evs : List TxEvent) : (s.emit evs).status = s.status := rfl
@[simp] theorem State.emit_offset (evs : List TxEvent) : (s.emit evs).offset = s.offset := rfl
@[simp] theorem State.emit_repeatCount (evs : List TxEvent) : (s.emit evs).repeatCount = s.repeatCount := rfl
@[simp] theorem State.emit_dataLo (evs : List TxEvent) : (s.emit evs).dataLo = s.dataLo := rfl
@[simp] theorem State.emit_dataHi (evs : List TxEvent) : (s.emit evs).dataHi = s.dataHi := rfl
@[simp] theorem State.emit_rawlen (evs : List TxEvent) : (s.emit evs).rawlen = s.rawlen := rfl
@[simp] theorem State.emit_resBits (evs : List TxEvent) : (s.emit evs).resBits = s.resBits := rfl
@[simp] theorem State.emit_resProto (evs : List TxEvent) : (s.emit evs).resProto = s.resProto := rfl
@[simp] theorem State.emit_resCmd (evs : List TxEvent) : (s.emit evs).resCmd = s.resCmd := rfl
@[simp] theorem State.emit_failidx (evs : List TxEvent) : (s.emit evs).failidx = s.failidx := rfl
@[simp] theorem State.emit_mem (evs : List TxEvent) : (s.emit evs).mem = s.mem := rfl
@[simp] theorem State.emit_txlog (evs : List TxEvent) : (s.emit evs).txlog = s.txlog ++ evs := rfl
@[simp] theorem State.emit_pending (evs : List TxEvent) : (s.emit evs).pending = s.pending := rfl
@[simp] theorem State.emit_readLog (evs : List TxEvent) : (s.emit evs).readLog = s.readLog := rfl
@[simp] theorem State.emit_fresh (evs : List TxEvent) : (s.emit evs).fresh = s.fresh := rfl

/-! ### `State.storeByte` -/

@[simp] theorem State.storeByte_cfg (j : Nat) (b : Byte) : (s.storeByte j b).cfg = s.cfg := rfl
@[simp] theorem State.storeByte_cmdr (j : Nat) (b : Byte) : (s.storeByte j b).cmdr = s.cmdr := rfl
@[simp] theorem State.storeByte_status (j : Nat) (b : Byte) : (s.storeByte j b).status = s.status := rfl
@[simp] theorem State.storeByte_offset (j : Nat) (b : Byte) : (s.storeByte j b).offset = s.offset := rfl
@[simp] theorem State.storeByte_repeatCount (j : Nat) (b : Byte) : (s.storeByte j b).repeatCount = s.repeatCount := rfl
@[simp] theorem State.storeByte_dataLo (j : Nat) (b : Byte) : (s.storeByte j b).dataLo = s.dataLo := rfl
@[simp] theorem State.storeByte_dataHi (j : Nat) (b : Byte) : (s.storeByte j b).dataHi = s.dataHi := rfl
@[simp] theorem State.storeByte_rawlen (j : Nat) (b : Byte) : (s.storeByte j b).rawlen = s.rawlen := rfl
@[simp] theorem State.storeByte_resBits (j : Nat) (b : Byte) : (s.storeByte j b).resBits = s.resBits := rfl
@[simp] theorem State.storeByte_resProto (j : Nat) (b : Byte) : (s.storeByte j b).resProto = s.resProto := rfl
@[simp] theorem State.storeByte_resCmd (j : Nat) (b : Byte) : (s.storeByte j b).resCmd = s.resCmd := rfl
@[simp] theorem State.storeByte_failidx (j : Nat) (b : Byte) : (s.storeByte j b).failidx = s.failidx := rfl
@[simp] theorem State.storeByte_mem (j : Nat) (b : Byte) : (s.storeByte j b).mem = s.mem.setStateByte j b := rfl
@[simp] theorem State.storeByte_txlog (j : Nat) (b : Byte) : (s.storeByte j b).txlog = s.txlog := rfl
@[simp] theorem State.storeByte_pending (j : Nat) (b : Byte) : (s.storeByte j b).pending = s.pending := rfl
@[simp] theorem State.storeByte_readLog (j : Nat) (b : Byte) : (s.storeByte j b).readLog = s.readLog := rfl
@[simp] theorem State.storeByte_fresh (j : Nat) (b : Byte) : (s.storeByte j b).fresh = s.fresh := rfl

/-! ### `State.accept` -/

@[simp] theorem State.accept_cfg (v : Word) : (s.accept v).cfg = s.cfg := rfl
@[simp] theorem State.accept_cmdr (v : Word) : (s.accept v).cmdr = v := rfl
@[simp] theorem State.accept_status (v : Word) : (s.accept v).status = s.status.onAccept := rfl
@[simp] theorem State.accept_offset (v : Word) : (s.accept v).offset = s.offset := rfl
@[simp] theorem State.accept_repeatCount (v : Word) : (s.accept v).repeatCount = s.repeatCount := rfl
@[simp] theorem State.accept_dataLo (v : Word) : (s.accept v).dataLo = s.dataLo := rfl
@[simp] theorem State.accept_dataHi (v : Word) : (s.accept v).dataHi = s.dataHi := rfl
@[simp] theorem State.accept_rawlen (v : Word) : (s.accept v).rawlen = s.rawlen := rfl
@[simp] theorem State.accept_resBits (v : Word) : (s.accept v).resBits = s.resBits := rfl
@[simp] theorem State.accept_resProto (v : Word) : (s.accept v).resProto = s.resProto := rfl
@[simp] theorem State.accept_resCmd (v : Word) : (s.accept v).resCmd = s.resCmd := rfl
@[simp] theorem State.accept_failidx (v : Word) : (s.accept v).failidx = noIndex := rfl
@[simp] theorem State.accept_mem (v : Word) : (s.accept v).mem = s.mem := rfl
@[simp] theorem State.accept_txlog (v : Word) : (s.accept v).txlog = s.txlog := rfl
@[simp] theorem State.accept_pending (v : Word) : (s.accept v).pending = s.pending := rfl
@[simp] theorem State.accept_readLog (v : Word) : (s.accept v).readLog = s.readLog := rfl
@[simp] theorem State.accept_fresh (v : Word) : (s.accept v).fresh = s.fresh := rfl

/-! ### `State.succeed` -/

@[simp] theorem State.succeed_cfg : (s.succeed).cfg = s.cfg := rfl
@[simp] theorem State.succeed_cmdr : (s.succeed).cmdr = s.cmdr := rfl
@[simp] theorem State.succeed_status : (s.succeed).status = s.status.onSuccess := rfl
@[simp] theorem State.succeed_offset : (s.succeed).offset = s.offset := rfl
@[simp] theorem State.succeed_repeatCount : (s.succeed).repeatCount = s.repeatCount := rfl
@[simp] theorem State.succeed_dataLo : (s.succeed).dataLo = s.dataLo := rfl
@[simp] theorem State.succeed_dataHi : (s.succeed).dataHi = s.dataHi := rfl
@[simp] theorem State.succeed_rawlen : (s.succeed).rawlen = s.rawlen := rfl
@[simp] theorem State.succeed_resBits : (s.succeed).resBits = s.resBits := rfl
@[simp] theorem State.succeed_resProto : (s.succeed).resProto = s.resProto := rfl
@[simp] theorem State.succeed_resCmd : (s.succeed).resCmd = s.resCmd := rfl
@[simp] theorem State.succeed_failidx : (s.succeed).failidx = noIndex := rfl
@[simp] theorem State.succeed_mem : (s.succeed).mem = s.mem := rfl
@[simp] theorem State.succeed_txlog : (s.succeed).txlog = s.txlog := rfl
@[simp] theorem State.succeed_pending : (s.succeed).pending = s.pending := rfl
@[simp] theorem State.succeed_readLog : (s.succeed).readLog = s.readLog := rfl
@[simp] theorem State.succeed_fresh : (s.succeed).fresh = s.fresh := rfl

/-! ### `State.raiseFail` -/

@[simp] theorem State.raiseFail_cfg (c : FailClass) (i : Half) : (s.raiseFail c i).cfg = s.cfg := rfl
@[simp] theorem State.raiseFail_cmdr (c : FailClass) (i : Half) : (s.raiseFail c i).cmdr = s.cmdr := rfl
@[simp] theorem State.raiseFail_status (c : FailClass) (i : Half) : (s.raiseFail c i).status = s.status.onFailure c := rfl
@[simp] theorem State.raiseFail_offset (c : FailClass) (i : Half) : (s.raiseFail c i).offset = s.offset := rfl
@[simp] theorem State.raiseFail_repeatCount (c : FailClass) (i : Half) : (s.raiseFail c i).repeatCount = s.repeatCount := rfl
@[simp] theorem State.raiseFail_dataLo (c : FailClass) (i : Half) : (s.raiseFail c i).dataLo = s.dataLo := rfl
@[simp] theorem State.raiseFail_dataHi (c : FailClass) (i : Half) : (s.raiseFail c i).dataHi = s.dataHi := rfl
@[simp] theorem State.raiseFail_rawlen (c : FailClass) (i : Half) : (s.raiseFail c i).rawlen = s.rawlen := rfl
@[simp] theorem State.raiseFail_resBits (c : FailClass) (i : Half) : (s.raiseFail c i).resBits = s.resBits := rfl
@[simp] theorem State.raiseFail_resProto (c : FailClass) (i : Half) : (s.raiseFail c i).resProto = s.resProto := rfl
@[simp] theorem State.raiseFail_resCmd (c : FailClass) (i : Half) : (s.raiseFail c i).resCmd = s.resCmd := rfl
@[simp] theorem State.raiseFail_failidx (c : FailClass) (i : Half) : (s.raiseFail c i).failidx = i := rfl
@[simp] theorem State.raiseFail_mem (c : FailClass) (i : Half) : (s.raiseFail c i).mem = s.mem := rfl
@[simp] theorem State.raiseFail_txlog (c : FailClass) (i : Half) : (s.raiseFail c i).txlog = s.txlog := rfl
@[simp] theorem State.raiseFail_pending (c : FailClass) (i : Half) : (s.raiseFail c i).pending = s.pending := rfl
@[simp] theorem State.raiseFail_readLog (c : FailClass) (i : Half) : (s.raiseFail c i).readLog = s.readLog := rfl
@[simp] theorem State.raiseFail_fresh (c : FailClass) (i : Half) : (s.raiseFail c i).fresh = s.fresh := rfl

/-! ### `State.recordRead` -/

@[simp] theorem State.recordRead_cfg (i : Half) (v : Word) : (s.recordRead i v).cfg = s.cfg := rfl
@[simp] theorem State.recordRead_cmdr (i : Half) (v : Word) : (s.recordRead i v).cmdr = s.cmdr := rfl
@[simp] theorem State.recordRead_status (i : Half) (v : Word) : (s.recordRead i v).status = s.status := rfl
@[simp] theorem State.recordRead_offset (i : Half) (v : Word) : (s.recordRead i v).offset = s.offset := rfl
@[simp] theorem State.recordRead_repeatCount (i : Half) (v : Word) : (s.recordRead i v).repeatCount = s.repeatCount := rfl
@[simp] theorem State.recordRead_dataLo (i : Half) (v : Word) : (s.recordRead i v).dataLo = s.dataLo := rfl
@[simp] theorem State.recordRead_dataHi (i : Half) (v : Word) : (s.recordRead i v).dataHi = s.dataHi := rfl
@[simp] theorem State.recordRead_rawlen (i : Half) (v : Word) : (s.recordRead i v).rawlen = s.rawlen := rfl
@[simp] theorem State.recordRead_resBits (i : Half) (v : Word) : (s.recordRead i v).resBits = s.resBits := rfl
@[simp] theorem State.recordRead_resProto (i : Half) (v : Word) : (s.recordRead i v).resProto = s.resProto := rfl
@[simp] theorem State.recordRead_resCmd (i : Half) (v : Word) : (s.recordRead i v).resCmd = s.resCmd := rfl
@[simp] theorem State.recordRead_failidx (i : Half) (v : Word) : (s.recordRead i v).failidx = s.failidx := rfl
@[simp] theorem State.recordRead_mem (i : Half) (v : Word) : (s.recordRead i v).mem = s.mem := rfl
@[simp] theorem State.recordRead_txlog (i : Half) (v : Word) : (s.recordRead i v).txlog = s.txlog := rfl
@[simp] theorem State.recordRead_pending (i : Half) (v : Word) : (s.recordRead i v).pending = s.pending := rfl
@[simp] theorem State.recordRead_readLog (i : Half) (v : Word) : (s.recordRead i v).readLog = s.readLog ++ [⟨i, v⟩] := rfl
@[simp] theorem State.recordRead_fresh (i : Half) (v : Word) : (s.recordRead i v).fresh = s.fresh := rfl

/-! ### `State.dropWrite` -/

@[simp] theorem State.dropWrite_cfg : (s.dropWrite).cfg = s.cfg := rfl
@[simp] theorem State.dropWrite_cmdr : (s.dropWrite).cmdr = s.cmdr := rfl
@[simp] theorem State.dropWrite_status : (s.dropWrite).status = s.status.onDrop := rfl
@[simp] theorem State.dropWrite_offset : (s.dropWrite).offset = s.offset := rfl
@[simp] theorem State.dropWrite_repeatCount : (s.dropWrite).repeatCount = s.repeatCount := rfl
@[simp] theorem State.dropWrite_dataLo : (s.dropWrite).dataLo = s.dataLo := rfl
@[simp] theorem State.dropWrite_dataHi : (s.dropWrite).dataHi = s.dataHi := rfl
@[simp] theorem State.dropWrite_rawlen : (s.dropWrite).rawlen = s.rawlen := rfl
@[simp] theorem State.dropWrite_resBits : (s.dropWrite).resBits = s.resBits := rfl
@[simp] theorem State.dropWrite_resProto : (s.dropWrite).resProto = s.resProto := rfl
@[simp] theorem State.dropWrite_resCmd : (s.dropWrite).resCmd = s.resCmd := rfl
@[simp] theorem State.dropWrite_failidx : (s.dropWrite).failidx = s.failidx := rfl
@[simp] theorem State.dropWrite_mem : (s.dropWrite).mem = s.mem := rfl
@[simp] theorem State.dropWrite_txlog : (s.dropWrite).txlog = s.txlog := rfl
@[simp] theorem State.dropWrite_pending : (s.dropWrite).pending = s.pending := rfl
@[simp] theorem State.dropWrite_readLog : (s.dropWrite).readLog = s.readLog := rfl
@[simp] theorem State.dropWrite_fresh : (s.dropWrite).fresh = s.fresh := rfl

/-! ### `State.resetUnit` -/

@[simp] theorem State.resetUnit_cfg : (s.resetUnit).cfg = s.cfg := rfl
@[simp] theorem State.resetUnit_cmdr : (s.resetUnit).cmdr = State.reset.cmdr := rfl
@[simp] theorem State.resetUnit_status : (s.resetUnit).status = State.reset.status := rfl
@[simp] theorem State.resetUnit_offset : (s.resetUnit).offset = State.reset.offset := rfl
@[simp] theorem State.resetUnit_repeatCount : (s.resetUnit).repeatCount = State.reset.repeatCount := rfl
@[simp] theorem State.resetUnit_dataLo : (s.resetUnit).dataLo = State.reset.dataLo := rfl
@[simp] theorem State.resetUnit_dataHi : (s.resetUnit).dataHi = State.reset.dataHi := rfl
@[simp] theorem State.resetUnit_rawlen : (s.resetUnit).rawlen = State.reset.rawlen := rfl
@[simp] theorem State.resetUnit_resBits : (s.resetUnit).resBits = State.reset.resBits := rfl
@[simp] theorem State.resetUnit_resProto : (s.resetUnit).resProto = State.reset.resProto := rfl
@[simp] theorem State.resetUnit_resCmd : (s.resetUnit).resCmd = State.reset.resCmd := rfl
@[simp] theorem State.resetUnit_failidx : (s.resetUnit).failidx = State.reset.failidx := rfl
@[simp] theorem State.resetUnit_mem : (s.resetUnit).mem = State.reset.mem := rfl
@[simp] theorem State.resetUnit_txlog : (s.resetUnit).txlog = State.reset.txlog := rfl
@[simp] theorem State.resetUnit_pending : (s.resetUnit).pending = s.pending := rfl
@[simp] theorem State.resetUnit_readLog : (s.resetUnit).readLog = s.readLog := rfl
@[simp] theorem State.resetUnit_fresh : (s.resetUnit).fresh = s.fresh := rfl

/-! ### The flags -/

variable (t : Status)

@[simp] theorem Status.onAccept_busy : (t.onAccept).busy = true := rfl
@[simp] theorem Status.onAccept_done : (t.onAccept).done = false := rfl
@[simp] theorem Status.onAccept_ok : (t.onAccept).ok = false := rfl
@[simp] theorem Status.onAccept_lockerr : (t.onAccept).lockerr = t.lockerr := rfl
@[simp] theorem Status.onAccept_diag : (t.onAccept).diag = none := rfl

@[simp] theorem Status.onSuccess_busy : (t.onSuccess).busy = false := rfl
@[simp] theorem Status.onSuccess_done : (t.onSuccess).done = true := rfl
@[simp] theorem Status.onSuccess_ok : (t.onSuccess).ok = true := rfl
@[simp] theorem Status.onSuccess_lockerr : (t.onSuccess).lockerr = t.lockerr := rfl
@[simp] theorem Status.onSuccess_diag : (t.onSuccess).diag = none := rfl

@[simp] theorem Status.onFailure_busy (c : FailClass) : (t.onFailure c).busy = false := rfl
@[simp] theorem Status.onFailure_done (c : FailClass) : (t.onFailure c).done = true := rfl
@[simp] theorem Status.onFailure_ok (c : FailClass) : (t.onFailure c).ok = false := rfl
@[simp] theorem Status.onFailure_lockerr (c : FailClass) : (t.onFailure c).lockerr = t.lockerr := rfl
@[simp] theorem Status.onFailure_diag (c : FailClass) : (t.onFailure c).diag = some c := rfl

@[simp] theorem Status.onDrop_busy : (t.onDrop).busy = t.busy := rfl
@[simp] theorem Status.onDrop_done : (t.onDrop).done = t.done := rfl
@[simp] theorem Status.onDrop_ok : (t.onDrop).ok = t.ok := rfl
@[simp] theorem Status.onDrop_lockerr : (t.onDrop).lockerr = true := rfl
@[simp] theorem Status.onDrop_diag : (t.onDrop).diag = t.diag := rfl

@[simp] theorem Status.onWrite_busy (v : Word) : (t.onWrite v).busy = t.busy := rfl
@[simp] theorem Status.onWrite_done (v : Word) : (t.onWrite v).done = t.done := rfl
@[simp] theorem Status.onWrite_ok (v : Word) : (t.onWrite v).ok = t.ok := rfl
@[simp] theorem Status.onWrite_lockerr (v : Word) : (t.onWrite v).lockerr = (t.lockerr && !v.getLsbD 3) := rfl
@[simp] theorem Status.onWrite_diag (v : Word) : (t.onWrite v).diag = t.diag := rfl

end Sys2Proof.Machine
end

