-- ==== Sys2Proof/Laws/Ops.lean ====
section
/-! SUPPORT. What the shared operations of the commands can do: reads of RAW, the tests, and the
short-circuit sequence. -/

namespace Sys2Proof.Machine

/-! ### What the lines of a command may change -/

/-- `t` is `s` but for bytes of `STATE` below `k` and drawn free values; the canonical form is kept. -/
structure Touched (k : Nat) (s t : State) : Prop where
  frame : t = { s with mem := { s.mem with stateBuf := t.mem.stateBuf }, fresh := t.fresh }
  wf : s.mem.wf = true → t.mem.wf = true
  bytes : ∀ j, k ≤ j → t.mem.stateByte j = s.mem.stateByte j
  listed : ∀ c ∈ t.mem.stateBuf, c ∈ s.mem.stateBuf ∨ c.1 < k

theorem Touched.refl (k : Nat) (s : State) : Touched k s s :=
  ⟨rfl, id, fun _ _ => rfl, fun _ h => .inl h⟩

theorem Touched.trans {k : Nat} {s t u : State} (h : Touched k s t) (g : Touched k t u) :
    Touched k s u where
  frame := by rw [g.frame, h.frame]
  wf := g.wf ∘ h.wf
  bytes j hj := (g.bytes j hj).trans (h.bytes j hj)
  listed c hc := (g.listed c hc).elim (h.listed c) .inr

theorem Touched.mono {k l : Nat} (hkl : k ≤ l) {s t : State} (h : Touched k s t) : Touched l s t where
  frame := h.frame
  wf := h.wf
  bytes j hj := h.bytes j (hkl.trans hj)
  listed c hc := (h.listed c hc).imp_right fun hk => lt_of_lt_of_le hk hkl

theorem Touched.drawn (k : Nat) (s : State) : Touched k s s.drawn :=
  ⟨rfl, id, fun _ _ => rfl, fun _ h => .inl h⟩

theorem Touched.storeByte {k j : Nat} (hj : j < k) (b : Byte) (s : State) :
    Touched k s (s.storeByte j b) where
  frame := rfl
  wf h := Memory.wf_setStateByte h j b
  bytes l hl := Memory.stateByte_setStateByte_ne (by omega) _ _
  listed c hc := (mem_update hc).elim (fun h => .inr (h.2 ▸ hj)) .inl

theorem Touched.cfg {k : Nat} {s t : State} (h : Touched k s t) : t.cfg = s.cfg := by rw [h.frame]
theorem Touched.cmdr {k : Nat} {s t : State} (h : Touched k s t) : t.cmdr = s.cmdr := by rw [h.frame]
theorem Touched.status {k : Nat} {s t : State} (h : Touched k s t) : t.status = s.status := by
  rw [h.frame]
theorem Touched.offset {k : Nat} {s t : State} (h : Touched k s t) : t.offset = s.offset := by
  rw [h.frame]
theorem Touched.rawlen {k : Nat} {s t : State} (h : Touched k s t) : t.rawlen = s.rawlen := by
  rw [h.frame]
theorem Touched.raw {k : Nat} {s t : State} (h : Touched k s t) : t.mem.raw = s.mem.raw := by
  rw [h.frame]
theorem Touched.rawCell {k : Nat} {s t : State} (h : Touched k s t) (i : Nat) :
    t.mem.rawCell i = s.mem.rawCell i := by
  rw [Memory.rawCell, Memory.rawCell, h.raw]
theorem Touched.avail {k : Nat} {s t : State} (h : Touched k s t) : t.avail = s.avail := by
  rw [State.avail, State.avail, h.rawlen, h.offset]

/-! ### Reads of RAW -/

theorem State.loadRaw_of_written {s : State} {i : Nat} (h : s.mem.rawCell i ≠ none) :
    s.loadRaw i = (s.cellValue i, s) := by
  obtain ⟨v, hv⟩ := Option.ne_none_iff_exists'.1 h
  simp [State.loadRaw, State.cellValue, hv]

theorem State.loadRaw_of_unwritten {s : State} {i : Nat} (h : s.mem.rawCell i = none) :
    s.loadRaw i = (s.freeBits s.cfg.durW, s.drawn) := by
  simp [State.loadRaw, h]

theorem State.loadRaw_touched (k i : Nat) (s : State) : Touched k s (s.loadRaw i).2 := by
  cases h : s.mem.rawCell i with
  | none => rw [State.loadRaw_of_unwritten h]; exact .drawn k s
  | some v =>
    rw [State.loadRaw_of_written (by simp [h])]
    exact .refl k s

@[simp] theorem State.loadRaw_mem (i : Nat) (s : State) : (s.loadRaw i).2.mem = s.mem := by
  unfold State.loadRaw; split <;> rfl

@[simp] theorem State.loadRaw_cfg (i : Nat) (s : State) : (s.loadRaw i).2.cfg = s.cfg :=
  (State.loadRaw_touched 0 i s).cfg

/-- A free value fits the width it is drawn at. -/
theorem State.freeBits_lt (w : Nat) (s : State) : s.freeBits w < 2 ^ w :=
  Nat.mod_lt _ (Nat.two_pow_pos w)

/-! ### The sequence of a command's lines -/

@[simp] theorem Flow.go_andThen {α β : Type} (a : α) (s : State) (k : α → State → Flow β) :
    (Flow.go a s).andThen k = k a s := rfl

@[simp] theorem Flow.stop_andThen {α β : Type} (c : FailClass) (idx : Half) (s : State)
    (k : α → State → Flow β) : (Flow.stop c idx s).andThen k = .stop c idx s := rfl

@[simp] theorem Flow.close_go {α : Type} (a : α) (s : State) : (Flow.go a s).close = s.succeed := rfl

@[simp] theorem Flow.close_stop {α : Type} (c : FailClass) (idx : Half) (s : State) :
    (Flow.stop (α := α) c idx s).close = s.raiseFail c idx := rfl

/-- A sequence goes on exactly when both parts do. -/
theorem Flow.andThen_eq_go {α β : Type} {f : Flow α} {k : α → State → Flow β} {b : β} {t : State} :
    f.andThen k = .go b t ↔ ∃ a s, f = .go a s ∧ k a s = .go b t := by
  cases f <;> simp [Flow.andThen]

/-- A line of a command, run from `s`: it changes only bytes of `STATE` below `k` and draws free values; a
failure carries an index exactly when it is a mismatch, and then one below `b`. -/
def Flow.Within {α : Type} (k b : Nat) (s : State) : Flow α → Prop
  | .go _ t => Touched k s t
  | .stop c idx t => Touched k s t ∧ (c ≠ .pulseMismatch → idx = noIndex) ∧
      (c = .pulseMismatch → ∃ i, i < b ∧ idx = cellIndex i)

theorem Flow.Within.andThen {α β : Type} {k b : Nat} {s : State} {f : Flow α}
    {g : α → State → Flow β} (hf : f.Within k b s)
    (hg : ∀ a t, f = .go a t → Touched k s t → (g a t).Within k b t) : (f.andThen g).Within k b s := by
  cases f with
  | stop c idx t => exact hf
  | go a t =>
    have h := hg a t rfl hf
    rw [Flow.go_andThen]
    cases hga : g a t with
    | go b' u => rw [hga] at h; exact Touched.trans hf h
    | stop c idx u => rw [hga] at h; exact ⟨Touched.trans hf h.1, h.2⟩

theorem Flow.Within.mono {α : Type} {k l b d : Nat} (hkl : k ≤ l) (hbd : b ≤ d) {s : State}
    {f : Flow α} (h : f.Within k b s) : f.Within l d s := by
  cases f with
  | go a t => exact Touched.mono hkl h
  | stop c idx t =>
    refine ⟨h.1.mono hkl, h.2.1, fun hc => ?_⟩
    obtain ⟨i, hi, hidx⟩ := h.2.2 hc
    exact ⟨i, lt_of_lt_of_le hi hbd, hidx⟩

@[simp] theorem require_true (c : FailClass) (s : State) : require true c s = .go () s := rfl

@[simp] theorem require_false (c : FailClass) (s : State) :
    require false c s = .stop c noIndex s := rfl

theorem require_within (k b : Nat) (test : Bool) {c : FailClass} (hc : c ≠ .pulseMismatch) (s : State) :
    (require test c s).Within k b s := by
  cases test
  · exact ⟨.refl k s, fun _ => rfl, fun h => absurd h hc⟩
  · exact .refl k s

/-- A line that fails only as a mismatch. -/
def Flow.Mismatches {α : Type} (f : Flow α) : Prop :=
  ∀ c idx t, f = .stop c idx t → c = .pulseMismatch

theorem Flow.Mismatches.andThen {α β : Type} {f : Flow α} {g : α → State → Flow β} (hf : f.Mismatches)
    (hg : ∀ a t, (g a t).Mismatches) : (f.andThen g).Mismatches := by
  cases f with
  | go a t => exact hg a t
  | stop c idx t =>
    intro c' idx' t' h
    obtain rfl : c = c' := by simpa using (Flow.stop.inj h).1
    exact hf c idx t rfl

theorem matchCell_mismatches (test : Nat → Bool) (i : Nat) (s : State) :
    (matchCell test i s).Mismatches := by
  intro c idx t h
  unfold matchCell at h
  split at h
  · simp at h
  · exact (Flow.stop.inj h).1.symm

/-- A test of one cell leaves the buffers alone. -/
theorem matchCell_mem {test : Nat → Bool} {i : Nat} {s t : State} {a : Unit}
    (h : matchCell test i s = .go a t) : t.mem = s.mem := by
  unfold matchCell at h
  split at h
  · rw [← (Flow.go.inj h).2, State.loadRaw_mem]
  · simp at h

/-- A guard that lets the command go on has held. -/
theorem require_eq_go {test : Bool} {c : FailClass} {s t : State} {a : Unit}
    (h : require test c s = .go a t) : test = true ∧ t = s := by
  cases test
  · simp at h
  · simp only [require_true, Flow.go.injEq] at h
    exact ⟨rfl, h.2.symm⟩

theorem matchCell_within {k b i : Nat} (hi : i < b) (test : Nat → Bool) (s : State) :
    (matchCell test i s).Within k b s := by
  unfold matchCell
  split
  · exact State.loadRaw_touched k i s
  · exact ⟨State.loadRaw_touched k i s, fun h => absurd rfl h, fun _ => ⟨i, hi, rfl⟩⟩

/-- The test of a written cell reads its value and changes nothing. -/
theorem matchCell_of_written {s : State} {i : Nat} (h : s.mem.rawCell i ≠ none) (test : Nat → Bool) :
    matchCell test i s =
      if test (s.cellValue i) then .go () s else .stop .pulseMismatch (cellIndex i) s := by
  simp [matchCell, State.loadRaw_of_written h]

/-- A guard fails only in its own class. -/
theorem require_eq_stop {test : Bool} {c d : FailClass} {s t : State} {idx : Half}
    (h : require test c s = .stop d idx t) : d = c ∧ test = false := by
  cases test <;> simp at h
  exact ⟨h.1.symm, rfl⟩

/-- A sequence fails exactly where one of its parts does. -/
theorem Flow.andThen_eq_stop {α β : Type} {f : Flow α} {k : α → State → Flow β} {c : FailClass}
    {idx : Half} {t : State} :
    f.andThen k = .stop c idx t ↔ f = .stop c idx t ∨ ∃ a s, f = .go a s ∧ k a s = .stop c idx t := by
  cases f <;> simp [Flow.andThen]

/-- A test of a written cell that lets the command go on has held of its value. -/
theorem matchCell_eq_go {test : Nat → Bool} {i : Nat} {s t : State} {a : Unit}
    (hw : s.mem.rawCell i ≠ none) (h : matchCell test i s = .go a t) :
    test (s.cellValue i) = true ∧ t = s := by
  rw [matchCell_of_written hw] at h
  split at h
  · exact ⟨‹_›, by simpa using h.symm⟩
  · simp at h

/-- A command whose lines touch no byte of `STATE` changes only `STATUS`, `FAILIDX` and free values. -/
theorem Flow.Within.close_frame {α : Type} {b : Nat} {s : State} {f : Flow α} (h : f.Within 0 b s) :
    f.close = { s with
      status := f.close.status, failidx := f.close.failidx, fresh := f.close.fresh,
      mem := { s.mem with stateBuf := f.close.mem.stateBuf } } ∧
    (∀ j, f.close.mem.stateByte j = s.mem.stateByte j) ∧
    f.close.status.lockerr = s.status.lockerr := by
  cases f with
  | go a t =>
    have h : Touched 0 s t := h
    refine ⟨?_, fun j => h.bytes j (Nat.zero_le _), by simp [h.status]⟩
    have hf := h.frame
    rw [Flow.close_go]
    generalize t.mem.stateBuf = buf at hf
    generalize t.fresh = drawn at hf
    subst hf
    rfl
  | stop c idx t =>
    have h : Touched 0 s t := h.1
    refine ⟨?_, fun j => h.bytes j (Nat.zero_le _), by simp [h.status]⟩
    have hf := h.frame
    rw [Flow.close_stop]
    generalize t.mem.stateBuf = buf at hf
    generalize t.fresh = drawn at hf
    subst hf
    rfl

end Sys2Proof.Machine
end

