-- ==== Sys2Proof/Laws/DecodeCmd.lean ====
section
/-! SUPPORT. What the stages of DECODE do: their frame in every case, and their result where the cells they
read have been written. -/

namespace Sys2Proof.Machine

/-! ### The frame of each stage -/

theorem preHeader_within {k b i : Nat} (hi : i + 1 < b) (s : State) :
    (preHeader i s).Within k b s :=
  (matchCell_within (by omega) _ s).andThen fun _ t _ _ => matchCell_within hi _ t

theorem bitSpace_within {k b i : Nat} (hi : i < b) (s : State) : (bitSpace i s).Within k b s := by
  have h1 := State.loadRaw_touched k i s
  have h2 := State.loadRaw_touched k i (s.loadRaw i).2
  unfold bitSpace
  dsimp only
  split
  · exact h1
  · split
    · exact h1.trans h2
    · exact ⟨h1.trans h2, fun h => absurd rfl h, fun _ => ⟨i, hi, rfl⟩⟩

theorem dataBit_within {k b i : Nat} (hi : i + 1 < b) (s : State) : (dataBit i s).Within k b s :=
  (matchCell_within (by omega) _ s).andThen fun _ t _ _ => bitSpace_within hi t

theorem dataByte_within {k b : Nat} (rem pos : Nat) (acc : Byte) (i : Nat) (hi : i + 2 * rem ≤ b)
    (s : State) : (dataByte rem pos acc i s).Within k b s := by
  induction rem generalizing pos acc i s with
  | zero => exact .refl k s
  | succ rem ih =>
    exact (dataBit_within (by omega) s).andThen fun _ t _ _ => ih _ _ _ (by omega) t

theorem dataBytes_within {k b : Nat} (rem j i : Nat) (hj : j + rem ≤ k) (hi : i + 16 * rem ≤ b)
    (s : State) : (dataBytes rem j i s).Within k b s := by
  induction rem generalizing j i s with
  | zero => exact .refl k s
  | succ rem ih =>
    refine (dataByte_within 8 0 0 i (by omega) s).andThen fun acc t _ _ => ?_
    have hst := Touched.storeByte (k := k) (j := j) (by omega) acc t
    have := ih (j + 1) (i + 16) (by omega) (by omega) (t.storeByte j acc)
    cases hd : dataBytes rem (j + 1) (i + 16) (t.storeByte j acc) with
    | go a u => rw [hd] at this; exact hst.trans this
    | stop c idx u => rw [hd] at this; exact ⟨hst.trans this.1, this.2⟩

theorem footer_within {k b i : Nat} (hi : i + 1 < b) (s : State) : (footer i s).Within k b s :=
  (matchCell_within (by omega) _ s).andThen fun _ t _ _ => matchCell_within hi _ t

theorem preHeader_mem {i : Nat} {s t : State} {a : Unit} (h : preHeader i s = .go a t) :
    t.mem = s.mem := by
  obtain ⟨_, u, h1, h2⟩ := Flow.andThen_eq_go.1 h
  exact (matchCell_mem h2).trans (matchCell_mem h1)

theorem preHeader_mismatches (i : Nat) (s : State) : (preHeader i s).Mismatches :=
  (matchCell_mismatches _ i s).andThen fun _ t => matchCell_mismatches _ _ t

theorem dataBit_mismatches (i : Nat) (s : State) : (dataBit i s).Mismatches := by
  refine (matchCell_mismatches _ i s).andThen fun _ t => ?_
  intro c idx u h
  unfold bitSpace at h
  dsimp only at h
  split at h
  · simp at h
  · split at h
    · simp at h
    · exact (Flow.stop.inj h).1.symm

theorem dataByte_mismatches (rem k : Nat) (acc : Byte) (i : Nat) (s : State) :
    (dataByte rem k acc i s).Mismatches := by
  induction rem generalizing k acc i s with
  | zero => intro c idx t h; simp [dataByte] at h
  | succ rem ih => exact (dataBit_mismatches i s).andThen fun _ t => ih _ _ _ t

theorem dataBytes_mismatches (rem j i : Nat) (s : State) : (dataBytes rem j i s).Mismatches := by
  induction rem generalizing j i s with
  | zero => intro c idx t h; simp [dataBytes] at h
  | succ rem ih => exact (dataByte_mismatches 8 0 0 i s).andThen fun _ t => ih _ _ _

theorem footer_mismatches (i : Nat) (s : State) : (footer i s).Mismatches :=
  (matchCell_mismatches _ i s).andThen fun _ t => matchCell_mismatches _ _ t

/-! ### Cells that have been written -/

theorem State.written.cell {s : State} {a b i : Nat} (h : s.written a b) (hi : a ≤ i ∧ i < b) :
    s.mem.rawCell i ≠ none := h i hi.1 hi.2

theorem Touched.written {k : Nat} {s t : State} (h : Touched k s t) {a b : Nat} :
    t.written a b ↔ s.written a b := by
  simp [State.written, h.rawCell]

theorem Touched.cellValue {k : Nat} {s t : State} (h : Touched k s t) (i : Nat) :
    t.cellValue i = s.cellValue i := by
  rw [State.cellValue, State.cellValue, h.rawCell]

/-- The header cells, written and aligned, let the command go on. -/
theorem preHeader_aligned {s : State} (hw : s.written s.offset.toNat (s.offset.toNat + 2))
    (h : s.headerAligned) : preHeader s.offset.toNat s = .go () s := by
  have h0 := hw.cell (i := s.offset.toNat) (by omega)
  have h1 := hw.cell (i := s.offset.toNat + 1) (by omega)
  simp [preHeader, matchCell_of_written h0, matchCell_of_written h1, h.1, h.2]

/-- A written data bit that aligns has the value of its space cell. -/
theorem dataBit_aligned {s : State} {i : Nat} (h0 : s.mem.rawCell i ≠ none)
    (h1 : s.mem.rawCell (i + 1) ≠ none)
    (hm : matchMark s.cfg.tol (s.cellValue i) s.cfg.bitMark = true)
    (hs : matchSpace s.cfg.tol (s.cellValue (i + 1)) s.cfg.oneSpace = true ∨
      matchSpace s.cfg.tol (s.cellValue (i + 1)) s.cfg.zeroSpace = true) :
    dataBit i s = .go (matchSpace s.cfg.tol (s.cellValue (i + 1)) s.cfg.oneSpace) s := by
  simp only [dataBit, matchCell_of_written h0, hm, if_true, Flow.go_andThen, bitSpace,
    State.loadRaw_of_written h1]
  cases hone : matchSpace s.cfg.tol (s.cellValue (i + 1)) s.cfg.oneSpace with
  | true => simp
  | false => simp [hs.resolve_left (by simp [hone])]

/-- A written mark cell that does not align fails at its index. -/
theorem dataBit_mark_fails {s : State} {i : Nat} (h0 : s.mem.rawCell i ≠ none)
    (hm : matchMark s.cfg.tol (s.cellValue i) s.cfg.bitMark = false) :
    dataBit i s = .stop .pulseMismatch (cellIndex i) s := by
  simp [dataBit, matchCell_of_written h0, hm]

/-- A written space cell in neither window fails at its index. -/
theorem dataBit_space_fails {s : State} {i : Nat} (h0 : s.mem.rawCell i ≠ none)
    (h1 : s.mem.rawCell (i + 1) ≠ none)
    (hm : matchMark s.cfg.tol (s.cellValue i) s.cfg.bitMark = true)
    (hone : matchSpace s.cfg.tol (s.cellValue (i + 1)) s.cfg.oneSpace = false)
    (hzero : matchSpace s.cfg.tol (s.cellValue (i + 1)) s.cfg.zeroSpace = false) :
    dataBit i s = .stop .pulseMismatch (cellIndex (i + 1)) s := by
  simp [dataBit, matchCell_of_written h0, hm, bitSpace, State.loadRaw_of_written h1, hone, hzero]

/-- The accumulator after `rem` more bits. -/
def packFrom (lsbFirst : Bool) : (rem k : Nat) → Byte → (Nat → Bool) → Byte
  | 0, _, acc, _ => acc
  | rem + 1, k, acc, bit =>
    packFrom lsbFirst rem (k + 1) (packBit lsbFirst k acc (bit 0)) fun t => bit (t + 1)

/-- Eight packed bits stand where spec/20_memory.md R63 says. -/
theorem packFrom_eq_packedByte (lsbFirst : Bool) (bit : Nat → Bool) (j : Nat) :
    packFrom lsbFirst 8 0 0 (fun t => bit (8 * j + t)) = packedByte lsbFirst bit j := by
  have key : ∀ l b0 b1 b2 b3 b4 b5 b6 b7 : Bool,
      packFrom l 8 0 0 (fun t => [b0, b1, b2, b3, b4, b5, b6, b7].getD t false) =
        packedByte l (fun t => [b0, b1, b2, b3, b4, b5, b6, b7].getD t false) 0 := by
    decide +kernel
  have := key lsbFirst (bit (8 * j)) (bit (8 * j + 1)) (bit (8 * j + 2)) (bit (8 * j + 3))
    (bit (8 * j + 4)) (bit (8 * j + 5)) (bit (8 * j + 6)) (bit (8 * j + 7))
  simpa [packFrom, packedByte, List.range_succ] using this

/-- The arrival bits from the cell pair at `i` on. -/
def State.bitsFrom (s : State) (i t : Nat) : Bool :=
  matchSpace s.cfg.tol (s.cellValue (i + 1 + 2 * t)) s.cfg.oneSpace

/-- The cell pair at `i` is written and aligns as a data bit. -/
structure State.PairAligned (s : State) (i : Nat) : Prop where
  markWritten : s.mem.rawCell i ≠ none
  spaceWritten : s.mem.rawCell (i + 1) ≠ none
  mark : matchMark s.cfg.tol (s.cellValue i) s.cfg.bitMark = true
  space : matchSpace s.cfg.tol (s.cellValue (i + 1)) s.cfg.oneSpace = true ∨
    matchSpace s.cfg.tol (s.cellValue (i + 1)) s.cfg.zeroSpace = true

/-- The cell pair at `i` fails as a data bit, at cell `f`. -/
inductive State.PairFails (s : State) (i : Nat) : Nat → Prop
  | mark (h0 : s.mem.rawCell i ≠ none)
      (hm : matchMark s.cfg.tol (s.cellValue i) s.cfg.bitMark = false) : s.PairFails i i
  | space (h0 : s.mem.rawCell i ≠ none) (h1 : s.mem.rawCell (i + 1) ≠ none)
      (hm : matchMark s.cfg.tol (s.cellValue i) s.cfg.bitMark = true)
      (hone : matchSpace s.cfg.tol (s.cellValue (i + 1)) s.cfg.oneSpace = false)
      (hzero : matchSpace s.cfg.tol (s.cellValue (i + 1)) s.cfg.zeroSpace = false) :
      s.PairFails i (i + 1)

theorem State.PairAligned.dataBit {s : State} {i : Nat} (h : s.PairAligned i) :
    dataBit i s = .go (s.bitsFrom i 0) s :=
  dataBit_aligned h.markWritten h.spaceWritten h.mark h.space

theorem State.PairFails.dataBit {s : State} {i f : Nat} (h : s.PairFails i f) :
    dataBit i s = .stop .pulseMismatch (cellIndex f) s := by
  cases h with
  | mark h0 hm => exact dataBit_mark_fails h0 hm
  | space h0 h1 hm hone hzero => exact dataBit_space_fails h0 h1 hm hone hzero

theorem State.bitsFrom_succ (s : State) (i t : Nat) : s.bitsFrom i (t + 1) = s.bitsFrom (i + 2) t := by
  simp only [State.bitsFrom]
  congr 2
  omega

theorem dataByte_aligned (rem k : Nat) (acc : Byte) (i : Nat) {s : State}
    (h : ∀ t, t < rem → s.PairAligned (i + 2 * t)) :
    dataByte rem k acc i s = .go (packFrom s.cfg.lsbFirst rem k acc (s.bitsFrom i)) s := by
  induction rem generalizing k acc i with
  | zero => rfl
  | succ rem ih =>
    have h0 : s.PairAligned i := h 0 (by omega)
    have hrest : ∀ t, t < rem → s.PairAligned (i + 2 + 2 * t) := fun t ht => by
      have := h (t + 1) (by omega)
      rwa [show i + 2 * (t + 1) = i + 2 + 2 * t by omega] at this
    simp only [dataByte, h0.dataBit, Flow.go_andThen, ih _ _ _ hrest, packFrom, State.bitsFrom_succ]

theorem dataByte_fails (rem k : Nat) (acc : Byte) (i : Nat) {s : State} {t f : Nat} (ht : t < rem)
    (h : ∀ u, u < t → s.PairAligned (i + 2 * u)) (hf : s.PairFails (i + 2 * t) f) :
    dataByte rem k acc i s = .stop .pulseMismatch (cellIndex f) s := by
  induction rem generalizing k acc i t with
  | zero => omega
  | succ rem ih =>
    cases t with
    | zero =>
      rw [Nat.mul_zero, Nat.add_zero] at hf
      simp only [dataByte, hf.dataBit, Flow.stop_andThen]
    | succ t =>
      have h0 : s.PairAligned i := h 0 (by omega)
      have hrest : ∀ u, u < t → s.PairAligned (i + 2 + 2 * u) := fun u hu => by
        have := h (u + 1) (by omega)
        rwa [show i + 2 * (u + 1) = i + 2 + 2 * u by omega] at this
      rw [show i + 2 * (t + 1) = i + 2 + 2 * t by omega] at hf
      simp only [dataByte, h0.dataBit, Flow.go_andThen, ih _ _ _ (by omega) hrest hf]

/-- The bytes `bs` stored from byte `j` on. -/
def State.storeBytes : List Byte → Nat → State → State
  | [], _, s => s
  | b :: bs, j, s => State.storeBytes bs (j + 1) (s.storeByte j b)

theorem State.storeBytes_touched (bs : List Byte) {k : Nat} (j : Nat) (hk : j + bs.length ≤ k) (s : State) :
    Touched k s (s.storeBytes bs j) := by
  induction bs generalizing j s with
  | nil => exact .refl k s
  | cons b bs ih =>
    simp only [List.length_cons] at hk
    exact (Touched.storeByte (by omega) b s).trans (ih (j + 1) (by omega) _)

/-- Storing draws no free value. -/
theorem State.storeBytes_fresh (bs : List Byte) (j : Nat) (s : State) :
    (s.storeBytes bs j).fresh = s.fresh := by
  induction bs generalizing j s with
  | nil => rfl
  | cons b bs ih => exact ih (j + 1) _

theorem State.storeBytes_stateByte_lt (bs : List Byte) {j l : Nat} (hl : l < j) (s : State) :
    (s.storeBytes bs j).mem.stateByte l = s.mem.stateByte l := by
  induction bs generalizing j s with
  | nil => rfl
  | cons b bs ih =>
    rw [State.storeBytes, ih (by omega)]
    exact Memory.stateByte_setStateByte_ne (by omega) _ _

/-- What the stored bytes read as. -/
theorem State.storeBytes_stateByte (bs : List Byte) {j l : Nat} (hl : l < bs.length) {s : State}
    (hwf : s.mem.wf = true) : (s.storeBytes bs j).mem.stateByte (j + l) = bs[l] := by
  induction bs generalizing j l s with
  | nil => simp at hl
  | cons b bs ih =>
    rw [State.storeBytes]
    cases l with
    | zero =>
      rw [State.storeBytes_stateByte_lt bs (by omega)]
      exact Memory.stateByte_setStateByte_self hwf j b
    | succ l =>
      have hl' : l < bs.length := by simpa using hl
      have := ih (j := j + 1) hl' (s := s.storeByte j b) (Memory.wf_setStateByte hwf j b)
      rw [show j + (l + 1) = j + 1 + l by omega, this, List.getElem_cons_succ]

theorem Touched.pairAligned {k : Nat} {s t : State} (h : Touched k s t) {i : Nat} :
    t.PairAligned i ↔ s.PairAligned i := by
  have key : ∀ {u v : State}, (∀ i, v.mem.rawCell i = u.mem.rawCell i) → v.cfg = u.cfg →
      u.PairAligned i → v.PairAligned i := by
    intro u v hraw hcfg hu
    have hval : ∀ i, v.cellValue i = u.cellValue i := fun i => by
      rw [State.cellValue, State.cellValue, hraw]
    exact ⟨by rw [hraw]; exact hu.markWritten, by rw [hraw]; exact hu.spaceWritten,
      by rw [hval, hcfg]; exact hu.mark, by rw [hval, hcfg]; exact hu.space⟩
  exact ⟨key (fun i => (h.rawCell i).symm) h.cfg.symm, key h.rawCell h.cfg⟩

theorem Touched.pairFails {k : Nat} {s t : State} (h : Touched k s t) {i f : Nat}
    (hf : s.PairFails i f) : t.PairFails i f := by
  cases hf with
  | mark h0 hm =>
    exact .mark (by simpa [h.rawCell] using h0) (by simpa [h.cellValue, h.cfg] using hm)
  | space h0 h1 hm hone hzero =>
    exact .space (by simpa [h.rawCell] using h0) (by simpa [h.rawCell] using h1)
      (by simpa [h.cellValue, h.cfg] using hm) (by simpa [h.cellValue, h.cfg] using hone)
      (by simpa [h.cellValue, h.cfg] using hzero)

theorem Touched.bitsFrom {k : Nat} {s t : State} (h : Touched k s t) (i : Nat) :
    t.bitsFrom i = s.bitsFrom i := by
  funext u
  simp [State.bitsFrom, h.cellValue, h.cfg]

/-- The `rem` bytes whose arrival bits start at the cell pair `i`. -/
def State.bytesFrom (s : State) (i rem : Nat) : List Byte :=
  (List.range rem).map (packedByte s.cfg.lsbFirst (s.bitsFrom i))

theorem Touched.bytesFrom {k : Nat} {s t : State} (h : Touched k s t) (i rem : Nat) :
    t.bytesFrom i rem = s.bytesFrom i rem := by
  simp [State.bytesFrom, h.bitsFrom, h.cfg]

theorem packedByte_shift (l : Bool) (bit : Nat → Bool) (j : Nat) :
    packedByte l (fun t => bit (8 + t)) j = packedByte l bit (j + 1) := by
  simp only [packedByte]
  congr 2
  apply List.map_congr_left
  intro k _
  simp only [show 8 + (8 * j + k) = 8 * (j + 1) + k by omega]

theorem State.bytesFrom_succ (s : State) (i rem : Nat) :
    s.bytesFrom i (rem + 1) =
      packFrom s.cfg.lsbFirst 8 0 0 (s.bitsFrom i) :: s.bytesFrom (i + 16) rem := by
  have h0 := packFrom_eq_packedByte s.cfg.lsbFirst (s.bitsFrom i) 0
  simp only [Nat.mul_zero, Nat.zero_add] at h0
  have hshift : s.bitsFrom (i + 16) = fun t => s.bitsFrom i (8 + t) := by
    funext t
    simp only [State.bitsFrom]
    congr 2
    omega
  simp only [State.bytesFrom, List.range_succ_eq_map, List.map_cons, List.map_map]
  rw [h0, hshift]
  congr 1
  apply List.map_congr_left
  intro j _
  exact (packedByte_shift _ _ j).symm

/-- Written data bits that align are stored, byte by byte. -/
theorem dataBytes_aligned (rem j i : Nat) {s : State}
    (h : ∀ t, t < 8 * rem → s.PairAligned (i + 2 * t)) :
    dataBytes rem j i s = .go () (s.storeBytes (s.bytesFrom i rem) j) := by
  induction rem generalizing j i s with
  | zero => rfl
  | succ rem ih =>
    have h8 : ∀ t, t < 8 → s.PairAligned (i + 2 * t) := fun t ht => h t (by omega)
    rw [dataBytes, dataByte_aligned 8 0 0 i h8, Flow.go_andThen, State.bytesFrom_succ,
      State.storeBytes]
    have hst := Touched.storeByte (Nat.lt_succ_self j)
      (packFrom s.cfg.lsbFirst 8 0 0 (s.bitsFrom i)) s
    rw [ih (j + 1) (i + 16), hst.bytesFrom]
    intro t ht
    rw [hst.pairAligned, show i + 16 + 2 * t = i + 2 * (t + 8) by omega]
    exact h (t + 8) (by omega)

/-- A data bit that does not align: the bytes before its byte have been stored, and no other. -/
theorem dataBytes_fails (rem j i : Nat) {s : State} {t f : Nat} (ht : t < 8 * rem)
    (h : ∀ u, u < t → s.PairAligned (i + 2 * u)) (hf : s.PairFails (i + 2 * t) f) :
    dataBytes rem j i s =
      .stop .pulseMismatch (cellIndex f) (s.storeBytes (s.bytesFrom i (t / 8)) j) := by
  induction rem generalizing j i s t with
  | zero => omega
  | succ rem ih =>
    by_cases ht8 : t < 8
    · rw [dataBytes, dataByte_fails 8 0 0 i ht8 h hf, Flow.stop_andThen,
        Nat.div_eq_of_lt ht8]
      rfl
    · have h8 : ∀ u, u < 8 → s.PairAligned (i + 2 * u) := fun u hu => h u (by omega)
      rw [dataBytes, dataByte_aligned 8 0 0 i h8, Flow.go_andThen]
      have hst := Touched.storeByte (Nat.lt_succ_self j)
        (packFrom s.cfg.lsbFirst 8 0 0 (s.bitsFrom i)) s
      have hstep : t / 8 = (t - 8) / 8 + 1 := by omega
      rw [hstep, State.bytesFrom_succ, State.storeBytes, ← hst.bytesFrom (i + 16)]
      refine ih (j + 1) (i + 16) (t := t - 8) (by omega) (fun u hu => ?_) ?_
      · rw [hst.pairAligned, show i + 16 + 2 * u = i + 2 * (u + 8) by omega]
        exact h (u + 8) (by omega)
      · apply hst.pairFails
        rwa [show i + 16 + 2 * (t - 8) = i + 2 * t by omega]

/-- The footer cells, written: mark first, then gap. -/
theorem footer_of_written {s : State} {i : Nat} (h0 : s.mem.rawCell i ≠ none)
    (h1 : s.mem.rawCell (i + 1) ≠ none) :
    footer i s =
      if matchMark s.cfg.tol (s.cellValue i) s.cfg.bitMark then
        if matchAtLeast s.cfg.tol (s.cellValue (i + 1)) s.cfg.gap then .go () s
        else .stop .pulseMismatch (cellIndex (i + 1)) s
      else .stop .pulseMismatch (cellIndex i) s := by
  rw [footer, matchCell_of_written h0]
  split
  · rw [Flow.go_andThen, matchCell_of_written h1]
  · rfl

/-! ### The whole command -/

/-- DECODE, whatever it meets, changes nothing but bytes of `STATE` below `n div 8`, which all exist, free
values and, on success, the result registers; a failure of it carries an index exactly when it is a mismatch,
and then one below `RAWLEN`; it is a checksum failure only where the command is strict, has the protocol's bit
count and leaves bytes whose checksum does not hold. -/
theorem decodeSteps_outcome (strict : Bool) (n : Nat) (s : State) :
    (∃ t, decodeSteps strict n s = .go () (t.storeResult n) ∧ Touched (n / 8) s t ∧
        bitsAdmissible s.cfg n = true ∧ (strict = true → n = s.cfg.bits ∧ t.checksumHolds = true)) ∨
    (∃ c idx t, decodeSteps strict n s = .stop c idx t ∧ Touched (min (n / 8) s.cfg.stateCap) s t ∧
        (c ≠ .pulseMismatch → idx = noIndex) ∧
        (c = .pulseMismatch → ∃ i, i < s.rawlen.toNat ∧ idx = cellIndex i) ∧
        (c ≠ .pulseMismatch → c ≠ .checksum → t.mem = s.mem) ∧
        (c = .checksum → strict = true ∧ n = s.cfg.bits ∧ t.checksumHolds = false)) := by
  unfold decodeSteps
  dsimp only
  by_cases h1 : 2 * ((n : Int) + 1) ≤ s.avail
  swap
  · exact .inr ⟨.tooShort, noIndex, s, by simp [h1], .refl _ s, by simp, by simp, fun _ _ => rfl, by simp⟩
  have hl1 : s.offset.toNat + 2 * (n + 1) ≤ s.rawlen.toNat := by
    unfold State.avail at h1; omega
  simp only [h1, decide_true, require_true, Flow.go_andThen]
  cases h2 : (!strict || decide (n = s.cfg.bits))
  · exact .inr ⟨.strictBits, noIndex, s, by simp, .refl _ s, by simp, by simp,
      fun _ _ => rfl, by simp⟩
  simp only [require_true, Flow.go_andThen]
  have hpre := preHeader_within (k := 0) (b := s.rawlen.toNat) (i := s.offset.toNat) (by omega) s
  cases hp : preHeader s.offset.toNat s with
  | stop c idx t =>
    rw [hp] at hpre
    exact .inr ⟨c, idx, t, by simp, hpre.1.mono (Nat.zero_le _), hpre.2.1, hpre.2.2,
      fun h _ => absurd (preHeader_mismatches _ _ c idx t hp) h,
      fun h => by simp [preHeader_mismatches _ _ c idx t hp] at h⟩
  | go a t =>
    rw [hp] at hpre
    have ht : Touched 0 s t := hpre
    simp only [Flow.go_andThen]
    cases hadm : bitsAdmissible t.cfg n
    · exact .inr ⟨.badNbits, noIndex, t, by simp, ht.mono (Nat.zero_le _), by simp, by simp,
        fun _ _ => preHeader_mem hp, by simp⟩
    have hadm' : bitsAdmissible s.cfg n = true := by rw [← ht.cfg]; exact hadm
    have hmin : min (n / 8) s.cfg.stateCap = n / 8 := by
      simp only [bitsAdmissible, Bool.and_eq_true, decide_eq_true_eq] at hadm'
      omega
    rw [hmin]
    simp only [require_true, Flow.go_andThen]
    by_cases h3 : 2 * (n : Int) + 4 ≤ t.avail
    swap
    · exact .inr ⟨.tooShort, noIndex, t, by simp [h3], ht.mono (Nat.zero_le _), by simp, by simp,
        fun _ _ => preHeader_mem hp, by simp⟩
    have hl2 : s.offset.toNat + (2 * n + 4) ≤ s.rawlen.toNat := by
      rw [ht.avail] at h3; unfold State.avail at h3; omega
    simp only [h3, decide_true, require_true, Flow.go_andThen]
    have hdata : (dataBytes (n / 8) 0 (s.offset.toNat + 2) t).Within (n / 8) s.rawlen.toNat t :=
      dataBytes_within _ _ _ (by omega) (by omega) t
    have ht' : Touched (n / 8) s t := ht.mono (Nat.zero_le _)
    cases hd : dataBytes (n / 8) 0 (s.offset.toNat + 2) t with
    | stop c idx u =>
      rw [hd] at hdata
      exact .inr ⟨c, idx, u, by simp, ht'.trans hdata.1, hdata.2.1, hdata.2.2,
        fun h _ => absurd (dataBytes_mismatches _ _ _ _ c idx u hd) h,
        fun h => by simp [dataBytes_mismatches _ _ _ _ c idx u hd] at h⟩
    | go a u =>
      rw [hd] at hdata
      have hu : Touched (n / 8) s u := ht'.trans hdata
      simp only [Flow.go_andThen]
      have hfoot : (footer (s.offset.toNat + 2 + 2 * n) u).Within (n / 8) s.rawlen.toNat u :=
        footer_within (by omega) u
      cases hf : footer (s.offset.toNat + 2 + 2 * n) u with
      | stop c idx v =>
        rw [hf] at hfoot
        exact .inr ⟨c, idx, v, by simp, hu.trans hfoot.1, hfoot.2.1, hfoot.2.2,
          fun h _ => absurd (footer_mismatches _ _ c idx v hf) h,
          fun h => by simp [footer_mismatches _ _ c idx v hf] at h⟩
      | go a v =>
        rw [hf] at hfoot
        have hv : Touched (n / 8) s v := hu.trans hfoot
        simp only [Flow.go_andThen]
        cases h4 : (!strict || v.checksumHolds)
        · refine .inr ⟨.checksum, noIndex, v, by simp, hv, by simp, by simp,
            fun _ h => absurd rfl h, fun _ => ?_⟩
          simp only [Bool.or_eq_false_iff, Bool.not_eq_false'] at h4
          simp only [h4.1, Bool.not_true, Bool.false_or, decide_eq_true_eq] at h2
          exact ⟨h4.1, h2, h4.2⟩
        · refine .inl ⟨v, by simp, hv, hadm', fun hs => ?_⟩
          simp only [hs, Bool.not_true, Bool.false_or, decide_eq_true_eq] at h2 h4
          exact ⟨h2, h4⟩

/-! ### The whole command, where its cells have been written -/

theorem execDecode_eq (strict : Bool) (n : Nat) (s : State) :
    execDecode strict n s = .next (decodeSteps strict n s.noResult).close := rfl

/-- Where the length and the bit count pass, DECODE reaches its header (R132, R133). -/
theorem decodeSteps_to_header {strict : Bool} {n : Nat} {s : State}
    (hl : s.offset.toNat + 2 * (n + 1) ≤ s.rawlen.toNat) (hs : strict = true → n = s.cfg.bits) :
    decodeSteps strict n s = (preHeader s.offset.toNat s).andThen fun _ s' =>
      (require (bitsAdmissible s'.cfg n) .badNbits s').andThen fun _ s' =>
      (require (decide (2 * (n : Int) + 4 ≤ s'.avail)) .tooShort s').andThen fun _ s' =>
      (dataBytes (n / 8) 0 (s.offset.toNat + 2) s').andThen fun _ s' =>
      (footer (s.offset.toNat + 2 + 2 * n) s').andThen fun _ s' =>
      (require (!strict || s'.checksumHolds) .checksum s').andThen fun _ s' =>
      .go () (s'.storeResult n) := by
  have h1 : 2 * ((n : Int) + 1) ≤ s.avail := by unfold State.avail; omega
  have h2 : (!strict || decide (n = s.cfg.bits)) = true := by
    cases strict
    · rfl
    · simpa using hs rfl
  unfold decodeSteps
  simp only [h1, h2, decide_true, require_true, Flow.go_andThen]

/-- Where everything before the data bits passes, DECODE reaches them. -/
theorem State.AlignedTo.decodeSteps {strict : Bool} {n b : Nat} {s : State} (h : s.AlignedTo strict n b) :
    decodeSteps strict n s = (dataBytes (n / 8) 0 (s.offset.toNat + 2) s).andThen fun _ s' =>
      (footer (s.offset.toNat + 2 + 2 * n) s').andThen fun _ s' =>
      (require (!strict || s'.checksumHolds) .checksum s').andThen fun _ s' =>
      .go () (s'.storeResult n) := by
  have hl := h.length
  have h3 : bitsAdmissible s.cfg n = true := by
    simp [bitsAdmissible, h.nonzero, h.wholeBytes, h.fits]
  have h4 : 2 * (n : Int) + 4 ≤ s.avail := by unfold State.avail; omega
  have h5 : preHeader s.offset.toNat s = .go () s :=
    preHeader_aligned (fun i hi hj => h.cells i hi (by omega)) h.header
  rw [decodeSteps_to_header (by omega) h.strictBits, h5]
  simp only [h3, h4, decide_true, require_true, Flow.go_andThen]

/-- Clearing the result registers changes nothing that aligns. -/
theorem State.AlignedTo.noResult {strict : Bool} {n b : Nat} {s : State} (h : s.AlignedTo strict n b) :
    s.noResult.AlignedTo strict n b :=
  ⟨h.length, h.strictBits, h.header, h.nonzero, h.wholeBytes, h.fits, h.cells, h.marks, h.spaces⟩

theorem State.AlignedTo.pair {strict : Bool} {n b : Nat} {s : State} (h : s.AlignedTo strict n b) {t : Nat}
    (ht : t < b) : s.PairAligned (s.offset.toNat + 2 + 2 * t) :=
  ⟨h.cells _ (by omega) (by omega), h.cells _ (by omega) (by omega), h.marks t ht, by
    rw [show s.offset.toNat + 2 + 2 * t + 1 = s.offset.toNat + 3 + 2 * t by omega]
    exact h.spaces t ht⟩

theorem State.noResult_loadRaw (i : Nat) (s : State) :
    s.noResult.loadRaw i = ((s.loadRaw i).1, (s.loadRaw i).2.noResult) := by
  unfold State.loadRaw
  show (match s.mem.rawCell i with | some v => _ | none => _) = _
  cases s.mem.rawCell i <;> rfl

theorem State.headerRead_touched (s : State) : Touched 0 s s.headerRead :=
  (State.loadRaw_touched 0 _ s).trans (State.loadRaw_touched 0 _ _)

/-- The header passes, whatever its two cells are (R134). -/
theorem preHeader_passes {s : State} (h : s.headerPasses) :
    preHeader s.offset.toNat s = .go () s.headerRead := by
  unfold preHeader matchCell
  rw [if_pos h.1, Flow.go_andThen, if_pos]
  · rfl
  · rw [State.loadRaw_cfg]
    exact h.2

/-- Storing bytes changes the memory and nothing else. -/
theorem State.storeBytes_eq (bs : List Byte) (j : Nat) (s : State) :
    s.storeBytes bs j = { s with mem := (s.storeBytes bs j).mem } := by
  have hf := (State.storeBytes_touched bs (k := j + bs.length) j le_rfl s).frame
  rw [State.storeBytes_fresh] at hf
  rw [hf]

theorem State.arrivedByte_eq (s : State) (j : Nat) :
    s.arrivedByte j = packedByte s.cfg.lsbFirst (s.bitsFrom (s.offset.toNat + 2)) j := by
  unfold State.arrivedByte
  congr 1

/-- Storing the bytes that arrived replaces exactly those bytes of `STATE` (R139). -/
theorem State.HoldsArrived.store {s : State} (hwf : s.mem.wf = true) (k : Nat) :
    s.HoldsArrived k (s.storeBytes (s.bytesFrom (s.offset.toNat + 2) k) 0).mem := by
  have hlen : (s.bytesFrom (s.offset.toNat + 2) k).length = k := by simp [State.bytesFrom]
  have h := State.storeBytes_touched (s.bytesFrom (s.offset.toNat + 2) k) (k := k) 0 (by omega) s
  refine ⟨h.wf hwf, h.raw, fun j hj => ?_, h.bytes⟩
  have := State.storeBytes_stateByte (j := 0) (s.bytesFrom (s.offset.toNat + 2) k) (l := j) (by omega) hwf
  rw [Nat.zero_add] at this
  rw [this, State.arrivedByte_eq]
  simp [State.bytesFrom]

theorem State.HoldsArrived.ofNoResult {s : State} {k : Nat} {m : Memory} (h : s.noResult.HoldsArrived k m) :
    s.HoldsArrived k m :=
  ⟨h.wf, h.raw, h.arrived, h.kept⟩

/-- Data bits that align, with written footer cells: the bytes that arrived are stored, and the footer and the
checksum decide (R139 to R143). -/
theorem State.AlignedTo.atFooter {strict : Bool} {n : Nat} {s : State} (hwf : s.mem.wf = true)
    (h : s.AlignedTo strict n n)
    (hw : s.written (s.offset.toNat + 2 + 2 * n) (s.offset.toNat + 4 + 2 * n)) :
    ∃ m, s.HoldsArrived (n / 8) m ∧ Machine.decodeSteps strict n s =
      if s.footerMarkAligned n then
        if s.footerGapAligned n then
          (require (!strict || ({ s with mem := m } : State).checksumHolds) .checksum
            { s with mem := m }).andThen fun _ s' => .go () (s'.storeResult n)
        else .stop .pulseMismatch (cellIndex (s.offset.toNat + 3 + 2 * n)) { s with mem := m }
      else .stop .pulseMismatch (cellIndex (s.offset.toNat + 2 + 2 * n)) { s with mem := m } := by
  have hm := State.HoldsArrived.store hwf (n / 8)
  have h8 := h.wholeBytes
  refine ⟨_, hm, ?_⟩
  rw [h.decodeSteps, dataBytes_aligned (n / 8) 0 _ (fun t ht => h.pair (by omega)), Flow.go_andThen,
    State.storeBytes_eq]
  generalize (State.storeBytes (s.bytesFrom (s.offset.toNat + 2) (n / 8)) 0 s).mem = m at hm
  have hcell : ∀ i, m.rawCell i = s.mem.rawCell i := fun i => by simp [Memory.rawCell, hm.raw]
  have hval : ∀ i, ({ s with mem := m } : State).cellValue i = s.cellValue i := fun i => by
    simp [State.cellValue, hcell]
  rw [footer_of_written (by show m.rawCell _ ≠ none; rw [hcell]; exact hw _ (by omega) (by omega))
    (by show m.rawCell _ ≠ none; rw [hcell]; exact hw _ (by omega) (by omega))]
  simp only [hval, show s.offset.toNat + 2 + 2 * n + 1 = s.offset.toNat + 3 + 2 * n by omega]
  by_cases h1 : s.footerMarkAligned n
  · rw [if_pos (by exact h1), if_pos h1]
    by_cases h2 : s.footerGapAligned n
    · rw [if_pos (by exact h2), if_pos h2]
      rfl
    · rw [if_neg (by exact h2), if_neg h2]
      rfl
  · rw [if_neg (by exact h1), if_neg h1]
    rfl

/-- The checksum over the bytes that arrived, where they are all the bytes it covers. -/
theorem State.HoldsArrived.checksum {n : Nat} {s : State} {m : Memory} (hl : s.cfg.stateLen = n / 8)
    (hm : s.HoldsArrived (n / 8) m) :
    ({ s with mem := m } : State).checksumHolds =
      checksumOk ((List.range s.cfg.stateLen).map s.arrivedByte) := by
  show checksumOk ((List.range s.cfg.stateLen).map m.stateByte) = _
  congr 1
  apply List.map_congr_left
  intro j hj
  exact hm.arrived j (by rw [← hl]; simpa using hj)

/-- Written data cells that let DECODE go on align, every pair of them. -/
theorem dataBytes_eq_go {rem j i : Nat} {s t : State} {a : Unit} (hw : s.written i (i + 16 * rem))
    (h : dataBytes rem j i s = .go a t) : ∀ u, u < 8 * rem → s.PairAligned (i + 2 * u) := by
  by_contra hcon
  have hex : ∃ u, u < 8 * rem ∧ ¬ s.PairAligned (i + 2 * u) := by simpa using hcon
  classical
  have hf := Nat.find_spec hex
  have hm : ∀ v, v < Nat.find hex → s.PairAligned (i + 2 * v) := by
    intro v hv
    by_contra hp
    exact Nat.find_min hex hv ⟨by omega, hp⟩
  generalize Nat.find hex = k at hf hm
  have w0 := hw (i + 2 * k) (by omega) (by omega)
  have w1 := hw (i + 2 * k + 1) (by omega) (by omega)
  obtain ⟨f, hpf⟩ : ∃ f, s.PairFails (i + 2 * k) f := by
    by_cases h1 : matchMark s.cfg.tol (s.cellValue (i + 2 * k)) s.cfg.bitMark = true
    · by_cases h2 : matchSpace s.cfg.tol (s.cellValue (i + 2 * k + 1)) s.cfg.oneSpace = true
      · exact absurd ⟨w0, w1, h1, .inl h2⟩ hf.2
      · by_cases h3 : matchSpace s.cfg.tol (s.cellValue (i + 2 * k + 1)) s.cfg.zeroSpace = true
        · exact absurd ⟨w0, w1, h1, .inr h3⟩ hf.2
        · exact ⟨_, .space w0 w1 h1 (by simpa using h2) (by simpa using h3)⟩
    · exact ⟨_, .mark w0 (by simpa using h1)⟩
  rw [dataBytes_fails rem j i hf.1 hm hpf] at h
  simp at h

/-- The protocol's own bit count can always be packed (R135). -/
theorem bitsAdmissible_bits (c : Config) : bitsAdmissible c c.bits = true := by
  have h1 := c.bits_bounds
  have h2 := c.stateLen_eq
  have h3 := c.stateCap_bounds
  have h4 : c.bits ≠ 0 := by omega
  have h5 : c.bits / 8 ≤ c.stateCap := by omega
  simp [bitsAdmissible, h1.1, h4, h5]

/-- Where a bit of a packed byte comes from (spec/20_memory.md R63). -/
theorem packedByte_bit (l : Bool) (bit : Nat → Bool) (j p : Nat) (hp : p < 8) :
    (packedByte l bit j).getLsbD p = bit (8 * j + (if l then p else 7 - p)) := by
  have key : ∀ l b0 b1 b2 b3 b4 b5 b6 b7 : Bool, ∀ p < 8,
      (packedByte l (fun t => [b0, b1, b2, b3, b4, b5, b6, b7].getD t false) 0).getLsbD p =
        [b0, b1, b2, b3, b4, b5, b6, b7].getD (if l then p else 7 - p) false := by
    decide +kernel
  have e : packedByte l bit j = packedByte l (fun t => [bit (8 * j), bit (8 * j + 1), bit (8 * j + 2),
      bit (8 * j + 3), bit (8 * j + 4), bit (8 * j + 5), bit (8 * j + 6), bit (8 * j + 7)].getD t false) 0 := by
    simp [packedByte, List.range_succ]
  rw [e, key l _ _ _ _ _ _ _ _ p hp]
  cases l <;> interval_cases p <;> simp

end Sys2Proof.Machine
end

