-- ==== Sys2Proof/Laws/EncodeCmd.lean ====
section
/-! SUPPORT. What ENCODE does: its two ends, the events of one transmission, and how the payload stands in the
bytes a receiver packs. -/

namespace Sys2Proof.Machine

/-- ENCODE succeeds or is turned away by its guard (R171, R172). -/
theorem execEncode_eq (n : Nat) (s : State) :
    execEncode n s = .next
      (if s.cfg.bits ≤ n then (s.emit (frames s.cfg s.data n (s.repeatCount.toNat + 1))).succeed
        else s.raiseFail .badEncode noIndex) := by
  unfold execEncode
  by_cases h : s.cfg.bits ≤ n <;> simp [h]

theorem bitEvents_length (c : Config) (bit : Nat → Bool) (l : List Nat) :
    (l.flatMap fun t => bitEvents c (bit t)).length = 2 * l.length := by
  induction l with
  | nil => rfl
  | cons a l ih => simp [bitEvents] at ih ⊢; omega

theorem bitEvents_get (c : Config) (bit : Nat → Bool) {n t : Nat} (h : t < n) :
    ((List.range n).flatMap fun t => bitEvents c (bit t))[2 * t]? = some ⟨.mark, c.bitMark⟩ ∧
    ((List.range n).flatMap fun t => bitEvents c (bit t))[2 * t + 1]? =
      some ⟨.space, if bit t then c.oneSpace else c.zeroSpace⟩ := by
  induction n with
  | zero => omega
  | succ n ih =>
    have hl := bitEvents_length c bit (List.range n)
    rw [List.length_range] at hl
    rw [List.range_succ, List.flatMap_append]
    by_cases ht : t < n
    · rw [List.getElem?_append_left (by omega), List.getElem?_append_left (by omega)]
      exact ih ht
    · obtain rfl : t = n := by omega
      rw [List.getElem?_append_right (by omega), List.getElem?_append_right (by omega), hl]
      simp [bitEvents]

/-- A transmission of `n` bits has `2n + 4` events (R180). -/
theorem frame_length (c : Config) (d : BitVec 64) (n : Nat) : (frame c d n).length = 2 * n + 4 := by
  unfold frame
  simp only [List.length_append, bitEvents_length]
  simp
  omega

/-- The events of one transmission, by their place in it (R172). -/
theorem frame_get (c : Config) (d : BitVec 64) (n : Nat) :
    (frame c d n)[0]? = some ⟨.mark, c.hdrMark⟩ ∧ (frame c d n)[1]? = some ⟨.space, c.hdrSpace⟩ ∧
    (∀ t, t < n → (frame c d n)[2 + 2 * t]? = some ⟨.mark, c.bitMark⟩ ∧
      (frame c d n)[3 + 2 * t]? =
        some ⟨.space, if sentBit c.lsbFirst d n t then c.oneSpace else c.zeroSpace⟩) ∧
    (frame c d n)[2 + 2 * n]? = some ⟨.mark, c.bitMark⟩ ∧ (frame c d n)[3 + 2 * n]? = some ⟨.space, c.gap⟩ := by
  have hl := bitEvents_length c (fun t => sentBit c.lsbFirst d n t) (List.range n)
  rw [List.length_range] at hl
  have inner : ∀ k, k < 2 * n → ∀ hd ft : List TxEvent, hd.length = 2 →
      (hd ++ ((List.range n).flatMap fun t => bitEvents c (sentBit c.lsbFirst d n t)) ++ ft)[2 + k]? =
        ((List.range n).flatMap fun t => bitEvents c (sentBit c.lsbFirst d n t))[k]? := by
    intro k hk hd ft h2
    rw [List.append_assoc, List.getElem?_append_right (by omega),
      List.getElem?_append_left (by rw [hl, h2]; omega), h2]
    congr 1
    omega
  have outer : ∀ k, ∀ hd ft : List TxEvent, hd.length = 2 →
      (hd ++ ((List.range n).flatMap fun t => bitEvents c (sentBit c.lsbFirst d n t)) ++ ft)[2 + 2 * n + k]? =
        ft[k]? := by
    intro k hd ft h2
    rw [List.getElem?_append_right (by rw [List.length_append, hl, h2]; omega), List.length_append, hl, h2]
    congr 1
    omega
  unfold frame
  refine ⟨by simp, by simp, fun t ht => ?_, outer 0 _ _ rfl, ?_⟩
  · have := bitEvents_get c (fun t => sentBit c.lsbFirst d n t) ht
    refine ⟨(inner (2 * t) (by omega) _ _ rfl).trans this.1, ?_⟩
    rw [show 3 + 2 * t = 2 + (2 * t + 1) by omega]
    exact (inner (2 * t + 1) (by omega) _ _ rfl).trans this.2
  · rw [show 3 + 2 * n = 2 + 2 * n + 1 by omega]
    exact outer 1 _ _ rfl

/-- Transmission `r` of `k` identical ones. -/
theorem flatten_replicate_get {α : Type} (f : List α) {k r i : Nat} (hr : r < k) (hi : i < f.length) :
    (List.replicate k f).flatten[r * f.length + i]? = f[i]? := by
  induction k generalizing r with
  | zero => omega
  | succ k ih =>
    rw [List.replicate_succ, List.flatten_cons]
    cases r with
    | zero => rw [Nat.zero_mul, Nat.zero_add, List.getElem?_append_left hi]
    | succ r =>
      rw [Nat.succ_mul, List.getElem?_append_right (by omega),
        show r * f.length + f.length + i - f.length = r * f.length + i by omega]
      exact ih (by omega)

/-- A bit of the payload, as a bit of the number `DATA_HI * 2^32 + DATA_LO` (spec/10_state.md R26). -/
theorem State.data_toNat (s : State) : s.data.toNat = s.dataHi.toNat * 2 ^ 32 + s.dataLo.toNat := by
  unfold State.data
  rw [BitVec.toNat_append, Nat.shiftLeft_eq, Nat.mul_comm, ← Nat.two_pow_add_eq_or_of_lt s.dataLo.isLt,
    Nat.mul_comm]

/-- The bytes a receiver packs from the bits that are sent are the bytes of the payload (spec/20_memory.md R63,
R64). -/
theorem packedByte_sentBit (l : Bool) (d : BitVec 64) {n j : Nat} (h8 : n % 8 = 0) (hj : j < n / 8) :
    packedByte l (sentBit l d n) j = payloadByte l d n j := by
  apply BitVec.eq_of_getLsbD_eq
  intro p hp
  rw [packedByte_bit _ _ _ _ hp]
  cases l
  · simp only [sentBit, payloadByte, if_false, Bool.false_eq_true, BitVec.getLsbD_setWidth,
      BitVec.getLsbD_ushiftRight, hp, decide_true, Bool.true_and]
    congr 1
    omega
  · simp [sentBit, payloadByte, BitVec.getLsbD_ushiftRight, hp]

/-! ### Alternation (R172) -/

theorem alternating_append {l k : List TxEvent} (hl : alternating l = true) (hk : alternating k = true) :
    alternating (l ++ k) = true := by
  induction l using alternating.induct with
  | case1 => exact hk
  | case2 x => simp [alternating] at hl
  | case3 a b rest ih =>
    simp only [alternating, Bool.and_eq_true] at hl
    simp only [List.cons_append, alternating, hl.1.1, hl.1.2, ih hl.2, Bool.and_true]

theorem frame_alternating (c : Config) (d : BitVec 64) (n : Nat) : alternating (frame c d n) = true := by
  unfold frame
  refine alternating_append (alternating_append rfl ?_) rfl
  induction List.range n with
  | nil => rfl
  | cons a l ih =>
    rw [List.flatMap_cons]
    exact alternating_append rfl ih

theorem frames_alternating (c : Config) (d : BitVec 64) (n times : Nat) :
    alternating (frames c d n times) = true := by
  unfold frames
  induction times with
  | zero => rfl
  | succ times ih =>
    rw [List.replicate_succ, List.flatten_cons]
    exact alternating_append (frame_alternating c d n) ih

end Sys2Proof.Machine
end

