-- ==== Sys2Proof/Laws/Interface.lean ====
section
/-! SUPPORT. The index map and the one way a read and a write go, whatever the register. -/

namespace Sys2Proof.Machine

/-! ### The index map (spec/10_state.md R21, R41) -/

theorem controlRegAt_none {i : Nat} (h : 0xA < i) : controlRegAt i = none := by
  unfold controlRegAt
  split <;> first | omega | rfl

theorem paramRegAt_none {i : Nat} (h : ¬ (0x10 ≤ i ∧ i ≤ 0x1D)) : paramRegAt i = none := by
  unfold paramRegAt
  split <;> first | omega | rfl

theorem controlRegAt_ne_cells {i : Nat} {r : Reg} (h : controlRegAt i = some r) :
    (∀ j, r ≠ .stateCell j) ∧ (∀ j, r ≠ .rawCell j) := by
  unfold controlRegAt at h
  split at h <;> simp at h <;> subst h <;> simp

theorem stateIndex_toNat {c : Config} {j : Nat} (h : j < c.stateCap) :
    (BitVec.ofNat 16 (0x40 + j)).toNat = 0x40 + j := by
  have := c.stateCap_bounds
  simp
  omega

theorem rawIndex_toNat {c : Config} {i : Nat} (h : i < c.rawCap) :
    (BitVec.ofNat 16 (0x1000 + i)).toNat = 0x1000 + i := by
  have := c.rawCap_bounds
  simp
  omega

theorem regAt_stateIndex {c : Config} {j : Nat} (h : j < c.stateCap) :
    regAt c (BitVec.ofNat 16 (0x40 + j)) = .stateCell j := by
  unfold regAt
  dsimp only
  rw [stateIndex_toNat h, controlRegAt_none (by omega), paramRegAt_none (by omega)]
  dsimp only
  rw [if_pos (by omega), Nat.add_sub_cancel_left]

theorem regAt_rawIndex {c : Config} {i : Nat} (h : i < c.rawCap) :
    regAt c (BitVec.ofNat 16 (0x1000 + i)) = .rawCell i := by
  unfold regAt
  dsimp only
  have := c.stateCap_bounds
  rw [rawIndex_toNat h, controlRegAt_none (by omega), paramRegAt_none (by omega)]
  dsimp only
  rw [if_neg (by omega), if_pos (by omega), Nat.add_sub_cancel_left]

theorem regAt_unmapped {c : Config} {x : Half} (h1 : 0xA < x.toNat)
    (h2 : ¬ (0x10 ≤ x.toNat ∧ x.toNat ≤ 0x1D)) (h3 : ¬ (0x40 ≤ x.toNat ∧ x.toNat < 0x40 + c.stateCap))
    (h4 : ¬ (0x1000 ≤ x.toNat ∧ x.toNat < 0x1000 + c.rawCap)) : regAt c x = .unmapped := by
  unfold regAt
  dsimp only
  rw [controlRegAt_none h1, paramRegAt_none h2]
  dsimp only
  rw [if_neg h3, if_neg h4]

theorem stateCell_inside {c : Config} {x : Half} {j : Nat} (h : regAt c x = .stateCell j) :
    j < c.stateCap := by
  unfold regAt at h
  dsimp only at h
  split at h
  · rename_i r hr
    exact absurd h ((controlRegAt_ne_cells hr).1 j)
  · simp at h
  · split at h
    · injection h
      omega
    · split at h <;> simp at h

theorem rawCell_inside {c : Config} {x : Half} {i : Nat} (h : regAt c x = .rawCell i) :
    i < c.rawCap := by
  unfold regAt at h
  dsimp only at h
  split at h
  · rename_i r hr
    exact absurd h ((controlRegAt_ne_cells hr).2 i)
  · simp at h
  · split at h
    · simp at h
    · split at h
      · injection h
        omega
      · simp at h

/-- A register that is neither a parameter, nor a cell, nor unmapped stands where `controlRegAt` says. -/
theorem controlRegAt_of_regAt {c : Config} {x : Half} {r : Reg} (h : regAt c x = r)
    (hp : ∀ p, r ≠ .param p) (hs : ∀ j, r ≠ .stateCell j) (hc : ∀ i, r ≠ .rawCell i)
    (hu : r ≠ .unmapped) : controlRegAt x.toNat = some r := by
  unfold regAt at h
  dsimp only at h
  split at h
  · next hr => rw [hr, h]
  · exact absurd h.symm (hp _)
  · split at h
    · exact absurd h.symm (hs _)
    · split at h
      · exact absurd h.symm (hc _)
      · exact absurd h.symm hu

/-- `STATUS` has one index. -/
theorem eq_one_of_regAt_status {c : Config} {x : Half} (h : regAt c x = .status) : x = 1 := by
  have hx := controlRegAt_of_regAt h (by simp) (by simp) (by simp) (by simp)
  unfold controlRegAt at hx
  split at hx <;> first | exact BitVec.eq_of_toNat_eq ‹_› | simp at hx

/-- `CMD` has one index. -/
theorem eq_zero_of_regAt_cmd {c : Config} {x : Half} (h : regAt c x = .cmd) : x = 0 := by
  have hx := controlRegAt_of_regAt h (by simp) (by simp) (by simp) (by simp)
  unfold controlRegAt at hx
  split at hx <;> first | exact BitVec.eq_of_toNat_eq ‹_› | simp at hx

/-! ### Reads and writes -/

/-- A write while `BUSY = 0` reaches its register. -/
theorem State.hostWrite_idle {s : State} (h : s.status.busy = false) (x : Half) (v : Word) :
    s.hostWrite x v = s.writeReg v (regAt s.cfg x) := by
  simp [State.hostWrite, h]

/-- A write while `BUSY = 1` is dropped (spec/20_memory.md R71). -/
theorem State.hostWrite_busy {s : State} (h : s.status.busy = true) (x : Half) (v : Word) :
    s.hostWrite x v = s.dropWrite := by
  simp [State.hostWrite, h]

/-- A read of a register with a value. -/
theorem State.hostRead_exact {s : State} {x : Half} (h : s.unspecifiedWidth (regAt s.cfg x) = none) :
    s.hostRead x = s.recordRead x (s.regWord (regAt s.cfg x)) := by
  simp only [State.hostRead, h, State.readValue, if_true]

/-- A read of a register without one. -/
theorem State.hostRead_free {s : State} {x : Half} {w : Nat} (hw : w ≤ 32)
    (h : s.unspecifiedWidth (regAt s.cfg x) = some w) :
    ∃ y : Word, y.toNat < 2 ^ w ∧ s.hostRead x = (s.recordRead x y).drawn := by
  refine ⟨BitVec.ofNat 32 (s.freeBits w), ?_, ?_⟩
  · have h1 := State.freeBits_lt w s
    have h2 : 2 ^ w ≤ 2 ^ 32 := Nat.pow_le_pow_right (by omega) hw
    rwa [BitVec.toNat_ofNat, Nat.mod_eq_of_lt (by omega)]
  · simp only [State.hostRead, h, State.readValue]
    rfl

/-- A read changes only the host's record and the count of free values. -/
theorem State.hostRead_frame (s : State) (x : Half) :
    s.hostRead x = { s with readLog := (s.hostRead x).readLog, fresh := (s.hostRead x).fresh } := by
  unfold State.hostRead
  dsimp only
  split <;> rfl

theorem State.writeReg_cfg (s : State) (v : Word) (r : Reg) : (s.writeReg v r).cfg = s.cfg := by
  cases r <;> rfl

theorem State.hostWrite_cfg (s : State) (x : Half) (v : Word) : (s.hostWrite x v).cfg = s.cfg := by
  unfold State.hostWrite
  split
  · rfl
  · exact State.writeReg_cfg _ _ _

theorem shiftLeft_or {a b k : Nat} (h : b < 2 ^ k) : a <<< k ||| b = a * 2 ^ k + b := by
  rw [Nat.shiftLeft_eq, Nat.mul_comm, ← Nat.two_pow_add_eq_or_of_lt h]

/-- The fields of `CAPS` (spec/10_state.md R32). -/
theorem capsWord_toNat (c : Config) :
    (capsWord c).toNat =
      c.rawCap + c.stateCap * 2 ^ 16 + (if c.lsbFirst then 2 ^ 23 else 0) + c.durW * 2 ^ 24 := by
  have h1 : c.rawCap < 2 ^ 16 := by have := c.rawCap_bounds; omega
  have h2 : c.stateCap < 2 ^ 7 := by have := c.stateCap_bounds; omega
  have h3 : c.durW < 2 ^ 5 := by have := c.durW_bounds; omega
  have h4 : c.lsbFirst.toNat < 2 ^ 1 := by cases c.lsbFirst <;> decide
  unfold capsWord
  simp only [BitVec.toNat_append, BitVec.toNat_ofNat, BitVec.toNat_ofBool]
  rw [Nat.mod_eq_of_lt h1, Nat.mod_eq_of_lt h2, Nat.mod_eq_of_lt h3, shiftLeft_or h4, shiftLeft_or h2,
    shiftLeft_or h1, shiftLeft_or h3]
  cases c.lsbFirst <;> simp <;> omega

/-- A duration cut to `DUR_W` bits fits the cell that holds it (spec/10_state.md R34, R42). -/
theorem cutDuration_toNat (c : Config) (v : Nat) :
    (BitVec.ofNat 16 (v % 2 ^ c.durW)).toNat = v % 2 ^ c.durW := by
  have h1 : 2 ^ c.durW ≤ 2 ^ 16 := Nat.pow_le_pow_right (by omega) c.durW_bounds.2
  have h2 := Nat.mod_lt v (Nat.two_pow_pos c.durW)
  rw [BitVec.toNat_ofNat, Nat.mod_eq_of_lt (by omega)]

end Sys2Proof.Machine
end

