-- ==== Sys2Proof/Laws/Unseen.lean ====
section
/-! SUPPORT. Changes of the state that a command cannot see: of the flags (spec/10_state.md R38), and of cells
of RAW that it does not read (spec/20_memory.md R77; spec/41_decode.md R147). -/

namespace Sys2Proof.Machine

/-- The same flow, its state passed through `g`. -/
def Flow.mapState {α : Type} (g : State → State) : Flow α → Flow α
  | .go a s => .go a (g s)
  | .stop c idx s => .stop c idx (g s)

/-- A change `g` of the state that the engine cannot see while the cells of RAW are `raw` and it reads only
the cells `a .. b-1`. -/
structure Unseen (a b : Nat) (raw : List (Nat × Half)) (g : State → State) : Prop where
  cfg : ∀ s, (g s).cfg = s.cfg
  offset : ∀ s, (g s).offset = s.offset
  rawlen : ∀ s, (g s).rawlen = s.rawlen
  stateBuf : ∀ s, (g s).mem.stateBuf = s.mem.stateBuf
  load : ∀ s i, s.mem.raw = raw → a ≤ i → i < b →
    (g s).loadRaw i = ((s.loadRaw i).1, g (s.loadRaw i).2)
  store : ∀ s j x, (g s).storeByte j x = g (s.storeByte j x)
  result : ∀ s n p c, (g s).setResult n p c = g (s.setResult n p c)

/-- Other cells of RAW outside `a .. b-1`. -/
theorem unseen_otherRaw {a b : Nat} {raw other : List (Nat × Half)}
    (h : ∀ i, a ≤ i → i < b → lookup i other = lookup i raw) :
    Unseen a b raw (fun s => { s with mem := { s.mem with raw := other } }) := by
  refine ⟨fun _ => rfl, fun _ => rfl, fun _ => rfl, fun _ => rfl, fun s i hr h1 h2 => ?_,
    fun _ _ _ => rfl, fun _ _ _ _ => rfl⟩
  have hi : s.mem.rawCell i = lookup i other := by rw [h i h1 h2, ← hr]; rfl
  unfold State.loadRaw
  rw [hi]
  show (match lookup i other with | some v => _ | none => _) = _
  cases lookup i other <;> rfl

/-- Other flags. -/
theorem unseen_otherFlags (a b : Nat) (raw : List (Nat × Half)) (flags : Status) (idx : Half) :
    Unseen a b raw (fun s => { s with status := flags, failidx := idx }) := by
  refine ⟨fun _ => rfl, fun _ => rfl, fun _ => rfl, fun _ => rfl, fun s i _ _ _ => ?_,
    fun _ _ _ => rfl, fun _ _ _ _ => rfl⟩
  unfold State.loadRaw
  show (match s.mem.rawCell i with | some v => _ | none => _) = _
  cases s.mem.rawCell i <;> rfl

theorem Flow.andThen_mapState {α β : Type} {g : State → State} {f f' : Flow α}
    {k k' : α → State → Flow β} (hf : f' = f.mapState g)
    (hk : ∀ a s, f = .go a s → k' a (g s) = (k a s).mapState g) :
    f'.andThen k' = (f.andThen k).mapState g := by
  subst hf
  cases f with
  | go a s => exact hk a s rfl
  | stop c idx s => rfl

theorem require_mapState (g : State → State) (test : Bool) (c : FailClass) (s : State) :
    require test c (g s) = (require test c s).mapState g := by
  cases test <;> rfl

/-! ### The cells stay while the lines run -/

theorem dataBit_raw {i : Nat} {s t : State} {x : Bool} (h : dataBit i s = .go x t) :
    t.mem.raw = s.mem.raw := by
  have := dataBit_within (k := 0) (b := i + 2) (i := i) (by omega) s
  rw [h] at this
  exact Touched.raw this

theorem dataByte_raw {rem k i : Nat} {acc x : Byte} {s t : State} (h : dataByte rem k acc i s = .go x t) :
    t.mem.raw = s.mem.raw := by
  have := dataByte_within (k := 0) (b := i + 2 * rem) rem k acc i le_rfl s
  rw [h] at this
  exact Touched.raw this

theorem dataBytes_raw {rem j i : Nat} {x : Unit} {s t : State} (h : dataBytes rem j i s = .go x t) :
    t.mem.raw = s.mem.raw := by
  have := dataBytes_within (k := j + rem) (b := i + 16 * rem) rem j i le_rfl le_rfl s
  rw [h] at this
  exact Touched.raw this

theorem preHeader_raw {i : Nat} {x : Unit} {s t : State} (h : preHeader i s = .go x t) :
    t.mem.raw = s.mem.raw := by
  rw [preHeader_mem h]

/-! ### The lines of the commands -/

section
variable {a b : Nat} {raw : List (Nat × Half)} {g : State → State}

theorem Unseen.stateByte (h : Unseen a b raw g) (s : State) (j : Nat) :
    (g s).mem.stateByte j = s.mem.stateByte j := by
  rw [Memory.stateByte, Memory.stateByte, h.stateBuf]

theorem Unseen.checksumHolds (h : Unseen a b raw g) (s : State) :
    (g s).checksumHolds = s.checksumHolds := by
  simp [State.checksumHolds, State.bytes, h.cfg, funext (h.stateByte s)]

theorem Unseen.avail (h : Unseen a b raw g) (s : State) : (g s).avail = s.avail := by
  simp [State.avail, h.offset, h.rawlen]

theorem Unseen.matchCell (h : Unseen a b raw g) {test test' : Nat → Bool} (ht : test' = test) {i : Nat}
    {s : State} (hr : s.mem.raw = raw) (hi : a ≤ i ∧ i < b) :
    matchCell test' i (g s) = (matchCell test i s).mapState g := by
  subst ht
  unfold Machine.matchCell
  rw [h.load s i hr hi.1 hi.2]
  split <;> rfl

theorem Unseen.preHeader (h : Unseen a b raw g) {i : Nat} {s : State} (hr : s.mem.raw = raw)
    (hi : a ≤ i ∧ i + 1 < b) : preHeader i (g s) = (preHeader i s).mapState g :=
  Flow.andThen_mapState (h.matchCell (by rw [h.cfg]) hr (by omega)) fun _ t ht =>
    h.matchCell (by rw [h.cfg]) (by rw [matchCell_mem ht, hr]) (by omega)

theorem Unseen.footer (h : Unseen a b raw g) {i : Nat} {s : State} (hr : s.mem.raw = raw)
    (hi : a ≤ i ∧ i + 1 < b) : footer i (g s) = (footer i s).mapState g :=
  Flow.andThen_mapState (h.matchCell (by rw [h.cfg]) hr (by omega)) fun _ t ht =>
    h.matchCell (by rw [h.cfg]) (by rw [matchCell_mem ht, hr]) (by omega)

theorem Unseen.bitSpace (h : Unseen a b raw g) {i : Nat} {s : State} (hr : s.mem.raw = raw)
    (hi : a ≤ i ∧ i < b) : bitSpace i (g s) = (bitSpace i s).mapState g := by
  unfold Machine.bitSpace
  have h1 := h.load s i hr hi.1 hi.2
  have h2 := h.load (s.loadRaw i).2 i (by rw [State.loadRaw_mem, hr]) hi.1 hi.2
  simp only [h1, h2, h.cfg]
  split
  · rfl
  · split <;> rfl

theorem Unseen.dataBit (h : Unseen a b raw g) {i : Nat} {s : State} (hr : s.mem.raw = raw)
    (hi : a ≤ i ∧ i + 1 < b) : dataBit i (g s) = (dataBit i s).mapState g :=
  Flow.andThen_mapState (h.matchCell (by rw [h.cfg]) hr (by omega)) fun _ t ht =>
    h.bitSpace (by rw [matchCell_mem ht, hr]) (by omega)

theorem Unseen.dataByte (h : Unseen a b raw g) (rem k : Nat) (acc : Byte) {i : Nat} {s : State}
    (hr : s.mem.raw = raw) (hi : a ≤ i ∧ i + 2 * rem ≤ b) :
    dataByte rem k acc i (g s) = (dataByte rem k acc i s).mapState g := by
  induction rem generalizing k acc i s with
  | zero => rfl
  | succ rem ih =>
    exact Flow.andThen_mapState (h.dataBit hr (by omega)) fun x t ht => by
      rw [h.cfg]
      exact ih _ _ ((dataBit_raw ht).trans hr) (by omega)

theorem Unseen.dataBytes (h : Unseen a b raw g) (rem j : Nat) {i : Nat} {s : State}
    (hr : s.mem.raw = raw) (hi : a ≤ i ∧ i + 16 * rem ≤ b) :
    dataBytes rem j i (g s) = (dataBytes rem j i s).mapState g := by
  induction rem generalizing j i s with
  | zero => rfl
  | succ rem ih =>
    exact Flow.andThen_mapState (h.dataByte 8 0 0 hr (by omega)) fun x t ht => by
      rw [h.store]
      exact ih _ ((dataByte_raw ht).trans hr) (by omega)

/-- DECODE does not see `g` where `a .. b-1` takes in the cells it may read. -/
theorem Unseen.decodeSteps (strict : Bool) (n : Nat) {s : State} (h : Unseen a b s.mem.raw g)
    (ha : a ≤ s.offset.toNat)
    (hHeader : s.offset.toNat + 2 * (n + 1) ≤ s.rawlen.toNat → s.offset.toNat + 2 ≤ b)
    (hData : s.offset.toNat + (2 * n + 4) ≤ s.rawlen.toNat → s.offset.toNat + (2 * n + 4) ≤ b) :
    decodeSteps strict n (g s) = (decodeSteps strict n s).mapState g := by
  unfold Machine.decodeSteps
  refine Flow.andThen_mapState (by rw [h.avail]; exact require_mapState ..) fun _ t1 h1 => ?_
  obtain ⟨g1, rfl⟩ := require_eq_go h1
  have l1 : t1.offset.toNat + 2 * (n + 1) ≤ t1.rawlen.toNat := by
    have := of_decide_eq_true g1
    unfold State.avail at this
    omega
  refine Flow.andThen_mapState (by rw [h.cfg]; exact require_mapState ..) fun _ t2 h2 => ?_
  obtain ⟨-, rfl⟩ := require_eq_go h2
  rw [h.offset]
  refine Flow.andThen_mapState (h.preHeader rfl (by have := hHeader l1; omega)) fun _ t3 h3 => ?_
  have r3 := preHeader_raw h3
  have t3 : Touched 0 t2 t3 := by
    have := preHeader_within (k := 0) (b := t2.offset.toNat + 2) (i := t2.offset.toNat) (by omega) t2
    rw [h3] at this
    exact this
  refine Flow.andThen_mapState (by rw [h.cfg]; exact require_mapState ..) fun _ t4 h4 => ?_
  obtain ⟨-, rfl⟩ := require_eq_go h4
  refine Flow.andThen_mapState (by rw [h.avail]; exact require_mapState ..) fun _ t5 h5 => ?_
  obtain ⟨g5, rfl⟩ := require_eq_go h5
  have l5 : t2.offset.toNat + (2 * n + 4) ≤ t2.rawlen.toNat := by
    have := of_decide_eq_true g5
    rw [t3.avail] at this
    unfold State.avail at this
    omega
  have hb := hData l5
  refine Flow.andThen_mapState (h.dataBytes _ _ r3 (by omega)) fun _ t6 h6 => ?_
  refine Flow.andThen_mapState (h.footer ((dataBytes_raw h6).trans r3) (by omega)) fun _ t7 h7 => ?_
  refine Flow.andThen_mapState (by rw [h.checksumHolds]; exact require_mapState ..) fun _ t8 h8 => ?_
  obtain ⟨-, rfl⟩ := require_eq_go h8
  unfold State.storeResult State.commandBit
  rw [h.result, h.cfg, h.stateByte]
  rfl

/-- The lines of a MATCH command. -/
def matchSteps (test : Tolerance → Nat → Nat → Bool) (sel : Sel) (s : State) : Flow Unit :=
  (require (decide (s.offset.toNat < s.rawlen.toNat)) .tooShort s).andThen fun _ s =>
    Machine.matchCell (fun m => test s.cfg.tol m (expected s.cfg sel)) s.offset.toNat s

theorem State.matchOne_eq (test : Tolerance → Nat → Nat → Bool) (sel : Sel) (s : State) :
    s.matchOne test sel = (matchSteps test sel s).close := rfl

theorem matchSteps_within (test : Tolerance → Nat → Nat → Bool) (sel : Sel) (s : State) :
    (matchSteps test sel s).Within 0 s.rawlen.toNat s := by
  refine (require_within _ _ _ (by simp) s).andThen fun _ t h _ => ?_
  obtain ⟨g1, rfl⟩ := require_eq_go h
  exact matchCell_within (of_decide_eq_true g1) _ _

/-- A MATCH command does not see `g` where `a .. b-1` takes in the cells below `RAWLEN`. -/
theorem Unseen.matchSteps {s : State} (h : Unseen a b s.mem.raw g) (test : Tolerance → Nat → Nat → Bool)
    (sel : Sel) (ha : a ≤ s.offset.toNat) (hb : s.rawlen.toNat ≤ b) :
    matchSteps test sel (g s) = (matchSteps test sel s).mapState g := by
  refine Flow.andThen_mapState (by rw [h.offset, h.rawlen]; exact require_mapState ..) fun _ t ht => ?_
  obtain ⟨g1, rfl⟩ := require_eq_go ht
  have := of_decide_eq_true g1
  rw [h.offset]
  exact h.matchCell (by rw [h.cfg]) rfl (by omega)

end

/-- A command that is run with other flags ends with the same flags, but for `LOCKERR`. -/
theorem Flow.close_otherFlags {α : Type} (f : Flow α) (flags : Status) (idx : Half) :
    (f.mapState fun s => { s with status := flags, failidx := idx }).close =
      { f.close with status := { f.close.status with lockerr := flags.lockerr } } := by
  cases f <;> rfl

end Sys2Proof.Machine
end

