-- ==== Sys2Proof/Laws/Invariant.lean ====
section
/-! SUPPORT. What keeps the invariants: the lines of a command, and its two ends. -/

namespace Sys2Proof.Machine

/-- The invariants do not look at the host's side of the state. -/
theorem State.Inv.hostSide {s t : State} (h : s.Inv)
    (ht : t = { s with pending := t.pending, readLog := t.readLog, fresh := t.fresh }) : t.Inv := by
  rw [ht]
  exact ⟨h.memory, h.stateInside, h.rawInside, h.rawWidth, h.rawlen, h.proto, h.resultWhole, h.resultBits,
    h.busyNotDone, h.okDone, h.okDiag, h.diagDone, h.indexOnlyMismatch, h.indexInside, h.sent⟩

/-- Success keeps them. -/
theorem State.Inv.succeed {s : State} (h : s.Inv) : s.succeed.Inv :=
  ⟨h.memory, h.stateInside, h.rawInside, h.rawWidth, h.rawlen, h.proto, h.resultWhole, h.resultBits,
    by simp, by simp, by simp, by simp, fun _ => rfl, by simp, h.sent⟩

/-- Failure keeps them where its index is one of RAW exactly for a mismatch. -/
theorem State.Inv.raiseFail {s : State} (h : s.Inv) {c : FailClass} {idx : Half}
    (h1 : c ≠ .pulseMismatch → idx = noIndex) (h2 : c = .pulseMismatch → idx.toNat < s.cfg.rawCap) :
    (s.raiseFail c idx).Inv :=
  ⟨h.memory, h.stateInside, h.rawInside, h.rawWidth, h.rawlen, h.proto, h.resultWhole, h.resultBits,
    by simp, by simp, by simp, by simp, fun hd => h1 (by rintro rfl; exact hd rfl),
    fun hd => h2 (by injection hd), h.sent⟩

/-- The lines of a command keep them. -/
theorem State.Inv.touched {k : Nat} {s t : State} (h : s.Inv) (hT : Touched k s t)
    (hk : k ≤ s.cfg.stateCap) : t.Inv := by
  have hf := hT.frame
  have hl := hT.listed
  have hw := hT.wf h.memory
  refine ⟨hw, ?_, ?_, ?_, ?_, ?_, ?_, ?_, ?_, ?_, ?_, ?_, ?_, ?_, ?_⟩
  · intro c hc
    rw [hT.cfg]
    rcases hl c hc with h1 | h1
    · exact h.stateInside c h1
    · omega
  · rw [hT.raw, hT.cfg]; exact h.rawInside
  · rw [hT.raw, hT.cfg]; exact h.rawWidth
  · rw [hT.rawlen, hT.cfg]; exact h.rawlen
  all_goals rw [hf]
  · exact h.proto
  · exact h.resultWhole
  · exact h.resultBits
  · exact h.busyNotDone
  · exact h.okDone
  · exact h.okDiag
  · exact h.diagDone
  · exact h.indexOnlyMismatch
  · exact h.indexInside
  · exact h.sent

/-- A command whose lines stay inside the buffers keeps them, however it ends. -/
theorem State.Inv.close {α : Type} {k b : Nat} {s : State} {f : Flow α} (h : s.Inv) (hf : f.Within k b s)
    (hk : k ≤ s.cfg.stateCap) (hb : b ≤ s.rawlen.toNat) : f.close.Inv := by
  have hrl := h.rawlen
  have hrc := s.cfg.rawCap_bounds
  cases f with
  | go a t => exact (h.touched hf hk).succeed
  | stop c idx t =>
    refine (h.touched hf.1 hk).raiseFail hf.2.1 fun hc => ?_
    obtain ⟨i, hi, rfl⟩ := hf.2.2 hc
    rw [hf.1.cfg, cellIndex, BitVec.toNat_ofNat, Nat.mod_eq_of_lt (by omega)]
    omega

/-- Clearing the result registers keeps them (spec/41_decode.md R131). -/
theorem State.Inv.noResult {s : State} (h : s.Inv) : s.noResult.Inv :=
  ⟨h.memory, h.stateInside, h.rawInside, h.rawWidth, h.rawlen, .inl rfl, by simp [State.noResult],
    by simp [State.noResult], h.busyNotDone, h.okDone, h.okDiag, h.diagDone, h.indexOnlyMismatch,
    h.indexInside, h.sent⟩

/-- What ENCODE appends keeps them (spec/43_encode.md R172). -/
theorem State.Inv.emit {s : State} (h : s.Inv) {evs : List TxEvent} (he : alternating evs = true) :
    (s.emit evs).Inv :=
  ⟨h.memory, h.stateInside, h.rawInside, h.rawWidth, h.rawlen, h.proto, h.resultWhole, h.resultBits,
    h.busyNotDone, h.okDone, h.okDiag, h.diagDone, h.indexOnlyMismatch, h.indexInside,
    alternating_append h.sent he⟩

/-! ### The end of a command -/

/-- `STATUS` and `FAILIDX` at the end of a command (spec/10_state.md R36; spec/60_exceptions.md R204). -/
theorem Flow.Within.close_flags {α : Type} {k b : Nat} {s : State} {f : Flow α} (h : f.Within k b s) :
    f.close.status.busy = false ∧ f.close.status.done = true ∧
    f.close.status.lockerr = s.status.lockerr ∧
    (f.close.status.ok = true ↔ f.close.status.diag = none) ∧
    (f.close.status.diag ≠ some .pulseMismatch → f.close.failidx = noIndex) := by
  cases f with
  | go a t => simp [Touched.status h]
  | stop c idx t =>
    simp only [Flow.close_stop, State.raiseFail_status, State.raiseFail_failidx, Touched.status h.1]
    refine ⟨rfl, rfl, rfl, by simp, fun hd => h.2.1 ?_⟩
    rintro rfl
    exact hd rfl

/-- How DECODE ends: its lines, read off the state it leaves. -/
theorem execDecode_outcome {strict : Bool} {n : Nat} {s t : State} (h : execDecode strict n s = .next t) :
    (∃ v, t = (v.storeResult n).succeed ∧ Touched (n / 8) s.noResult v ∧ bitsAdmissible s.cfg n = true ∧
      (strict = true → n = s.cfg.bits ∧ v.checksumHolds = true)) ∨
    (∃ c idx v, t = v.raiseFail c idx ∧ Touched (min (n / 8) s.cfg.stateCap) s.noResult v ∧
      (c ≠ .pulseMismatch → idx = noIndex) ∧
      (c = .pulseMismatch → ∃ i, i < s.rawlen.toNat ∧ idx = cellIndex i) ∧
      (c ≠ .pulseMismatch → c ≠ .checksum → v.mem = s.mem) ∧
      (c = .checksum → strict = true ∧ n = s.cfg.bits ∧ v.checksumHolds = false)) := by
  rw [execDecode_eq] at h
  have ht := (Host.Outcome.next.inj h).symm
  rcases decodeSteps_outcome strict n s.noResult with ⟨v, hv, h1, h2, h3⟩ | ⟨c, idx, v, hv, h1, h2, h3, h4⟩
  · exact .inl ⟨v, by rw [ht, hv]; rfl, h1, h2, h3⟩
  · exact .inr ⟨c, idx, v, by rw [ht, hv]; rfl, h1, h2, h3, h4⟩

end Sys2Proof.Machine
end

