-- ==== Sys2Proof/Laws/PerInstr.lean ====
section
/-! SUPPORT. Statements about every command as syntax, one lemma per constructor. -/

namespace Sys2Proof.Laws

/-- The word of a well-formed command selects its row of the opcode map (spec/30_encoding.md R95). -/
def RowSelects.Statement (i : Instr) : Prop := i.wf = true → encode i &&& rowMask i = rowMatch i

theorem RowSelects.nop : RowSelects.Statement .nop := by
  intro _; decide

theorem RowSelects.decode (strict : Bool) (n : Nat) : RowSelects.Statement (.decode strict n) := by
  intro _
  apply BitVec.eq_of_getLsbD_eq
  intro k hk
  simp only [encode, encodeFields, wordOf, rowMask, rowMatch, BitVec.getLsbD_and, BitVec.getLsbD_append]
  interval_cases k <;> simp

theorem RowSelects.encode (n : Nat) : RowSelects.Statement (.encode n) := by
  intro _
  apply BitVec.eq_of_getLsbD_eq
  intro k hk
  simp only [Sys2Proof.encode, encodeFields, wordOf, rowMask, rowMatch, BitVec.getLsbD_and, BitVec.getLsbD_append]
  interval_cases k <;> simp

theorem RowSelects.chksum : RowSelects.Statement .chksum := by
  intro _; decide

theorem RowSelects.xtract : RowSelects.Statement .xtract := by
  intro _; decide

theorem RowSelects.matchm (sel : Sel) : RowSelects.Statement (.matchm sel) := by
  intro _; cases sel <;> decide

theorem RowSelects.matchs (sel : Sel) : RowSelects.Statement (.matchs sel) := by
  intro _; cases sel <;> decide

theorem RowSelects.matchg (sel : Sel) : RowSelects.Statement (.matchg sel) := by
  intro _; cases sel <;> decide

end Sys2Proof.Laws
end

