-- ==== Sys2Proof/Tests/Slice0.lean ====
section
/-! SUPPORT. Tests: what the well-formedness check refuses, words written out from the encoding of
spec/30_encoding.md, one step of each command on the vectors of spec/95_test_vectors.md (their numbers stand in
the comments), and for each statement with hypotheses a case that meets them. -/

namespace Sys2Proof.Tests

open Sys2Proof Sys2Proof.Machine

/-! ### Well-formedness -/

theorem test_wellFormed_refuses :
    (Instr.decode true 65536).wf = false ∧ (Instr.decode false 70000).wf = false ∧
    (Instr.encode 65536).wf = false ∧ (Instr.decode false 65535).wf = true ∧
    (Instr.encode 65535).wf = true := by decide

/-! ### Words, written bit by bit from R91 and R95: OP S KIND SEL RSV NBITS -/

theorem test_decode_nop : decode 0b00000000000000000000000000000000 = some .nop := by decide

theorem test_decode_decode :
    decode 0b00010000000000000000000000100000 = some (.decode false 32) ∧
    decode 0b00011000000000001111111111111111 = some (.decode true 65535) := by decide

theorem test_decode_encode :
    decode 0b00100000000000000000000001001000 = some (.encode 72) := by decide

theorem test_decode_chksum : decode 0b00110000000000000000000000000000 = some .chksum := by decide

theorem test_decode_xtract : decode 0b01000000000000000000000000000000 = some .xtract := by decide

theorem test_decode_match :
    decode 0b01010000000000000000000000000000 = some (.matchm .hdrMark) ∧
    decode 0b01010000100000000000000000000000 = some (.matchm .bitMark) ∧
    decode 0b01010010110000000000000000000000 = some (.matchs .oneSpace) ∧
    decode 0b01010011000000000000000000000000 = some (.matchs .zeroSpace) ∧
    decode 0b01010100010000000000000000000000 = some (.matchg .hdrSpace) ∧
    decode 0b01010101010000000000000000000000 = some (.matchg .gap) := by decide

/-- V18: one word for each way to be illegal. -/
theorem test_decode_illegal :
    decode 0xF0000000 = none ∧ decode 0x10010020 = none ∧ decode 0x28000020 = none ∧
    decode 0x12000020 = none ∧ decode 0x30000001 = none ∧ decode 0x56000000 = none ∧
    decode 0x51800000 = none ∧ decode 0x51C00000 = none ∧ decode 0x10400020 = none := by decide

/-- The host's view: bits above the row's are 0. -/
theorem test_decodeTableWord :
    decodeTableWord 32 0x18000020 = some (.decode true 32) ∧
    decodeTableWord 32 0x60000000 = none := by decide

/-! ### States in the reference configuration -/

/-- The reset state of a unit in `REF` (R11). -/
def idle : State := { State.reset with cfg := Config.ref }

/-- Cells `i, i+1, ...` of RAW. -/
def cellsFrom (i : Nat) (vs : List Half) : List (Nat × Half) := vs.zipIdx.map fun p => (i + p.2, p.1)

/-- One cell `m` at `OFFSET`, `RAWLEN = OFFSET + 1` (section 2.2 of the vectors). -/
def oneCell (off : Nat) (m : Half) : State :=
  { idle with
    offset := BitVec.ofNat 16 off, rawlen := BitVec.ofNat 16 (off + 1),
    mem := { stateBuf := [], raw := [(off, m)] } }

/-- Frame FA (section 2.5). -/
def faHeader : List Half := [8000, 4000]
def faByte0 : List Half := [600, 1600, 600, 600, 600, 1600, 600, 600, 600, 600, 600, 1600, 600, 600, 600, 1600]
def faByte1 : List Half := [600, 600, 600, 600, 600, 1600, 600, 1600, 600, 1600, 600, 1600, 600, 600, 600, 600]
def faByte2 : List Half := [600, 1600, 600, 600, 600, 600, 600, 600, 600, 600, 600, 600, 600, 600, 600, 600]
def faByte3 : List Half := [600, 1600, 600, 600, 600, 600, 600, 1600, 600, 1600, 600, 1600, 600, 600, 600, 1600]
def faFooter : List Half := [600, 20000]
def fa : List Half := faHeader ++ faByte0 ++ faByte1 ++ faByte2 ++ faByte3 ++ faFooter

/-- Frame F16. -/
def f16 : List Half :=
  faHeader ++
  [600, 1600, 600, 1600, 600, 600, 600, 600, 600, 600, 600, 600, 600, 1600, 600, 1600] ++
  [600, 600, 600, 1600, 600, 600, 600, 1600, 600, 1600, 600, 600, 600, 1600, 600, 600] ++ faFooter

/-- Start STATE = EE x 8. -/
def markerBytes : List Host.Cell := (List.range 8).map fun j => (j, 0xEE)

/-- The start state of section 2.5 with `vs` in RAW. -/
def loaded (vs : List Half) : State :=
  { idle with
    rawlen := BitVec.ofNat 16 vs.length, resBits := 77, resProto := 1, resCmd := 1,
    mem := { stateBuf := markerBytes, raw := cellsFrom 0 vs } }

/-- What is asked of the state a step answers. -/
def ask {α : Type} (o : Host.Outcome State Fault Refusal) (f : State → α) : Option α :=
  match o with
  | .next t => some (f t)
  | .fault _ => none
  | .refused _ => none

def statusAndIndex (t : State) : Word × Half := (t.status.word, t.failidx)
def bytesOf (t : State) : List Byte := (List.range 8).map t.mem.stateByte
def results (t : State) : Half × Byte × BitVec 1 := (t.resBits, t.resProto, t.resCmd)

/-! ### The MATCH commands -/

/-- V1, V2, V3. -/
theorem test_matchm_window :
    ask (exec (.matchm .hdrMark) (oneCell 0 6037)) statusAndIndex = some (0x00000006, 0xFFFF) ∧
    ask (exec (.matchm .hdrMark) (oneCell 0 6036)) statusAndIndex = some (0x00000302, 0) ∧
    ask (exec (.matchm .hdrMark) (oneCell 0 10063)) statusAndIndex = some (0x00000006, 0xFFFF) ∧
    ask (exec (.matchm .hdrMark) (oneCell 0 10064)) statusAndIndex = some (0x00000302, 0) := by decide

/-- V11. -/
theorem test_matchm_out_of_range :
    ask (exec (.matchm .hdrMark) { oneCell 4 8000 with offset := 5 }) statusAndIndex =
      some (0x00000102, 0xFFFF) := by decide

/-- V6, V7. -/
theorem test_matchs_window :
    ask (exec (.matchs .oneSpace) (oneCell 3 1161)) statusAndIndex = some (0x00000302, 3) ∧
    ask (exec (.matchs .oneSpace) (oneCell 3 1162)) statusAndIndex = some (0x00000006, 0xFFFF) ∧
    ask (exec (.matchs .oneSpace) (oneCell 3 1938)) statusAndIndex = some (0x00000006, 0xFFFF) ∧
    ask (exec (.matchs .zeroSpace) (oneCell 3 689)) statusAndIndex = some (0x00000302, 3) := by decide

/-- V8, V10. -/
theorem test_matchg_no_upper_edge :
    ask (exec (.matchg .gap) (oneCell 0 14961)) statusAndIndex = some (0x00000302, 0) ∧
    ask (exec (.matchg .gap) (oneCell 0 14962)) statusAndIndex = some (0x00000006, 0xFFFF) ∧
    ask (exec (.matchg .gap) (oneCell 0 65535)) statusAndIndex = some (0x00000006, 0xFFFF) ∧
    ask (exec (.matchg .hdrSpace) (oneCell 0 2961)) statusAndIndex = some (0x00000302, 0) := by decide

/-! ### CHKSUM, XTRACT, NOP -/

def withBytes (bs : List Host.Cell) : State := { idle with mem := { stateBuf := bs, raw := [] } }

/-- V13, V14, V15. -/
theorem test_chksum_low_byte :
    ask (exec .chksum (withBytes [(0, 0xA5), (1, 0x3C), (2, 0x80), (3, 0x9D)])) statusAndIndex =
      some (0x00000006, 0xFFFF) ∧
    ask (exec .chksum idle) statusAndIndex = some (0x00000402, 0xFFFF) ∧
    ask (exec .chksum (withBytes [(0, 0xFF), (1, 0xFF), (2, 0xFF), (3, 1)])) statusAndIndex =
      some (0x00000006, 0xFFFF) ∧
    ask (exec .chksum (withBytes [(0, 0x25), (1, 0x3C), (2, 0x80), (3, 0x9D)])) statusAndIndex =
      some (0x00000402, 0xFFFF) := by decide

/-- V15: bytes 4 to 7 are not summed. -/
theorem test_chksum_ignores_the_rest :
    ask (exec .chksum (withBytes [(0, 0xA5), (1, 0x3C), (2, 0x80), (3, 0x9D), (4, 0xFF), (7, 0xFF)]))
      statusAndIndex = some (0x00000006, 0xFFFF) := by decide

/-- V16. -/
theorem test_xtract_bit7_of_byte2 :
    ask (exec .xtract (withBytes [(2, 0x80)])) (fun t => (t.status.word, t.resCmd)) = some (0x00000006, 1) ∧
    ask (exec .xtract { withBytes [(1, 0xFF), (2, 0x7F), (3, 0xFF)] with resCmd := 1 })
      (fun t => (t.status.word, t.resCmd)) = some (0x00000006, 0) := by decide

/-- V43. -/
theorem test_nop_erases_status :
    ask (engineTurn ({ idle with
      status := { busy := false, done := true, ok := false, lockerr := false, diag := some .checksum } }.hostWrite
        0 0)) statusAndIndex = some (0x00000006, 0xFFFF) := by decide

/-! ### DECODE -/

/-- V20, strict and not. -/
theorem test_decode_frame :
    ask (exec (.decode true 32) (loaded fa)) statusAndIndex = some (0x00000006, 0xFFFF) ∧
    ask (exec (.decode true 32) (loaded fa)) bytesOf =
      some [0xA5, 0x3C, 0x80, 0x9D, 0xEE, 0xEE, 0xEE, 0xEE] ∧
    ask (exec (.decode true 32) (loaded fa)) results = some (32, 1, 1) ∧
    ask (exec (.decode false 32) (loaded fa)) bytesOf =
      some [0xA5, 0x3C, 0x80, 0x9D, 0xEE, 0xEE, 0xEE, 0xEE] := by
  decide +kernel

/-- V31, V27, V32, V36a: the bytes before the failing one are stored, and the first failing test is the one
reported. -/
theorem test_decode_failures :
    ask (exec (.decode false 32) (loaded (fa.set 41 1000))) statusAndIndex = some (0x00000302, 41) ∧
    ask (exec (.decode false 32) (loaded (fa.set 41 1000))) bytesOf =
      some [0xA5, 0x3C, 0xEE, 0xEE, 0xEE, 0xEE, 0xEE, 0xEE] ∧
    ask (exec (.decode false 32) (loaded (fa.set 41 1000))) results = some (0, 0, 0) ∧
    ask (exec (.decode true 32) { loaded fa with rawlen := 66 }) statusAndIndex = some (0x00000102, 0xFFFF) ∧
    ask (exec (.decode true 33) (loaded fa)) statusAndIndex = some (0x00000202, 0xFFFF) ∧
    ask (exec (.decode true 40) (loaded fa)) statusAndIndex = some (0x00000102, 0xFFFF) ∧
    ask (exec (.decode true 32) (loaded (fa.set 0 6036))) statusAndIndex = some (0x00000302, 0) := by
  decide +kernel

/-- The bit order with `LSB_FIRST` (the end of section 2.5): the frame of `0xA53C809D` sent from bit 0 on. -/
theorem test_decode_lsb_first :
    ask (exec (.decode true 32) { loaded (faHeader ++
        ([true, false, true, true, true, false, false, true] ++
          [false, false, false, false, false, false, false, true] ++
          [false, false, true, true, true, true, false, false] ++
          [true, false, true, false, false, true, false, true]).flatMap
            (fun b => [600, if b then 1600 else 600]) ++ faFooter)
      with cfg := { lsbFirst := true } }) (fun t => (t.status.word, bytesOf t, t.resCmd)) =
      some (0x00000006, [0x9D, 0x80, 0x3C, 0xA5, 0xEE, 0xEE, 0xEE, 0xEE], 0) := by
  decide +kernel

/-! ### ENCODE -/

/-- V37, V38: the 68 events of FA, and none below the protocol's bit count. -/
theorem test_encode_frame :
    ask (exec (.encode 32) { idle with dataLo := 0xA53C809D }) (fun t => (t.status.word,
      t.txlog.map fun e => (e.kind == .mark, BitVec.ofNat 16 e.dur))) =
      some (0x00000006, fa.zipIdx.map fun p => (p.2 % 2 == 0, p.1)) ∧
    ask (exec (.encode 31) { idle with dataLo := 0xA53C809D }) (fun t => (t.status.word, t.txlog.length)) =
      some (0x00000502, 0) := by
  decide +kernel

/-- V39, V40. -/
theorem test_encode_repeats_and_long :
    ask (exec (.encode 32) { idle with repeatCount := 2 }) (fun t =>
      (t.txlog.length, t.txlog[67]?, t.txlog[68]?, (t.txlog.map TxEvent.dur).sum)) =
      some (204, some ⟨.space, 20000⟩, some ⟨.mark, 8000⟩, 213000) ∧
    ask (exec (.encode 72) { idle with dataHi := 0xA53C809D, dataLo := 0xFF }) (fun t =>
      (t.txlog.length, t.txlog[17]?, t.txlog[19]?, t.txlog[21]?)) =
      some (148, some ⟨.space, 600⟩, some ⟨.space, 1600⟩, some ⟨.space, 600⟩) := by
  decide +kernel

/-! ### The interface, acceptance, reset -/

/-- V47. -/
theorem test_writes_truncate_and_clamp :
    (idle.hostWrite 0x0006 300).rawlen = 256 ∧ (idle.hostWrite 0x0006 0x10005).rawlen = 5 ∧
    (idle.hostWrite 0x1000 0x12345).mem.rawCell 0 = some 0x2345 ∧
    (idle.hostWrite 0x0040 0x1FF).mem.stateByte 0 = 0xFF ∧ (idle.hostWrite 0x0002 0x10001).offset = 1 ∧
    (idle.hostWrite 0x0048 0x55).mem = idle.mem ∧ (idle.hostWrite 0x0016 16).cfg.bits = 32 := by
  decide +kernel

/-- V46, V47. -/
theorem test_reads :
    (idle.hostRead 0x0001).readLog = [⟨0x0001, 0⟩] ∧ (idle.hostRead 0x000A).readLog = [⟨0x000A, 0xFFFF⟩] ∧
    (idle.hostRead 0x000B).readLog = [⟨0x000B, 0⟩] ∧ (idle.hostRead 0x1100).readLog = [⟨0x1100, 0⟩] ∧
    (idle.hostRead 0x001C).readLog = [⟨0x001C, 0x10080100⟩] ∧
    (idle.hostRead 0x0010).readLog = [⟨0x0010, 8000⟩] := by
  decide +kernel

/-- V42, the lock: a write in flight is dropped and leaves its trace, which a write of bit 3 clears once the
command has completed. -/
theorem test_lock :
    ((idle.accept 0x20000020).hostWrite 0x0004 0xFFFFFFFF).status.word = 0x00000009 ∧
    ((idle.accept 0x20000020).hostWrite 0x0004 0xFFFFFFFF).dataLo = 0 ∧
    ((idle.accept 0x20000020).hostWrite 0x0001 0x8).status.word = 0x00000009 ∧
    ({ idle with status := { busy := false, done := true, ok := true, lockerr := true, diag := none } }.hostWrite
      0x0001 0x8).status.word = 0x00000006 := by
  decide +kernel

/-- V46: the step after a placed word runs it, from reset. -/
theorem test_step_after_placing :
    ask (step (State.reset.withFetchWord 32 0x40000000)) (fun t => (t.status.word, t.resCmd)) =
      some (0x00000006, 0) ∧
    ask (step (State.reset.withFetchWord 32 0x00000000)) statusAndIndex = some (0x00000006, 0xFFFF) ∧
    ask (step (State.reset.withFetchWord 32 0x50000000)) statusAndIndex = some (0x00000102, 0xFFFF) ∧
    ask (step (State.reset.withFetchWord 32 0x60000000)) (fun t => (t.status.word, t.cmdr)) =
      some (0x00000702, 0x60000000) := by
  decide +kernel

/-- The reset state cannot be told from the free values: a cell never written reads as one of them, `DUR_W`
bits wide (R78). -/
theorem test_unwritten_cell :
    ({ idle with rawlen := 1 }.loadRaw 0).1 = (Config.freeValue 0).toNat % 2 ^ 16 ∧
    ({ idle with rawlen := 1 }.loadRaw 0).2.fresh = 1 := ⟨rfl, rfl⟩

/-! ### Cases that meet the hypotheses of the statements, one for each clause, at the edge of its range -/

/-- A unit in `REF` with a command in flight. -/
def busyUnit : State := { idle with status := { idle.status with busy := true } }

theorem written_of {s : State} {a b : Nat} (h : ∀ i, i < b → a ≤ i → s.mem.rawCell i ≠ none) :
    s.written a b := fun i h1 h2 => h i h2 h1

/-- The frame FA aligns, all of it. -/
theorem faAligned (strict : Bool) : (loaded fa).AlignedTo strict 32 32 where
  length := by decide
  strictBits := fun _ => by decide
  header := by decide
  nonzero := by decide
  wholeBytes := by decide
  fits := by decide
  cells := written_of (by decide +kernel)
  marks := by decide +kernel
  spaces := by decide +kernel

theorem faWritten : (loaded fa).written 0 68 := written_of (by decide +kernel)

theorem faWf : (loaded fa).mem.wf = true := by decide +kernel

theorem witness_DecodeOfEncodeGivesTheCommand : (Instr.decode true 65535).wf = true := by decide

theorem witness_LegalWordsAreTheWordsOfTheirCommands :
    decode 0x1800FFFF = some (.decode true 65535) ∧ decode 0x55400000 = some (.matchg .gap) := by decide

theorem witness_IllegalWords : decode 0x51800000 = none ∧ idle.status.busy = false := by decide

theorem witness_ComparisonFunctions :
    (∃ t : Tolerance, t.pct = 100) ∧ (∃ t : Tolerance, t.pct = 0) ∧ 131071 < 2 ^ 17 :=
  ⟨⟨⟨100, 0⟩, rfl⟩, ⟨⟨0, 0⟩, rfl⟩, by decide⟩

theorem witness_ComparisonLaws :
    (∃ t u : Tolerance, t.pct ≤ u.pct ∧ t.excess = u.excess ∧ inWindow t 600 600 = true ∧
      matchMark t 650 600 = true ∧ matchSpace t 550 600 = true ∧ matchAtLeast t 550 600 = true) ∧
    ∃ t : Tolerance, t.pct = 0 ∧ t.excess = 0 :=
  ⟨⟨⟨25, 50⟩, ⟨25, 50⟩, by decide⟩, ⟨⟨0, 0⟩, rfl, rfl⟩⟩

/-- MATCH: an index one past the end, a written cell, an unwritten cell, and the examples of the rules. -/
theorem witness_MatchCommands :
    ({ oneCell 4 8000 with offset := 5 } : State).rawlen.toNat ≤ 5 ∧
    (oneCell 0 6037).offset.toNat < (oneCell 0 6037).rawlen.toNat ∧
    (oneCell 0 6037).mem.rawCell 0 = some 6037 ∧ (oneCell 0 6036).mem.rawCell 0 = some 6036 ∧
    (oneCell 3 1938).offset = 3 ∧ (oneCell 3 1938).rawlen = 4 ∧
    (oneCell 3 1938).mem.rawCell 3 = some 1938 ∧ (oneCell 3 1939).mem.rawCell 3 = some 1939 ∧
    (oneCell 0 14962).mem.rawCell 0 = some 14962 ∧ (oneCell 0 14961).mem.rawCell 0 = some 14961 ∧
    (oneCell 0 65535).mem.rawCell 0 = some 65535 ∧ (oneCell 0 6037).cfg = Config.ref ∧
    ({ idle with rawlen := 1 } : State).mem.rawCell 0 = none := by
  decide +kernel

theorem witness_DecodeFailsOnAShortSequence :
    (({ loaded fa with rawlen := 65 } : State).rawlen.toNat : Int) - (0 : Int) < 2 * ((32 : Int) + 1) := by
  decide

theorem witness_StrictDecodeRejectsOtherBitCounts :
    33 ≠ (loaded fa).cfg.bits ∧
    ∃ t, exec (.decode true 33) (loaded fa) = .next t ∧ t.status.diag = some .strictBits :=
  ⟨by decide, _, rfl, by decide +kernel⟩

theorem witness_DecodeMatchesThePreHeader :
    (loaded fa).offset.toNat + 2 * (32 + 1) ≤ (loaded fa).rawlen.toNat ∧ 32 = (loaded fa).cfg.bits ∧
    matchMark Config.ref.tol ((loaded (fa.set 0 6036)).loadRaw 0).1 Config.ref.hdrMark = false ∧
    matchMark Config.ref.tol ((loaded (fa.set 1 4939)).loadRaw 0).1 Config.ref.hdrMark = true ∧
    matchSpace Config.ref.tol ((loaded (fa.set 1 4939)).loadRaw 1).1 Config.ref.hdrSpace = false := by
  decide +kernel

theorem witness_DecodeRejectsBitCountsItCannotPack :
    (loaded f16).headerPasses ∧ (loaded f16).offset.toNat + 2 * (12 + 1) ≤ (loaded f16).rawlen.toNat ∧
    ({ loaded f16 with rawlen := 146 } : State).headerPasses ∧ 0 + 2 * (72 + 1) ≤ 146 ∧
    Config.ref.stateCap < 72 / 8 := by
  decide +kernel

theorem witness_DecodeRejectsBitCountsItCannotPack_strict :
    ∃ t, exec (.decode true 32) (loaded fa) = .next t := ⟨_, rfl⟩

theorem witness_DecodeChecksTheLengthOfTheDataStage :
    ({ loaded fa with rawlen := 67 } : State).headerPasses ∧ 0 + 2 * (32 + 1) ≤ 67 ∧
    67 < 0 + (2 * 32 + 4) ∧ 32 = Config.ref.bits ∧ 32 / 8 ≤ Config.ref.stateCap := by
  decide +kernel

/-- The first bit whose mark fails, and bit 19 whose space fails. -/
theorem witness_DecodeStopsAtTheFirstBadBit :
    ((loaded (fa.set 2 486)).AlignedTo true 32 0 ∧ (loaded (fa.set 2 486)).mem.wf = true ∧
      (loaded (fa.set 2 486)).mem.rawCell 2 ≠ none ∧ ¬ (loaded (fa.set 2 486)).bitMarkAligned 0) ∧
    ((loaded (fa.set 41 1000)).AlignedTo false 32 19 ∧ (loaded (fa.set 41 1000)).mem.wf = true ∧
      (loaded (fa.set 41 1000)).mem.rawCell 40 ≠ none ∧ (loaded (fa.set 41 1000)).mem.rawCell 41 ≠ none ∧
      (loaded (fa.set 41 1000)).bitMarkAligned 19 ∧ ¬ (loaded (fa.set 41 1000)).bitSpaceAligned 19) := by
  refine ⟨⟨⟨by decide, fun _ => by decide, by decide, by decide, by decide, by decide,
      written_of (by decide +kernel), by decide, by decide⟩, by decide +kernel, by decide +kernel,
      by decide +kernel⟩,
    ⟨⟨by decide, fun _ => by decide, by decide, by decide, by decide, by decide,
      written_of (by decide +kernel), by decide +kernel, by decide +kernel⟩, by decide +kernel,
      by decide +kernel, by decide +kernel, by decide +kernel, by decide +kernel⟩⟩

/-- All data bits align, and the footer mark, or the gap, does not. -/
theorem witness_DecodeMatchesTheFooter :
    ((loaded (fa.set 66 486)).AlignedTo true 32 32 ∧ (loaded (fa.set 66 486)).mem.wf = true ∧
      (loaded (fa.set 66 486)).written 66 68 ∧ ¬ (loaded (fa.set 66 486)).footerMarkAligned 32) ∧
    ((loaded (fa.set 67 14961)).AlignedTo true 32 32 ∧ (loaded (fa.set 67 14961)).mem.wf = true ∧
      (loaded (fa.set 67 14961)).written 66 68 ∧ (loaded (fa.set 67 14961)).footerMarkAligned 32 ∧
      ¬ (loaded (fa.set 67 14961)).footerGapAligned 32) := by
  refine ⟨⟨⟨by decide, fun _ => by decide, by decide, by decide, by decide, by decide,
      written_of (by decide +kernel), by decide +kernel, by decide +kernel⟩, by decide +kernel,
      written_of (by decide +kernel), by decide +kernel⟩,
    ⟨⟨by decide, fun _ => by decide, by decide, by decide, by decide, by decide,
      written_of (by decide +kernel), by decide +kernel, by decide +kernel⟩, by decide +kernel,
      written_of (by decide +kernel), by decide +kernel, by decide +kernel⟩⟩

/-- V30: every pulse aligns and the checksum does not hold. -/
theorem witness_StrictDecodeRejectsABadChecksum :
    (loaded (fa.set 3 688)).AlignedTo true 32 32 ∧ (loaded (fa.set 3 688)).mem.wf = true ∧
    (loaded (fa.set 3 688)).written 66 68 ∧ (loaded (fa.set 3 688)).footerMarkAligned 32 ∧
    (loaded (fa.set 3 688)).footerGapAligned 32 ∧
    ((byteSum ((List.range 4).map (loaded (fa.set 3 688)).arrivedByte) ^^^ 0x1FE) % 256 ≠ 0) ∧
    ∃ t, exec (.decode true 32) (loaded (fa.set 3 688)) = .next t ∧ t.status.diag = some .checksum := by
  refine ⟨⟨by decide, fun _ => by decide, by decide, by decide, by decide, by decide,
      written_of (by decide +kernel), by decide +kernel, by decide +kernel⟩, by decide +kernel,
    written_of (by decide +kernel), by decide +kernel, by decide +kernel, by decide +kernel,
    ⟨_, rfl, by decide +kernel⟩⟩

theorem witness_DecodeOfAnAlignedFrameSucceeds :
    (loaded fa).mem.wf = true ∧ (loaded fa).AlignedTo true 32 32 ∧ (loaded fa).written 66 68 ∧
    (loaded fa).footerMarkAligned 32 ∧ (loaded fa).footerGapAligned 32 ∧
    (byteSum ((List.range 4).map (loaded fa).arrivedByte) ^^^ 0x1FE) % 256 = 0 :=
  ⟨faWf, faAligned true, written_of (by decide +kernel), by decide +kernel, by decide +kernel,
    by decide +kernel⟩

theorem witness_DecodeSucceedsExactlyOnAlignedFrames :
    (loaded fa).mem.wf = true ∧ (loaded fa).written 0 (loaded fa).rawlen.toNat := ⟨faWf, faWritten⟩

theorem witness_FailedDecodeLeavesNoResult :
    (∃ t, exec (.decode false 32) (loaded (fa.set 41 1000)) = .next t ∧ t.status.ok = false) ∧
    ∃ t, exec (.decode false 12) (loaded f16) = .next t ∧ t.status.ok = false ∧
      t.status.diag = some .badNbits :=
  ⟨⟨_, rfl, by decide +kernel⟩, ⟨_, rfl, by decide +kernel, by decide +kernel⟩⟩

theorem witness_StrictSuccessHasCountAndChecksum :
    ∃ t, exec (.decode true 32) (loaded fa) = .next t ∧ t.status.ok = true :=
  ⟨_, rfl, by decide +kernel⟩

/-- Other cells after the footer. -/
theorem witness_DecodeIgnoresCellsOutsideItsFrame :
    (∀ i, 0 ≤ i → i ≤ 0 + 2 * 32 + 3 → i < (loaded fa).rawlen.toNat →
      lookup i (cellsFrom 0 (fa ++ [77])) = (loaded fa).mem.rawCell i) ∧
    ∃ t, exec (.decode true 32) (loaded fa) = .next t := by
  refine ⟨fun i _ _ h => ?_, _, rfl⟩
  have key : ∀ i, i < 68 → lookup i (cellsFrom 0 (fa ++ [77])) = (loaded fa).mem.rawCell i := by
    decide +kernel
  exact key i h

theorem witness_ShortDecodeTakesTheOldCommandBit :
    ∃ t, exec (.decode false 16) (loaded f16) = .next t ∧ t.status.ok = true :=
  ⟨_, rfl, by decide +kernel⟩

theorem witness_ChecksumIsTheLowByteOfTheSum :
    byteSum [0xA5, 0x3C, 0x80, 0x9D] = 0x1FE ∧ byteSum [0, 0, 0, 0xFE] = 0xFE ∧
    byteSum [0xFF, 0xFF, 0xFF, 1] = 0x2FE := by decide

theorem witness_ChksumVerifiesTheStateBytes :
    (∀ j, idle.mem.stateByte j = 0) ∧ idle.cfg = Config.ref ∧
    (List.range 4).map (withBytes [(0, 0xA5), (1, 0x3C), (2, 0x80), (3, 0x9D)]).mem.stateByte =
      [0xA5, 0x3C, 0x80, 0x9D] ∧
    (List.range 4).map (withBytes [(0, 0xFF), (1, 0xFF), (2, 0xFF), (3, 1)]).mem.stateByte =
      [0xFF, 0xFF, 0xFF, 0x01] :=
  ⟨fun _ => rfl, rfl, by decide +kernel, by decide +kernel⟩

theorem witness_EncodeGuard : 31 < idle.cfg.bits ∧ idle.cfg.bits ≤ 32 ∧
    (∃ t, exec (.encode 31) idle = .next t) ∧ ∃ t, exec (.encode 32) idle = .next t :=
  ⟨by decide, by decide, ⟨_, rfl⟩, ⟨_, rfl⟩⟩

/-- A unit about to send the payload of V37. -/
def sender : State := { idle with dataLo := 0xA53C809D }

/-- The durations of `encode 32` of `0xA53C809D` are FA, and FA is loaded. -/
theorem witness_EncodeThenDecodeRecoversThePayload :
    32 % 8 = 0 ∧ sender.cfg.bits ≤ 32 ∧ 32 ≤ 8 * sender.cfg.stateCap ∧ 0 ≤ sender.repeatCount.toNat ∧
    (loaded fa).cfg = sender.cfg ∧ (loaded fa).mem.wf = true ∧
    (loaded fa).offset.toNat + 2 * 32 + 4 ≤ (loaded fa).rawlen.toNat ∧
    ∃ s₁, exec (.encode 32) sender = .next s₁ ∧
      ∀ i, i < 2 * 32 + 4 → ∃ e, s₁.txlog[sender.txlog.length + 0 * (2 * 32 + 4) + i]? = some e ∧
        (loaded fa).mem.rawCell ((loaded fa).offset.toNat + i) = some (BitVec.ofNat 16 e.dur) := by
  refine ⟨by decide, by decide, by decide, by decide, rfl, faWf, by decide,
    (sender.emit (frames sender.cfg sender.data 32 (sender.repeatCount.toNat + 1))).succeed, ?_,
    fun i hi => ?_⟩
  · show execEncode 32 sender = _
    rw [execEncode_eq, if_pos (by decide)]
  · have key : ∀ i, i < 68 →
        ((sender.emit (frames sender.cfg sender.data 32 (sender.repeatCount.toNat + 1))).succeed.txlog[
          sender.txlog.length + 0 * (2 * 32 + 4) + i]?).map (fun e => some (BitVec.ofNat 16 e.dur)) =
        some ((loaded fa).mem.rawCell ((loaded fa).offset.toNat + i)) := by
      decide +kernel
    obtain ⟨e, he, hd⟩ := Option.map_eq_some_iff.1 (key i hi)
    exact ⟨e, he, hd.symm⟩

theorem witness_NopSucceedsAndErasesTheStatus :
    idle.status.busy = false ∧
    ∃ t, engineTurn (State.hostWrite 0x0000 0x00000000 { idle with status :=
      { busy := false, done := true, ok := false, lockerr := false, diag := some .checksum } }) = .next t ∧
      (Status.word { busy := false, done := true, ok := false, lockerr := false, diag := some .checksum }) =
        0x00000402 :=
  ⟨rfl, _, rfl, by decide⟩

theorem witness_IllegalWordFailsAndStaysReadable :
    decode 0x60000000 = none ∧ decode 0x30000001 = none ∧ idle.status.busy = false ∧
    idle.status.lockerr = false ∧ ∃ t, engineTurn (idle.hostWrite 0x0000 0x60000000) = .next t :=
  ⟨by decide, by decide, rfl, rfl, _, rfl⟩

/-- The two ways `CMDR` changes. -/
theorem witness_CmdrChanges :
    (∃ t, step { idle with pending := [.hostWrite 0x0000 0x60000000] } = .next t ∧ t.cmdr ≠ idle.cmdr) ∧
    ∃ t, step { idle with cmdr := 0x60000000, pending := [.reset] } = .next t ∧ t.cmdr ≠ 0x60000000 :=
  ⟨⟨_, rfl, by decide +kernel⟩, ⟨_, rfl, by decide +kernel⟩⟩

/-- For the statements over every command: each one answers, from the reset state. -/
theorem witness_EveryCommand :
    (∃ t, exec .nop idle = .next t) ∧ (∃ t, exec (.decode true 32) idle = .next t) ∧
    (∃ t, exec (.encode 32) idle = .next t) ∧ (∃ t, exec .chksum idle = .next t) ∧
    (∃ t, exec .xtract idle = .next t) ∧ (∃ t, exec (.matchm .gap) idle = .next t) ∧
    (∃ t, exec (.matchs .gap) idle = .next t) ∧ ∃ t, exec (.matchg .gap) idle = .next t :=
  ⟨⟨_, rfl⟩, ⟨_, rfl⟩, ⟨_, rfl⟩, ⟨_, rfl⟩, ⟨_, rfl⟩, ⟨_, rfl⟩, ⟨_, rfl⟩, ⟨_, rfl⟩⟩

theorem witness_NoCommandReadsBeyondRawlen :
    ∀ k, k < (oneCell 0 6037).rawlen.toNat →
      lookup k [(0, (6037 : Half)), (1, 9)] = (oneCell 0 6037).mem.rawCell k := by
  intro k hk
  have hk : k < 1 := hk
  obtain rfl : k = 0 := by omega
  decide +kernel

/-- For the statements about the interface: both values of `BUSY`, the first and the last index of each
buffer, a written and an unwritten cell, unmapped indices at each border. -/
theorem witness_Interface :
    idle.status.busy = false ∧ busyUnit.status.busy = true ∧ idle.mem.wf = true ∧
    0 < idle.cfg.stateCap ∧ 7 < idle.cfg.stateCap ∧ 255 < idle.cfg.rawCap ∧
    (oneCell 255 9).mem.rawCell 255 = some 9 ∧ idle.mem.rawCell 255 = none ∧
    (∀ x ∈ [0xB, 0xF, 0x1E, 0x3F, 0x48, 0xFFF, 0x1100, 0xFFFF], 0xA < x ∧ ¬ (0x10 ≤ x ∧ x ≤ 0x1D) ∧
      ¬ (0x40 ≤ x ∧ x < 0x40 + idle.cfg.stateCap) ∧ ¬ (0x1000 ≤ x ∧ x < 0x1000 + idle.cfg.rawCap)) := by
  decide +kernel

theorem witness_WritesWhileBusyAreDropped :
    ({ busyUnit with pending := [.hostWrite 0x0004 1] } : State).status.busy = true := rfl

/-- A unit that has dropped a write. -/
def lockedUnit : State := { idle with status := { idle.status with lockerr := true } }

/-- The three ways `LOCKERR` changes. -/
theorem witness_LockerrChangesOnlyByHostOrReset :
    (∃ t, step { busyUnit with pending := [.hostWrite 0xFFFF 0] } = .next t ∧ t.status.lockerr = true) ∧
    (∃ t, step { lockedUnit with pending := [.hostWrite 0x0001 0x8] } = .next t ∧ t.status.lockerr = false) ∧
    ∃ t, step { lockedUnit with pending := [.reset] } = .next t ∧ t.status.lockerr = false :=
  ⟨⟨_, rfl, by decide +kernel⟩, ⟨_, rfl, by decide +kernel⟩, ⟨_, rfl, by decide +kernel⟩⟩

theorem witness_ResetAbandonsTheCommandInFlight :
    ({ busyUnit with pending := [.reset] } : State).pending = .reset :: [] := rfl

theorem witness_StepRunsTheCommandInFlight :
    busyUnit.status.busy = true ∧ decode busyUnit.cmdr = some .nop ∧ busyUnit.pending = [] ∧
    ({ busyUnit with pending := [.engine] } : State).pending = .engine :: [] := by
  decide +kernel

theorem witness_AcceptedCommandCompletesOnItsState :
    ({ busyUnit with pending := [.hostRead 1, .hostWrite 4 9, .engine] } : State).status.busy = true := rfl

/-- A state that meets the invariants, with a command in flight, and its step. -/
theorem witness_EveryStepKeepsTheInvariants :
    busyUnit.Inv ∧ ∃ t, step busyUnit = .next t := by
  refine ⟨⟨rfl, ?_, ?_, ?_, Nat.zero_le _, .inl rfl, ?_, ?_, ?_, ?_, ?_, ?_, fun _ => rfl, ?_, rfl⟩, _, rfl⟩
  all_goals simp [busyUnit, idle, State.reset]

/-- Two memories written in different orders, one of them with a byte written and cleared again. -/
theorem witness_MemoriesThatReadAlikeAreEqual :
    ∃ m k : Memory,
      m = ((idle.mem.setRawCell 1 7).setRawCell 0 0).setStateByte 3 9 ∧
      k = ((((idle.mem.setStateByte 2 5).setStateByte 3 9).setRawCell 0 0).setRawCell 1 7).setStateByte 2 0 ∧
      m.wf = true ∧ k.wf = true ∧ (∀ j, m.stateByte j = k.stateByte j) ∧
      ∀ i, m.rawCell i = k.rawCell i :=
  ⟨_, _, rfl, rfl, by decide +kernel, by decide +kernel, fun _ => rfl, fun _ => rfl⟩

/-- `REF` with a gap within the excess margin: any value passes as the footer gap. -/
def shortGap : Config := { Config.ref with gap := 50, valid := by decide }

/-- FA without its last cell, which was never written. -/
def gapUnwritten : State := { loaded (fa.take 67) with cfg := shortGap, rawlen := 68 }

/-- A DECODE that succeeds over written cells, and one that succeeds although it reads a cell never written. -/
theorem witness_SuccessfulDecodeLeavesExactlyItsResult :
    (∃ t, exec (.decode true 32) (loaded fa) = .next t ∧ t.status.ok = true) ∧
    gapUnwritten.mem.rawCell 67 = none ∧
    ∃ t, exec (.decode true 32) gapUnwritten = .next t ∧ t.status.ok = true :=
  ⟨⟨_, rfl, by decide +kernel⟩, by decide +kernel, ⟨_, rfl, by decide +kernel⟩⟩

end Sys2Proof.Tests
end

section

namespace Sys2Proof

open Sys2Proof.Machine

/-- The self-match condition of R10, match by match. -/
theorem Params.selfMatch_iff (p : Params) :
    p.selfMatch = true ↔
      matchMark p.tol p.hdrMark p.hdrMark = true ∧ matchSpace p.tol p.hdrSpace p.hdrSpace = true ∧
      matchMark p.tol p.bitMark p.bitMark = true ∧ matchSpace p.tol p.oneSpace p.oneSpace = true ∧
      matchSpace p.tol p.zeroSpace p.zeroSpace = true ∧ matchAtLeast p.tol p.gap p.gap = true := by
  simp only [Params.selfMatch, Bool.and_eq_true, and_assoc]

/-- Settles O8: each of the three tests of `Params.valid` is its condition of R10, the one on the window edges
by `Params.separated_iff`; a state's configuration carries its proof of validity. -/
theorem validConfigIsTheConditionOfTheSpec : Obligations.ValidConfigIsTheConditionOfTheSpec := by
  refine ⟨fun p => ?_, fun s => s.cfg.valid⟩
  rw [Params.valid_iff, Params.tablesHold_iff, Params.selfMatch_iff, Params.separated_iff]
  simp only [and_assoc]

end Sys2Proof

end

section

namespace Sys2Proof

/-- `TOL_PCT` and `MARK_EXCESS` fit 16 bits (spec/00_scope.md R9). -/
theorem Config.tol_bounds (c : Config) : c.tol.pct ≤ 100 ∧ c.tol.excess < 2 ^ 16 := by
  obtain ⟨-, -, -, -, hpct, hexcess, hdurW, -⟩ := (Params.tablesHold_iff _).1 c.tables
  exact ⟨hpct, lt_of_lt_of_le hexcess (Nat.pow_le_pow_right (by decide) hdurW.2)⟩

/-- `K_DUTY` is a percentage, and not 0 (spec/00_scope.md R9). -/
theorem Config.duty_bounds (c : Config) : 1 ≤ c.duty ∧ c.duty ≤ 100 := by
  obtain ⟨-, -, -, -, -, -, -, -, -, -, hduty⟩ := (Params.tablesHold_iff _).1 c.tables
  exact hduty

namespace Machine

/-! ### Reads and writes by what the index names (spec/10_state.md R21, R71) -/

/-- A dropped write, field by field (spec/20_memory.md R71). -/
theorem State.dropWrite_eq (s : State) :
    s.dropWrite = { s with status := { s.status with lockerr := true } } := rfl

/-- A read of the register an index names, where that register has a value. -/
theorem State.hostRead_of_regAt {s : State} {x : Half} {r : Reg} (hx : regAt s.cfg x = r)
    (hr : s.unspecifiedWidth r = none) : s.hostRead x = s.recordRead x (s.regWord r) := by
  subst hx
  exact State.hostRead_exact hr

/-- A write to a register that ignores writes changes nothing, or is dropped under the lock. -/
theorem State.hostWrite_of_ignores {s : State} {x : Half} {r : Reg} {v : Word}
    (hx : regAt s.cfg x = r) (hr : s.writeReg v r = s) :
    (s.status.busy = false → s.hostWrite x v = s) ∧
    (s.status.busy = true →
      s.hostWrite x v = { s with status := { s.status with lockerr := true } }) := by
  subst hx
  exact ⟨fun hb => (State.hostWrite_idle hb x v).trans hr, fun hb => State.hostWrite_busy hb x v⟩

/-- `CMD` stands at index 0 (R21). -/
theorem regAt_zero (c : Config) : regAt c 0x0000 = .cmd := rfl

/-! ### The parameter registers (spec/10_state.md R32) -/

/-- The profile and parameter registers, by rising index. -/
def ParamReg.all : List ParamReg :=
  [.hdrMark, .hdrSpace, .bitMark, .oneSpace, .zeroSpace, .gap, .bits, .stateLen, .tolPct, .markExcess,
    .freq, .duty, .caps, .protoTag]

/-- The index of a parameter register: the inverse of `paramRegAt`, by `regAt_paramIndex`. -/
def ParamReg.index : ParamReg → Half
  | .hdrMark => 0x0010
  | .hdrSpace => 0x0011
  | .bitMark => 0x0012
  | .oneSpace => 0x0013
  | .zeroSpace => 0x0014
  | .gap => 0x0015
  | .bits => 0x0016
  | .stateLen => 0x0017
  | .tolPct => 0x0018
  | .markExcess => 0x0019
  | .freq => 0x001A
  | .duty => 0x001B
  | .caps => 0x001C
  | .protoTag => 0x001D

/-- The number a parameter register returns: of `K_FREQ`, which has no bound, its low 32 bits. It is the
number of `paramWord`, by `paramWord_toNat`. -/
def ParamReg.value (c : Config) : ParamReg → Nat
  | .hdrMark => c.hdrMark
  | .hdrSpace => c.hdrSpace
  | .bitMark => c.bitMark
  | .oneSpace => c.oneSpace
  | .zeroSpace => c.zeroSpace
  | .gap => c.gap
  | .bits => c.bits
  | .stateLen => c.stateLen
  | .tolPct => c.tol.pct
  | .markExcess => c.tol.excess
  | .freq => c.freq % 2 ^ 32
  | .duty => c.duty
  | .caps => c.rawCap + c.stateCap * 2 ^ 16 + (if c.lsbFirst then 2 ^ 23 else 0) + c.durW * 2 ^ 24
  | .protoTag => c.protoTag

@[simp] theorem regAt_paramIndex (c : Config) (p : ParamReg) : regAt c p.index = .param p := by
  cases p <;> rfl

/-- No parameter but `K_FREQ` is cut: the bounds of spec/00_scope.md R8 and R9 keep each below `2 ^ 32`. -/
theorem paramWord_toNat (c : Config) (p : ParamReg) : (paramWord c p).toNat = p.value c := by
  have hdur {v : Nat} (hv : v ∈ [c.hdrMark, c.hdrSpace, c.bitMark, c.oneSpace, c.zeroSpace, c.gap]) :
      (BitVec.ofNat 32 v).toNat = v := by
    have := c.duration_lt hv
    exact (BitVec.toNat_ofNat _ _).trans (Nat.mod_eq_of_lt (by omega))
  have hbits := c.bits_bounds
  have hlen := c.stateLen_eq
  have htol := c.tol_bounds
  have hduty := c.duty_bounds
  have htag := c.protoTag_bounds
  cases p with
  | hdrMark => exact hdur (by simp)
  | hdrSpace => exact hdur (by simp)
  | bitMark => exact hdur (by simp)
  | oneSpace => exact hdur (by simp)
  | zeroSpace => exact hdur (by simp)
  | gap => exact hdur (by simp)
  | freq => exact BitVec.toNat_ofNat _ _
  | caps => exact capsWord_toNat c
  | bits | stateLen | tolPct | markExcess | duty | protoTag =>
    exact (BitVec.toNat_ofNat _ _).trans (Nat.mod_eq_of_lt (by omega))

/-- The profile constant a selector names stands at `0x0010 + SEL` (spec/30_encoding.md R93). -/
theorem paramWord_at_sel (c : Config) (sel : Sel) :
    ∃ p, regAt c (0x0010 + (selCode sel).setWidth 16) = .param p ∧
      paramWord c p = BitVec.ofNat 32 (expected c sel) := by
  cases sel <;> exact ⟨_, rfl, rfl⟩

/-! ### No step changes a parameter (R32) -/

/-- The lines of a command and its end leave the parameters. -/
theorem Flow.Within.close_cfg {α : Type} {k b : Nat} {s : State} {f : Flow α} (h : f.Within k b s) :
    f.close.cfg = s.cfg := by
  cases f with
  | go a t => exact Touched.cfg (t := t) h
  | stop c idx t => exact Touched.cfg (t := t) h.1

theorem State.matchOne_cfg (test : Tolerance → Nat → Nat → Bool) (sel : Sel) (s : State) :
    (s.matchOne test sel).cfg = s.cfg :=
  (matchSteps_within test sel s).close_cfg

theorem execDecode_cfg {strict : Bool} {n : Nat} {s t : State} (h : execDecode strict n s = .next t) :
    t.cfg = s.cfg := by
  rcases execDecode_outcome h with ⟨v, rfl, hv, -⟩ | ⟨c, idx, v, rfl, hv, -⟩
  · exact hv.cfg
  · exact hv.cfg

theorem execEncode_cfg {n : Nat} {s t : State} (h : execEncode n s = .next t) : t.cfg = s.cfg := by
  rw [execEncode_eq] at h
  obtain rfl := Host.Outcome.next.inj h
  split <;> rfl

theorem exec_cfg {i : Instr} {s t : State} (h : exec i s = .next t) : t.cfg = s.cfg := by
  cases i with
  | nop => exact (Host.Outcome.next.inj h) ▸ rfl
  | decode strict n => exact execDecode_cfg h
  | encode n => exact execEncode_cfg h
  | chksum => exact (Host.Outcome.next.inj h) ▸ (require_within 0 0 _ (by simp) s).close_cfg
  | xtract => exact (Host.Outcome.next.inj h) ▸ rfl
  | matchm sel => exact (Host.Outcome.next.inj h) ▸ s.matchOne_cfg _ sel
  | matchs sel => exact (Host.Outcome.next.inj h) ▸ s.matchOne_cfg _ sel
  | matchg sel => exact (Host.Outcome.next.inj h) ▸ s.matchOne_cfg _ sel

theorem engineTurn_cfg {s t : State} (h : engineTurn s = .next t) : t.cfg = s.cfg := by
  unfold engineTurn at h
  split at h
  · split at h
    · exact exec_cfg h
    · obtain rfl := Host.Outcome.next.inj h
      rfl
  · obtain rfl := Host.Outcome.next.inj h
    rfl

theorem State.hostRead_cfg (s : State) (x : Half) : (s.hostRead x).cfg = s.cfg := by
  rw [State.hostRead_frame]

theorem turn_cfg {e : Event} {s t : State} (h : turn e s = .next t) : t.cfg = s.cfg := by
  cases e with
  | hostRead x => exact (Host.Outcome.next.inj h) ▸ s.hostRead_cfg x
  | hostWrite x v => exact (Host.Outcome.next.inj h) ▸ s.hostWrite_cfg x v
  | engine => exact engineTurn_cfg h
  | reset => exact (Host.Outcome.next.inj h) ▸ s.resetUnit_cfg

theorem step_of_pending {s : State} {e : Event} {rest : List Event} (h : s.pending = e :: rest) :
    step s = turn e (s.withPending rest) := by
  unfold step
  rw [h]

theorem step_cfg {s t : State} (h : step s = .next t) : t.cfg = s.cfg := by
  unfold step at h
  split at h
  · exact engineTurn_cfg h
  · next e rest _ => exact turn_cfg (s := s.withPending rest) h

/-! ### The obligations -/

/-- Settles O44: the fourteen indices are those of `ParamReg.all`, each read through `paramWord_toNat`; the
parameters are kept by every turn of every agent, by `step_cfg`. -/
theorem parameterRegistersAreHardwired : Obligations.ParameterRegistersAreHardwired := by
  refine ⟨fun s => ?_, fun s sel => ?_, fun s t => step_cfg⟩
  · show ∀ p ∈ ParamReg.all.map (fun p => (p.index, p.value s.cfg)), _
    rw [List.forall_mem_map]
    intro p _
    have hp := regAt_paramIndex s.cfg p
    exact ⟨⟨paramWord s.cfg p, paramWord_toNat s.cfg p, State.hostRead_of_regAt hp rfl⟩,
      fun _ => State.hostWrite_of_ignores hp rfl⟩
  · obtain ⟨p, hp, hword⟩ := paramWord_at_sel s.cfg sel
    rw [← hword]
    exact State.hostRead_of_regAt hp rfl

/-- Settles O45: such an index names no register, by `regAt_unmapped`; a host's turn always answers. -/
theorem unmappedIndicesReadZero : Obligations.UnmappedIndicesReadZero := by
  refine ⟨fun s index v h1 h2 h3 h4 => ?_, fun s index v rest h => ?_⟩
  · have hu := regAt_unmapped h1 h2 h3 h4
    exact ⟨State.hostRead_of_regAt hu rfl, State.hostWrite_of_ignores hu rfl⟩
  · rcases h with h | h
    · exact ⟨_, step_of_pending h⟩
    · exact ⟨_, step_of_pending h⟩

/-- Settles O39: index 0 names `CMD`, whose write is the acceptance and whose value is always exact. -/
theorem writeToCmdAcceptsACommand : Obligations.WriteToCmdAcceptsACommand := by
  refine ⟨fun s v => ⟨fun hb => ?_, fun hb => ?_, State.hostRead_of_regAt (regAt_zero _) rfl⟩, rfl⟩
  · rw [State.hostWrite_idle hb, regAt_zero]
    rfl
  · rw [State.hostWrite_busy hb, State.dropWrite_eq]

/-- Settles O48: each value is read off `State.reset`; the reset of the unit keeps the parameters. -/
theorem resetGivesTheTableOfValues : Obligations.ResetGivesTheTableOfValues := by
  refine ⟨⟨rfl, by decide, ?flags⟩, State.resetUnit_cfg⟩
  case flags =>
    exact ⟨rfl, rfl, rfl, rfl, rfl, rfl, rfl, rfl, rfl, rfl, rfl, rfl, rfl, rfl,
      fun _ => rfl, fun _ => rfl, rfl⟩

end Machine

end Sys2Proof

end

section

namespace Sys2Proof.Machine

/-- The step of a host write, once its turn is taken from the schedule. -/
theorem step_of_hostWrite {s : State} {x : Half} {v : Word} {rest : List Event}
    (h : s.pending = .hostWrite x v :: rest) : step s = .next ((s.withPending rest).hostWrite x v) :=
  step_of_pending h

/-- Settles O40: taking the turn from the schedule leaves `BUSY`, and under the lock the write is dropped
whatever its index names, by `State.hostWrite_busy`. -/
theorem writesWhileBusyAreDropped : Obligations.WritesWhileBusyAreDropped := by
  intro s index v rest hbusy hpending
  have hlocked : (s.withPending rest).status.busy = true := hbusy
  rw [step_of_hostWrite hpending, State.hostWrite_busy hlocked, State.dropWrite_eq]
  rfl

end Sys2Proof.Machine

end

section

namespace Sys2Proof

/-! ### The fields of a word as numbers (spec/30_encoding.md R91) -/

@[simp] theorem fieldsOf_op_toNat (w : Word) : (fieldsOf w).op.toNat = w.toNat / 2 ^ 28 := by
  have := w.isLt
  simp only [fieldsOf, BitVec.extractLsb'_toNat, Nat.shiftRight_eq_div_pow]
  omega

@[simp] theorem fieldsOf_s_toNat (w : Word) : (fieldsOf w).s.toNat = w.toNat / 2 ^ 27 % 2 := by
  simp only [fieldsOf, BitVec.extractLsb'_toNat, Nat.shiftRight_eq_div_pow, pow_one]

@[simp] theorem fieldsOf_kind_toNat (w : Word) : (fieldsOf w).kind.toNat = w.toNat / 2 ^ 25 % 4 := by
  simp only [fieldsOf, BitVec.extractLsb'_toNat, Nat.shiftRight_eq_div_pow, Nat.reducePow]

@[simp] theorem fieldsOf_sel_toNat (w : Word) : (fieldsOf w).sel.toNat = w.toNat / 2 ^ 22 % 8 := by
  simp only [fieldsOf, BitVec.extractLsb'_toNat, Nat.shiftRight_eq_div_pow, Nat.reducePow]

@[simp] theorem fieldsOf_rsv_toNat (w : Word) : (fieldsOf w).rsv.toNat = w.toNat / 2 ^ 16 % 2 ^ 6 := by
  simp only [fieldsOf, BitVec.extractLsb'_toNat, Nat.shiftRight_eq_div_pow]

@[simp] theorem fieldsOf_nbits_toNat (w : Word) : (fieldsOf w).nbits.toNat = w.toNat % 2 ^ 16 := by
  simp only [fieldsOf, BitVec.extractLsb'_toNat, Nat.shiftRight_zero]

/-- The flag `S` is bit 27. -/
theorem fieldsOf_s (w : Word) : (fieldsOf w).s = BitVec.ofBool (w.getLsbD 27) := by
  apply BitVec.eq_of_getLsbD_eq
  intro i hi
  interval_cases i
  simp [fieldsOf]

/-! ### Words compared field by field -/

theorem Fields.eq_iff (f g : Fields) :
    f = g ↔ f.op = g.op ∧ f.s = g.s ∧ f.kind = g.kind ∧ f.sel = g.sel ∧ f.rsv = g.rsv ∧
      f.nbits = g.nbits := by
  obtain ⟨op, s, kind, sel, rsv, nbits⟩ := f
  obtain ⟨op', s', kind', sel', rsv', nbits'⟩ := g
  rw [Fields.mk.injEq]

theorem fieldsOf_injective : Function.Injective fieldsOf :=
  Function.LeftInverse.injective wordOf_fieldsOf

/-- A masked word is compared field by field: a mask of R95 keeps a field whole or blanks it. -/
theorem and_wordOf_eq_iff (w : Word) (mask v : Fields) :
    w &&& wordOf mask = wordOf v ↔
      (fieldsOf w).op &&& mask.op = v.op ∧ (fieldsOf w).s &&& mask.s = v.s ∧
      (fieldsOf w).kind &&& mask.kind = v.kind ∧ (fieldsOf w).sel &&& mask.sel = v.sel ∧
      (fieldsOf w).rsv &&& mask.rsv = v.rsv ∧ (fieldsOf w).nbits &&& mask.nbits = v.nbits := by
  have hand (x y : Word) : fieldsOf (x &&& y) =
      { op := (fieldsOf x).op &&& (fieldsOf y).op, s := (fieldsOf x).s &&& (fieldsOf y).s,
        kind := (fieldsOf x).kind &&& (fieldsOf y).kind, sel := (fieldsOf x).sel &&& (fieldsOf y).sel,
        rsv := (fieldsOf x).rsv &&& (fieldsOf y).rsv, nbits := (fieldsOf x).nbits &&& (fieldsOf y).nbits } := by
    simp only [fieldsOf, BitVec.extractLsb'_and]
  rw [← fieldsOf_injective.eq_iff, Fields.eq_iff, hand, fieldsOf_wordOf, fieldsOf_wordOf]

/-! ### What the decoder answers (R96, R97) -/

theorem onlyIf_eq_some {b : Bool} {i j : Instr} : onlyIf b i = some j ↔ b = true ∧ i = j := by
  cases b <;> simp [onlyIf]

theorem onlyIf_eq_none {b : Bool} {i : Instr} : onlyIf b i = none ↔ b = false := by
  cases b <;> simp [onlyIf]

theorem matchOf_eq_none (kind : BitVec 2) (sel : Sel) : matchOf kind sel = none ↔ kind.toNat = 3 := by
  revert kind
  cases sel <;> decide

theorem matchOf_eq_some {kind : BitVec 2} {sel : Sel} {i : Instr} :
    matchOf kind sel = some i ↔
      kind = 0 ∧ .matchm sel = i ∨ kind = 1 ∧ .matchs sel = i ∨ kind = 2 ∧ .matchg sel = i := by
  obtain ⟨⟨k, hk⟩⟩ := kind
  interval_cases k <;> simp [matchOf]

theorem ofBool_beq_one (s : BitVec 1) : BitVec.ofBool (s == 1) = s := by
  revert s
  decide

/-- Every word the decoder accepts is the word of its command: the opcode tells the row, the fields the row
does not use are zero, and the others are its operands. -/
theorem encodeFields_of_decodeFields {f : Fields} {i : Instr} (h : decodeFields f = some i) :
    i.wf = true ∧ f = encodeFields i := by
  obtain ⟨op, s, kind, sel, rsv, nbits⟩ := f
  unfold decodeFields at h
  split at h
  case isTrue => cases h
  case isFalse hrsv =>
  obtain rfl : rsv = 0 := not_not.1 hrsv
  dsimp only at h
  generalize hop : op.toNat = k at h
  obtain rfl : BitVec.ofNat 4 k = op := by simp [← hop]
  split at h
  case h_1 | h_4 | h_5 =>
    obtain ⟨hunused, rfl⟩ := onlyIf_eq_some.1 h
    simp_all [Instr.wf, encodeFields]
  case h_2 =>
    obtain ⟨hunused, rfl⟩ := onlyIf_eq_some.1 h
    have hs := ofBool_beq_one s
    simp_all [Instr.wf, nbitsFits, encodeFields, nbits.isLt]
  case h_3 =>
    obtain ⟨hunused, rfl⟩ := onlyIf_eq_some.1 h
    simp_all [Instr.wf, nbitsFits, encodeFields, nbits.isLt]
  case h_6 =>
    split at h
    case isFalse => cases h
    case isTrue hunused =>
    split at h
    case h_2 => cases h
    case h_1 x sel' hsel =>
    have hcode := selCode_of_selOf hsel
    rcases matchOf_eq_some.1 h with ⟨rfl, rfl⟩ | ⟨rfl, rfl⟩ | ⟨rfl, rfl⟩ <;>
      simp_all [Instr.wf, encodeFields]
  case h_7 => cases h

theorem ofNat_nbits_toNat {n : Nat} (h : nbitsFits n = true) : (BitVec.ofNat 16 n).toNat = n :=
  (BitVec.toNat_ofNat n 16).trans (Nat.mod_eq_of_lt (of_decide_eq_true h))

/-- The word of a well-formed command decodes to it. -/
theorem decodeFields_encodeFields {i : Instr} (h : i.wf = true) :
    decodeFields (encodeFields i) = some i := by
  cases i with
  | nop | chksum | xtract => rfl
  | decode strict n =>
    cases strict <;> simp [decodeFields, encodeFields, onlyIf, ofNat_nbits_toNat h, -BitVec.toNat_ofNat]
  | encode n => simp [decodeFields, encodeFields, onlyIf, ofNat_nbits_toNat h, -BitVec.toNat_ofNat]
  | matchm sel | matchs sel | matchg sel => simp [decodeFields, encodeFields, matchOf]

/-- The decoder answers a command exactly on the one word of that command (R95, R97). -/
theorem decode_eq_some_iff (w : Word) (i : Instr) :
    decode w = some i ↔ i.wf = true ∧ fieldsOf w = encodeFields i :=
  ⟨encodeFields_of_decodeFields, fun ⟨hwf, hw⟩ => by rw [decode, hw, decodeFields_encodeFields hwf]⟩

/-- An operand `n` is the number of the field `NBITS` (R92). -/
theorem nbits_operand_iff (v : BitVec 16) (n : Nat) :
    nbitsFits n = true ∧ v = BitVec.ofNat 16 n ↔ n = v.toNat := by
  constructor
  · rintro ⟨hn, rfl⟩
    exact (ofNat_nbits_toNat hn).symm
  · rintro rfl
    exact ⟨decide_eq_true v.isLt, by simp⟩

/-! ### The rows of the opcode map (R95) -/

/-- A row that uses no field has one word. -/
theorem decode_eq_some_iff_of_one_word {i : Instr} (h : i.wf = true) (w : Word) :
    decode w = some i ↔ w &&& 0xFFFFFFFF = encode i := by
  have hmask : w &&& 0xFFFFFFFF = w := BitVec.and_allOnes
  rw [decode_eq_some_iff, and_iff_right h, hmask, ← fieldsOf_injective.eq_iff (a := w), encode,
    fieldsOf_wordOf]

theorem decode_eq_decode_iff (w : Word) (strict : Bool) (n : Nat) :
    decode w = some (.decode strict n) ↔
      w &&& 0xF7FF0000 = 0x10000000 ∧ strict = w.getLsbD 27 ∧ n = w.toNat % 2 ^ 16 := by
  have hrow : w &&& 0xF7FF0000 = 0x10000000 ↔ _ := and_wordOf_eq_iff w
    ⟨.allOnes 4, 0, .allOnes 2, .allOnes 3, .allOnes 6, 0⟩ ⟨1, 0, 0, 0, 0, 0⟩
  have hstrict : (fieldsOf w).s = BitVec.ofBool strict ↔ strict = w.getLsbD 27 := by
    rw [fieldsOf_s, BitVec.ofBool_eq_iff_eq, eq_comm]
  rw [decode_eq_some_iff, hrow, Fields.eq_iff, ← fieldsOf_nbits_toNat, ← nbits_operand_iff, ← hstrict]
  simp only [encodeFields, Instr.wf, BitVec.and_allOnes, BitVec.and_zero, BitVec.ofNat_eq_ofNat]
  tauto

theorem decode_eq_encode_iff (w : Word) (n : Nat) :
    decode w = some (.encode n) ↔ w &&& 0xFFFF0000 = 0x20000000 ∧ n = w.toNat % 2 ^ 16 := by
  have hrow : w &&& 0xFFFF0000 = 0x20000000 ↔ _ := and_wordOf_eq_iff w
    ⟨.allOnes 4, .allOnes 1, .allOnes 2, .allOnes 3, .allOnes 6, 0⟩ ⟨2, 0, 0, 0, 0, 0⟩
  rw [decode_eq_some_iff, hrow, Fields.eq_iff, ← fieldsOf_nbits_toNat, ← nbits_operand_iff]
  simp only [encodeFields, Instr.wf, BitVec.and_allOnes, BitVec.and_zero, BitVec.ofNat_eq_ofNat]
  tauto

/-- The three MATCH rows, one for each value of `KIND`: the mask blanks `SEL` only, and the constraint names
its value. -/
theorem decode_eq_match_iff {i : Instr} {kind : BitVec 2} {sel : Sel}
    (hwf : i.wf = true) (hi : encodeFields i = ⟨5, 0, kind, selCode sel, 0, 0⟩) (w : Word) :
    decode w = some i ↔
      w &&& 0xFE3FFFFF = wordOf ⟨5, 0, kind, 0, 0, 0⟩ ∧ w.toNat / 2 ^ 22 % 8 = (selCode sel).toNat := by
  have hrow : w &&& 0xFE3FFFFF = wordOf ⟨5, 0, kind, 0, 0, 0⟩ ↔ _ := and_wordOf_eq_iff w
    ⟨.allOnes 4, .allOnes 1, .allOnes 2, 0, .allOnes 6, .allOnes 16⟩ ⟨5, 0, kind, 0, 0, 0⟩
  rw [decode_eq_some_iff, and_iff_right hwf, hi, hrow, Fields.eq_iff, ← fieldsOf_sel_toNat, BitVec.toNat_inj]
  simp only [BitVec.and_allOnes, BitVec.and_zero, BitVec.ofNat_eq_ofNat]
  tauto

/-- Settles O3, row by row: the row's mask compares the fields its command leaves at a fixed value, and the
fields it blanks are the operands. -/
theorem wordsSelectTheRowsOfTheOpcodeMap : Obligations.WordsSelectTheRowsOfTheOpcodeMap := by
  intro w
  refine ⟨decode_eq_some_iff_of_one_word rfl w, decode_eq_decode_iff w, decode_eq_encode_iff w,
    decode_eq_some_iff_of_one_word rfl w, decode_eq_some_iff_of_one_word rfl w, fun p hp => ?matchRow⟩
  case matchRow =>
    have hcode : p.2 = (selCode p.1).toNat := by
      revert p
      decide
    rw [hcode]
    exact ⟨decode_eq_match_iff (kind := 0) rfl rfl w, decode_eq_match_iff (kind := 1) rfl rfl w,
      decode_eq_match_iff (kind := 2) rfl rfl w⟩

/-! ### The illegal words (R96) -/

/-- The list of R96, clause by clause, on the fields. -/
theorem decodeFields_eq_none_iff (f : Fields) :
    decodeFields f = none ↔
      6 ≤ f.op.toNat ∨ f.rsv.toNat ≠ 0 ∨ (f.s.toNat = 1 ∧ f.op.toNat ≠ 1) ∨
      ((f.kind.toNat ≠ 0 ∨ f.sel.toNat ≠ 0) ∧ f.op.toNat ≠ 5) ∨
      (f.nbits.toNat ≠ 0 ∧ f.op.toNat ∈ [0, 3, 4, 5]) ∨
      (f.op.toNat = 5 ∧ (f.kind.toNat = 3 ∨ 6 ≤ f.sel.toNat)) := by
  obtain ⟨op, s, kind, sel, rsv, nbits⟩ := f
  have hs : s.toNat = 1 ↔ s ≠ 0 := by
    revert s
    decide
  have hzero {k : Nat} (x : BitVec k) : x.toNat ≠ 0 ↔ x ≠ 0 := by simp [BitVec.toNat_eq]
  unfold decodeFields
  simp only [hs, hzero]
  split
  case isTrue hrsv => exact iff_of_true rfl (.inr (.inl hrsv))
  case isFalse hrsv =>
  obtain rfl : rsv = 0 := not_not.1 hrsv
  generalize op.toNat = k
  split
  case h_1 | h_2 | h_3 | h_4 | h_5 => simp [onlyIf_eq_none, imp_iff_not_or, or_assoc]
  case h_6 =>
    split
    case isTrue hunused =>
      obtain ⟨rfl, rfl⟩ : s = 0 ∧ nbits = 0 := by simpa using hunused
      split
      case h_1 sel' hsel =>
        have hlegal : sel.toNat < 6 := by simpa [hsel] using (selOf_eq_none sel).not
        simp [matchOf_eq_none, hlegal]
      case h_2 hsel => simp [(selOf_eq_none sel).1 hsel]
    case isFalse hunused =>
      have hused : s ≠ 0 ∨ nbits ≠ 0 := by simpa [imp_iff_not_or] using hunused
      have hlisted : s ≠ 0 ∨ nbits ≠ 0 ∨ kind.toNat = 3 ∨ 6 ≤ sel.toNat := hused.imp_right .inl
      simpa using hlisted
  case h_7 =>
    have hop : 6 ≤ k := by
      simp only [imp_false] at *
      omega
    exact iff_of_true rfl (.inl hop)

namespace Machine

/-- A word written to `CMD` while `BUSY = 0` is accepted (spec/10_state.md R22). -/
theorem State.hostWrite_cmd {s : State} (h : s.status.busy = false) (w : Word) :
    s.hostWrite 0x0000 w = s.accept w := by
  rw [State.hostWrite_idle h, regAt_zero]
  rfl

/-- The completion step of an illegal word (spec/44_control.md R186). -/
theorem engineTurn_of_illegal {s : State} (hbusy : s.status.busy = true) (h : decode s.cmdr = none) :
    engineTurn s = .next s.completeIllegal := by
  simp [engineTurn, hbusy, h]

end Machine

/-- Settles O4: the list is `decodeFields_eq_none_iff` with the fields as numbers; the word is accepted by
`State.hostWrite_cmd`, and its completion writes again every flag that the acceptance wrote. -/
theorem illegalWordsAreThoseOfTheList : Obligations.IllegalWordsAreThoseOfTheList := by
  intro w
  refine ⟨?list, fun hw s hidle => ?completion⟩
  case list =>
    rw [decode, decodeFields_eq_none_iff]
    simp only [fieldsOf_op_toNat, fieldsOf_s_toNat, fieldsOf_kind_toNat, fieldsOf_sel_toNat,
      fieldsOf_rsv_toNat, fieldsOf_nbits_toNat]
  case completion =>
    rw [Machine.State.hostWrite_cmd hidle, Machine.engineTurn_of_illegal (s := s.accept w) rfl hw]
    rfl

end Sys2Proof

end

section

namespace Sys2Proof.Machine

/-! ### The edges of the window (spec/40_match.md R110, R111, R114) -/

theorem lo_zero (t : Tolerance) : lo t 0 = 0 := by
  simp [lo]

theorem lo_of_pct_hundred {t : Tolerance} (h : t.pct = 100) (d : Nat) : lo t d = 0 := by
  simp [lo, h]

theorem lo_of_pct_zero {t : Tolerance} (h : t.pct = 0) (d : Nat) : lo t d = d := by
  simp [lo, h]

theorem hi_zero (t : Tolerance) : hi t 0 = 1 := by
  simp [hi]

theorem hi_of_pct_zero {t : Tolerance} (h : t.pct = 0) (d : Nat) : hi t d = d + 1 := by
  simp [hi, h]

theorem lo_le_hi (t : Tolerance) (d : Nat) : lo t d ≤ hi t d :=
  (lo_le t d).trans (lt_hi t d).le

/-- A greater tolerance lowers the lower edge. -/
theorem lo_le_lo_of_pct_le {t u : Tolerance} (h : t.pct ≤ u.pct) (d : Nat) : lo u d ≤ lo t d :=
  Nat.div_le_div_right (Nat.mul_le_mul_left d (Nat.sub_le_sub_left h 100))

/-- A greater tolerance raises the upper edge. -/
theorem hi_le_hi_of_pct_le {t u : Tolerance} (h : t.pct ≤ u.pct) (d : Nat) : hi t d ≤ hi u d :=
  Nat.succ_le_succ (Nat.div_le_div_right (Nat.mul_le_mul_left d (Nat.add_le_add_left h 100)))

/-- The scaled duration of R110 fits 24 bits whatever `TOL_PCT` is: the factor is at most 100. -/
theorem mul_pct_lt {d : Nat} (h : d < 2 ^ 17) (pct : Nat) : d * (100 - pct) < 2 ^ 24 :=
  calc d * (100 - pct) ≤ d * 100 := Nat.mul_le_mul_left d (Nat.sub_le 100 pct)
    _ < 2 ^ 24 := by omega

/-- The subtraction of natural numbers is the saturating one of R114. -/
theorem shrunk_eq_ite (t : Tolerance) (d : Nat) :
    shrunk t d = if t.excess ≤ d then d - t.excess else 0 := by
  unfold shrunk
  split
  · rfl
  · omega

/-! ### What a match accepts (R112 to R116) -/

theorem inWindow_of_pct_le {t u : Tolerance} (h : t.pct ≤ u.pct) {m d : Nat}
    (hm : inWindow t m d = true) : inWindow u m d = true := by
  rw [inWindow_iff] at hm ⊢
  exact ⟨(lo_le_lo_of_pct_le h d).trans hm.1, hm.2.trans (hi_le_hi_of_pct_le h d)⟩

theorem matchMark_of_pct_le {t u : Tolerance} (h : t.pct ≤ u.pct) (hx : t.excess = u.excess) {m d : Nat}
    (hm : matchMark t m d = true) : matchMark u m d = true := by
  rw [matchMark, stretched, ← hx]
  exact inWindow_of_pct_le h hm

theorem matchSpace_of_pct_le {t u : Tolerance} (h : t.pct ≤ u.pct) (hx : t.excess = u.excess) {m d : Nat}
    (hm : matchSpace t m d = true) : matchSpace u m d = true := by
  rw [matchSpace, shrunk, ← hx]
  exact inWindow_of_pct_le h hm

theorem matchAtLeast_of_le {t : Tolerance} {m k d : Nat} (hk : m ≤ k)
    (hm : matchAtLeast t m d = true) : matchAtLeast t k d = true := by
  rw [matchAtLeast_iff] at hm ⊢
  exact hm.trans hk

theorem matchAtLeast_of_matchSpace {t : Tolerance} {m d : Nat}
    (hm : matchSpace t m d = true) : matchAtLeast t m d = true :=
  (matchAtLeast_iff t m d).2 ((matchSpace_iff t m d).1 hm).1

/-- Exact equality is never required: with no tolerance the window still has two measurements (R116 (c)). -/
theorem inWindow_of_pct_zero {t : Tolerance} (h : t.pct = 0) (m d : Nat) :
    inWindow t m d = true ↔ m = d ∨ m = d + 1 := by
  rw [inWindow_iff, lo_of_pct_zero h, hi_of_pct_zero h]
  omega

theorem matchMark_of_excess_zero {t : Tolerance} (h : t.excess = 0) (m d : Nat) :
    matchMark t m d = inWindow t m d := by
  rw [matchMark, stretched, h, Nat.add_zero]

theorem matchSpace_of_excess_zero {t : Tolerance} (h : t.excess = 0) (m d : Nat) :
    matchSpace t m d = inWindow t m d := by
  rw [matchSpace, shrunk, h, Nat.sub_zero]

/-- A mark meets its own window exactly when the lower edge allows it: the upper edge lies above the stretched
duration. -/
theorem matchMark_self_iff (t : Tolerance) (d : Nat) :
    matchMark t d d = true ↔ lo t (d + t.excess) ≤ d := by
  have hupper : d ≤ hi t (d + t.excess) := (Nat.le_add_right d t.excess).trans (lt_hi t _).le
  rw [matchMark_iff, and_iff_left hupper]

/-- A space meets its own window exactly when the upper edge allows it: the lower edge lies below the shrunk
duration. -/
theorem matchSpace_self_iff (t : Tolerance) (d : Nat) :
    matchSpace t d d = true ↔ d ≤ hi t (d - t.excess) := by
  have hlower : lo t (d - t.excess) ≤ d := (lo_le t _).trans (Nat.sub_le d t.excess)
  rw [matchSpace_iff, and_iff_right hlower]

/-- Settles O7: each window is the interval between its two edges; those move apart as `TOL_PCT` grows. With no
tolerance and an excess of 50 a duration of 600 meets neither its own mark window (650, 651) nor its own space
window (550, 551). The windows of `REF` are the `iff` lemmas with the two edges computed. -/
theorem comparisonLaws : Obligations.ComparisonLaws := by
  refine ⟨fun t d => ⟨⟨lo_le t d, lt_hi t d⟩,
      ⟨_, _, lo_le_hi t d, fun m => inWindow_iff t m d⟩,
      ⟨_, _, lo_le_hi t _, fun m => matchMark_iff t m d⟩,
      ⟨_, _, lo_le_hi t _, fun m => matchSpace_iff t m d⟩,
      fun u hpct hexcess m => ⟨inWindow_of_pct_le hpct, matchMark_of_pct_le hpct hexcess,
        matchSpace_of_pct_le hpct hexcess⟩,
      fun m k => matchAtLeast_of_le, fun m => matchAtLeast_of_matchSpace, ?noTolerance,
      matchMark_self_iff t d, matchSpace_self_iff t d⟩,
    ⟨⟨0, 50⟩, 600, by decide⟩, ⟨⟨0, 50⟩, 600, by decide⟩, ?refWindows⟩
  case noTolerance =>
    intro hpct hexcess m
    rw [matchMark_of_excess_zero hexcess, matchSpace_of_excess_zero hexcess]
    have hwindow := inWindow_of_pct_zero hpct m d
    exact ⟨hwindow, hwindow, hwindow⟩
  case refWindows =>
    exact fun m => ⟨matchMark_iff _ m _, matchSpace_iff _ m _, matchMark_iff _ m _, matchSpace_iff _ m _,
      matchSpace_iff _ m _, matchAtLeast_iff _ m _⟩

/-- Settles O6: the definitions are those of the spec, and the subtraction that `MatchSpace` and
`MatchAtLeast` use saturates by `shrunk_eq_ite`. -/
theorem comparisonFunctionsAreAsDefined : Obligations.ComparisonFunctionsAreAsDefined := by
  intro t m d
  rw [← shrunk_eq_ite]
  exact ⟨⟨rfl, lo_zero t, fun h => lo_of_pct_hundred h d, fun h => lo_of_pct_zero h d,
      fun h => mul_pct_lt h t.pct⟩,
    ⟨rfl, hi_zero t, lt_hi t d⟩, inWindow_iff t m d, rfl, rfl, matchAtLeast_iff t m d⟩

end Sys2Proof.Machine

end

section

namespace Sys2Proof.Machine

/-! ### The clearing of the result registers (spec/41_decode.md R131) is seen by no test of DECODE -/

@[simp] theorem State.noResult_cfg (s : State) : s.noResult.cfg = s.cfg := rfl
@[simp] theorem State.noResult_offset (s : State) : s.noResult.offset = s.offset := rfl

theorem State.noResult_headerRead (s : State) : s.noResult.headerRead = s.headerRead.noResult := by
  simp only [State.headerRead, State.noResult_offset, State.noResult_loadRaw]

theorem State.noResult_headerPasses {s : State} (h : s.headerPasses) : s.noResult.headerPasses := by
  simpa only [State.headerPasses, State.noResult_offset, State.noResult_cfg, State.noResult_loadRaw] using h

/-! ### How DECODE ends (R146; spec/60_exceptions.md R204) -/

theorem exec_decode_of_go {strict : Bool} {n : Nat} {s t : State}
    (h : decodeSteps strict n s.noResult = .go () t) : exec (.decode strict n) s = .next t.endsOk := by
  show execDecode strict n s = _
  rw [execDecode_eq, h]
  rfl

theorem exec_decode_of_stop {strict : Bool} {n : Nat} {s t : State} {c : FailClass} {idx : Half}
    (h : decodeSteps strict n s.noResult = .stop c idx t) :
    exec (.decode strict n) s = .next (t.endsFailed c idx) := by
  show execDecode strict n s = _
  rw [execDecode_eq, h]
  rfl

/-- A DECODE that reports a failure class has met that failure. -/
theorem exec_decode_diag {strict : Bool} {n : Nat} {s t : State} {c : FailClass}
    (h : exec (.decode strict n) s = .next t) (hc : t.status.diag = some c) :
    ∃ idx u, decodeSteps strict n s.noResult = .stop c idx u ∧ t = u.endsFailed c idx := by
  cases hd : decodeSteps strict n s.noResult with
  | go a u =>
    obtain rfl : u.endsOk = t := by simpa [exec_decode_of_go hd] using h
    exact absurd hc (by simp [State.endsOk])
  | stop d idx u =>
    obtain rfl : u.endsFailed d idx = t := by simpa [exec_decode_of_stop hd] using h
    obtain rfl : d = c := Option.some.inj hc
    exact ⟨idx, u, rfl, rfl⟩

/-! ### The first steps (R132 to R136) -/

theorem decodeSteps_tooShort {strict : Bool} {n : Nat} {s : State}
    (h : s.avail < 2 * ((n : Int) + 1)) : decodeSteps strict n s = .stop .tooShort noIndex s := by
  simp [decodeSteps, Int.not_le.2 h]

theorem decodeSteps_strictBits {n : Nat} {s : State} (hlen : ¬ s.avail < 2 * ((n : Int) + 1))
    (hn : n ≠ s.cfg.bits) : decodeSteps true n s = .stop .strictBits noIndex s := by
  simp [decodeSteps, Int.not_lt.1 hlen, hn]

theorem preHeader_mark_fails {s : State} {i : Nat}
    (h : matchMark s.cfg.tol (s.loadRaw i).1 s.cfg.hdrMark = false) :
    preHeader i s = .stop .pulseMismatch (cellIndex i) (s.loadRaw i).2 := by
  simp [preHeader, matchCell, h]

theorem preHeader_space_fails {s : State} {i : Nat}
    (hm : matchMark s.cfg.tol (s.loadRaw i).1 s.cfg.hdrMark = true)
    (hs : matchSpace s.cfg.tol ((s.loadRaw i).2.loadRaw (i + 1)).1 s.cfg.hdrSpace = false) :
    preHeader i s = .stop .pulseMismatch (cellIndex (i + 1)) ((s.loadRaw i).2.loadRaw (i + 1)).2 := by
  simp [preHeader, matchCell, hm, hs]

/-- An index of `OFFSET` stands in `FAILIDX` as it is (spec/10_state.md R31). -/
theorem cellIndex_toNat (i : Half) : cellIndex i.toNat = i := by
  simp [cellIndex]

theorem cellIndex_toNat_succ (i : Half) : cellIndex (i.toNat + 1) = i + 1 := by
  simp [cellIndex, BitVec.ofNat_add]

theorem bitsAdmissible_eq_false_iff (c : Config) (n : Nat) :
    bitsAdmissible c n = false ↔ n = 0 ∨ n % 8 ≠ 0 ∨ c.stateCap < n / 8 := by
  simp only [bitsAdmissible, Bool.and_eq_false_iff, decide_eq_false_iff_not]
  omega

/-- Past the length, strictness and header tests, a bit count that cannot be packed stops DECODE (R135). -/
theorem decodeSteps_badNbits {strict : Bool} {n : Nat} {s : State}
    (hlen : s.offset.toNat + 2 * (n + 1) ≤ s.rawlen.toNat) (hstrict : strict = true → n = s.cfg.bits)
    (hpass : s.headerPasses) (hn : bitsAdmissible s.cfg n = false) :
    decodeSteps strict n s = .stop .badNbits noIndex s.headerRead := by
  have hcfg := s.headerRead_touched.cfg
  simp [decodeSteps_to_header hlen hstrict, preHeader_passes hpass, hcfg, hn]

/-- Past the bit count test too, a frame whose data stage does not fit stops DECODE (R136). -/
theorem decodeSteps_shortFrame {strict : Bool} {n : Nat} {s : State}
    (hlen : s.offset.toNat + 2 * (n + 1) ≤ s.rawlen.toNat)
    (hshort : s.rawlen.toNat < s.offset.toNat + (2 * n + 4)) (hstrict : strict = true → n = s.cfg.bits)
    (hpass : s.headerPasses) (hn : bitsAdmissible s.cfg n = true) :
    decodeSteps strict n s = .stop .tooShort noIndex s.headerRead := by
  have hcfg := s.headerRead_touched.cfg
  have havail : ¬ 2 * (n : Int) + 4 ≤ s.headerRead.avail := by
    rw [s.headerRead_touched.avail, State.avail]
    omega
  simp [decodeSteps_to_header hlen hstrict, preHeader_passes hpass, hcfg, hn, havail]

/-- A sequence that opens with a guard stops at the guard, or the guard has held and a later line stops it. -/
theorem require_andThen_eq_stop {β : Type} {test : Bool} {c d : FailClass} {idx : Half} {s t : State}
    {k : Unit → State → Flow β} (h : (require test c s).andThen k = .stop d idx t) :
    (d = c ∧ test = false) ∨ (test = true ∧ k () s = .stop d idx t) := by
  cases test with
  | false => exact .inl ⟨(Flow.stop.inj h).1.symm, rfl⟩
  | true => exact .inr ⟨rfl, h⟩

/-- A header that lets DECODE go on leaves the configuration alone. -/
theorem preHeader_cfg {i : Nat} {s t : State} {a : Unit} (h : preHeader i s = .go a t) : t.cfg = s.cfg := by
  have hwithin := preHeader_within (k := 0) (Nat.lt_succ_self (i + 1)) s
  rw [h] at hwithin
  exact Touched.cfg hwithin

/-- Which classes DECODE can stop with, and what holds where it is one of the two about the bit count
(R133, R135). -/
theorem decodeSteps_eq_stop {strict : Bool} {n : Nat} {s t : State} {c : FailClass} {idx : Half}
    (h : decodeSteps strict n s = .stop c idx t) :
    c = .tooShort ∨ c = .pulseMismatch ∨ c = .checksum ∨
      (c = .strictBits ∧ strict = true ∧ n ≠ s.cfg.bits) ∨
      (c = .badNbits ∧ bitsAdmissible s.cfg n = false ∧ (strict = true → n = s.cfg.bits)) := by
  unfold decodeSteps at h
  obtain ⟨hc, -⟩ | ⟨-, h⟩ := require_andThen_eq_stop h
  · exact .inl hc
  obtain ⟨hc, hbits⟩ | ⟨hbits, h⟩ := require_andThen_eq_stop h
  · exact .inr (.inr (.inr (.inl ⟨hc, by simpa using hbits⟩)))
  obtain h | ⟨_, u, hheader, h⟩ := Flow.andThen_eq_stop.1 h
  · exact .inr (.inl (preHeader_mismatches _ _ _ _ _ h))
  obtain ⟨hc, hadm⟩ | ⟨-, h⟩ := require_andThen_eq_stop h
  · rw [preHeader_cfg hheader] at hadm
    exact .inr (.inr (.inr (.inr ⟨hc, hadm, fun hstrict => by simpa [hstrict] using hbits⟩)))
  obtain ⟨hc, -⟩ | ⟨-, h⟩ := require_andThen_eq_stop h
  · exact .inl hc
  obtain h | ⟨_, _, -, h⟩ := Flow.andThen_eq_stop.1 h
  · exact .inr (.inl (dataBytes_mismatches _ _ _ _ _ _ _ h))
  obtain h | ⟨_, _, -, h⟩ := Flow.andThen_eq_stop.1 h
  · exact .inr (.inl (footer_mismatches _ _ _ _ _ h))
  obtain ⟨hc, -⟩ | ⟨-, h⟩ := require_andThen_eq_stop h
  · exact .inr (.inr (.inl hc))
  · cases h

/-! ### Where every data bit aligns (R139 to R143) -/

/-- `State.AlignedTo.atFooter` of the state a DECODE starts from, its result registers cleared. -/
theorem State.AlignedTo.decodeSteps_noResult {strict : Bool} {n : Nat} {s : State} (hwf : s.mem.wf = true)
    (h : s.AlignedTo strict n n)
    (hw : s.written (s.offset.toNat + 2 + 2 * n) (s.offset.toNat + 4 + 2 * n)) :
    ∃ m, s.HoldsArrived (n / 8) m ∧ Machine.decodeSteps strict n s.noResult =
      if s.footerMarkAligned n then
        if s.footerGapAligned n then
          (require (!strict || ({ s with mem := m } : State).checksumHolds) .checksum
            ({ s with mem := m } : State).noResult).andThen fun _ t => .go () (t.storeResult n)
        else .stop .pulseMismatch (cellIndex (s.offset.toNat + 3 + 2 * n))
          ({ s with mem := m } : State).noResult
      else .stop .pulseMismatch (cellIndex (s.offset.toNat + 2 + 2 * n))
        ({ s with mem := m } : State).noResult := by
  obtain ⟨m, hm, hsteps⟩ := State.AlignedTo.atFooter (s := s.noResult) hwf h.noResult hw
  exact ⟨m, hm.ofNoResult, hsteps⟩

theorem checksumOk_iff (bs : List Byte) : checksumOk bs = true ↔ (byteSum bs ^^^ 0x1FE) % 256 = 0 := by
  rw [checksumOk, beq_iff_eq]

/-- In a strict DECODE the bytes that arrive are all that the checksum covers. -/
theorem State.HoldsArrived.checksumHolds_iff {s : State} {m : Memory}
    (hm : s.HoldsArrived (s.cfg.bits / 8) m) :
    ({ s with mem := m } : State).checksumHolds = true ↔
      (byteSum ((List.range s.cfg.stateLen).map s.arrivedByte) ^^^ 0x1FE) % 256 = 0 := by
  rw [State.HoldsArrived.checksum s.cfg.stateLen_eq hm, checksumOk_iff]

end Sys2Proof.Machine

end

section

namespace Sys2Proof.Machine

/-! ### The obligations -/

/-- Settles O12: the length check is the first line, and its failure ends the command. -/
theorem decodeFailsOnAShortSequence : Obligations.DecodeFailsOnAShortSequence :=
  fun _ _ _ hshort => exec_decode_of_stop (decodeSteps_tooShort hshort)

/-- Settles O13: the two guards in their order; conversely by the classes DECODE can stop with. -/
theorem strictDecodeRejectsOtherBitCounts : Obligations.StrictDecodeRejectsOtherBitCounts := by
  refine ⟨fun n s hn => ?rejects, fun strict n s t h hdiag => ?onlySo⟩
  case rejects =>
    split
    next hshort => exact exec_decode_of_stop (decodeSteps_tooShort hshort)
    next hlen => exact exec_decode_of_stop (decodeSteps_strictBits hlen hn)
  case onlySo =>
    obtain ⟨idx, u, hstop, -⟩ := exec_decode_diag h hdiag
    simpa using decodeSteps_eq_stop hstop

/-- Settles O14: DECODE reaches its header by `decodeSteps_to_header`, and the first cell that does not match
stops it. -/
theorem decodeMatchesThePreHeader : Obligations.DecodeMatchesThePreHeader := by
  intro strict n s hlen hstrict
  have hsteps := decodeSteps_to_header (s := s.noResult) hlen hstrict
  refine ⟨fun hmark => ?mark, fun hmark hspace => ?space⟩
  case mark =>
    rw [preHeader_mark_fails (by simpa [State.noResult_loadRaw] using hmark), Flow.stop_andThen,
      State.noResult_loadRaw, State.noResult_offset, cellIndex_toNat] at hsteps
    exact exec_decode_of_stop hsteps
  case space =>
    rw [preHeader_space_fails (by simpa [State.noResult_loadRaw] using hmark)
      (by simpa [State.noResult_loadRaw] using hspace), Flow.stop_andThen, State.noResult_offset,
      cellIndex_toNat_succ] at hsteps
    rw [← State.noResult_headerRead]
    exact exec_decode_of_stop hsteps

/-- Settles O15: the guard on the bit count follows the header; a strict DECODE that reaches it has `K_BITS`
bits, which can be packed by `bitsAdmissible_bits`. -/
theorem decodeRejectsBitCountsItCannotPack : Obligations.DecodeRejectsBitCountsItCannotPack := by
  refine ⟨fun n s hlen hpass hn => ?rejects, fun n s t h hdiag => ?neverStrict⟩
  case rejects =>
    rw [← State.noResult_headerRead]
    exact exec_decode_of_stop (decodeSteps_badNbits hlen (by simp) (State.noResult_headerPasses hpass)
      ((bitsAdmissible_eq_false_iff _ n).2 hn))
  case neverStrict =>
    obtain ⟨idx, u, hstop, -⟩ := exec_decode_diag h hdiag
    obtain ⟨hadm, rfl⟩ : bitsAdmissible s.cfg n = false ∧ n = s.cfg.bits := by
      simpa using decodeSteps_eq_stop hstop
    simp [bitsAdmissible_bits] at hadm

/-- Settles O16: the second length check follows the guard on the bit count. -/
theorem decodeChecksTheLengthOfTheDataStage : Obligations.DecodeChecksTheLengthOfTheDataStage := by
  intro strict n s hlen hshort hstrict hpass hnonzero hwhole hfits
  have hadm : bitsAdmissible s.cfg n = true := by simp [bitsAdmissible, hnonzero, hwhole, hfits]
  rw [← State.noResult_headerRead]
  exact exec_decode_of_stop
    (decodeSteps_shortFrame hlen hshort hstrict (State.noResult_headerPasses hpass) hadm)

/-- Settles O18: all bytes are stored when the footer is reached, and its first bad cell stops the command. -/
theorem decodeMatchesTheFooter : Obligations.DecodeMatchesTheFooter := by
  intro strict n s hwf haligned hw
  obtain ⟨m, hm, hsteps⟩ := haligned.decodeSteps_noResult hwf hw
  refine ⟨fun hmark => ⟨m, hm, ?mark⟩, fun hmark hgap => ⟨m, hm, ?gap⟩⟩
  case mark =>
    rw [if_neg hmark] at hsteps
    exact exec_decode_of_stop hsteps
  case gap =>
    rw [if_pos hmark, if_neg hgap] at hsteps
    exact exec_decode_of_stop hsteps

/-- Settles O19: past the footer only the checksum is left, over the bytes that arrived; conversely by
`decodeSteps_outcome`. -/
theorem strictDecodeRejectsABadChecksum : Obligations.StrictDecodeRejectsABadChecksum := by
  refine ⟨fun n s hwf haligned hw hmark hgap hsum => ?rejects, fun strict n s t h hdiag => ?onlySo⟩
  case rejects =>
    obtain ⟨m, hm, hsteps⟩ := haligned.decodeSteps_noResult hwf hw
    obtain rfl : n = s.cfg.bits := haligned.strictBits rfl
    have hbad : ({ s with mem := m } : State).checksumHolds = false :=
      Bool.eq_false_iff.2 (mt hm.checksumHolds_iff.1 hsum)
    rw [if_pos hmark, if_pos hgap, hbad] at hsteps
    exact ⟨m, hm, exec_decode_of_stop hsteps⟩
  case onlySo =>
    obtain ⟨idx, u, hstop, rfl⟩ := exec_decode_diag h hdiag
    obtain ⟨v, hgo, -⟩ | ⟨c, i, v, hstop', htouched, -, -, -, hchecksum⟩ :=
      decodeSteps_outcome strict n s.noResult
    · simp [hgo] at hstop
    · obtain ⟨rfl, rfl, rfl⟩ := Flow.stop.inj (hstop'.symm.trans hstop)
      obtain ⟨hstrict, hn, hbad⟩ := hchecksum rfl
      have hcfg : v.cfg = s.cfg := htouched.cfg
      refine ⟨hstrict, hn, ?_⟩
      rw [← hcfg]
      exact mt (checksumOk_iff _).2 (Bool.eq_false_iff.1 hbad)

/-- Settles O20: past the footer the checksum guard passes, and the result registers are written over the
bytes that arrived. -/
theorem decodeOfAnAlignedFrameSucceeds : Obligations.DecodeOfAnAlignedFrameSucceeds := by
  intro strict n s hwf haligned hw hmark hgap hsum
  obtain ⟨m, hm, hsteps⟩ := haligned.decodeSteps_noResult hwf hw
  have hguard : (!strict || ({ s with mem := m } : State).checksumHolds) = true := by
    cases strict with
    | false => rfl
    | true =>
      obtain rfl : n = s.cfg.bits := haligned.strictBits rfl
      exact hm.checksumHolds_iff.2 (hsum rfl)
  rw [if_pos hmark, if_pos hgap, hguard] at hsteps
  exact ⟨m, hm, exec_decode_of_go hsteps⟩

end Sys2Proof.Machine

end

section

namespace Sys2Proof.Machine

/-! ### The checksum (spec/42_verify_extract.md R160 to R162) -/

/-- The low byte of an XOR is zero exactly where the two low bytes agree (R162). -/
theorem xor_low_byte_eq_zero_iff (x c : Nat) : (x ^^^ c) % 256 = 0 ↔ x % 256 = c % 256 := by
  rw [show 256 = 2 ^ 8 from rfl, Nat.xor_mod_two_pow, Nat.xor_eq_zero_iff]

theorem checksumOk_iff_low_byte (bs : List Byte) : checksumOk bs = true ↔ byteSum bs % 256 = 0xFE := by
  rw [checksumOk_iff, xor_low_byte_eq_zero_iff]

theorem byteSum_replicate_zero (len : Nat) : byteSum (List.replicate len 0) = 0 := by
  simp [byteSum]

theorem checksumOk_replicate_zero (len : Nat) : checksumOk (List.replicate len 0) = false := by
  rw [Bool.eq_false_iff, ne_eq, checksumOk_iff, byteSum_replicate_zero]
  decide

/-! ### CHKSUM (R163) -/

theorem exec_chksum_eq (s : State) :
    exec .chksum s = .next (if s.checksumHolds then s.endsOk else s.endsFailed .checksum 0xFFFF) := by
  show Host.Outcome.next (require s.checksumHolds .checksum s).close = _
  cases s.checksumHolds <;> rfl

theorem exec_chksum_of_ok {s : State} (h : checksumOk (s.bytes s.cfg.stateLen) = true) :
    exec .chksum s = .next s.endsOk := by
  rw [exec_chksum_eq, State.checksumHolds, if_pos h]

theorem exec_chksum_of_bad {s : State} (h : checksumOk (s.bytes s.cfg.stateLen) = false) :
    exec .chksum s = .next (s.endsFailed .checksum 0xFFFF) := by
  rw [exec_chksum_eq, State.checksumHolds, h, if_neg Bool.false_ne_true]

theorem State.bytes_of_zero {s : State} (h : ∀ j, s.mem.stateByte j = 0) (len : Nat) :
    s.bytes len = List.replicate len 0 := by
  rw [State.bytes, funext h, List.map_const', List.length_range]

/-- The bytes that are summed under `REF`, where `K_STATE_LEN = 4` (R11). -/
theorem State.bytes_of_ref {s : State} (h : s.cfg = Config.ref) :
    s.bytes s.cfg.stateLen =
      [s.mem.stateByte 0, s.mem.stateByte 1, s.mem.stateByte 2, s.mem.stateByte 3] := by
  rw [h]
  rfl

/-! ### XTRACT (R164, R165) -/

theorem State.commandBit_toNat (s : State) :
    s.commandBit.toNat = (s.mem.stateByte 2).toNat / 2 ^ 7 % 2 := by
  rw [State.commandBit, BitVec.extractLsb'_toNat, Nat.shiftRight_eq_div_pow, pow_one]

theorem State.commandBit_eq_one_iff (s : State) : s.commandBit = 1 ↔ 0x80 ≤ (s.mem.stateByte 2).toNat := by
  have hbyte : (s.mem.stateByte 2).toNat < 2 ^ 8 := (s.mem.stateByte 2).isLt
  rw [← BitVec.toNat_inj, State.commandBit_toNat]
  show _ = 1 ↔ _
  omega

theorem exec_xtract_eq (s : State) :
    exec .xtract s = .next (State.endsOk { s with resCmd := s.commandBit }) := rfl

/-! ### The obligations -/

/-- Settles O26: each reading of the checksum asks for the low byte `0xFE`, by `checksumOk_iff_low_byte`. -/
theorem checksumIsTheLowByteOfTheSum : Obligations.ChecksumIsTheLowByteOfTheSum := by
  refine ⟨fun bs => ⟨checksumOk_iff bs, checksumOk_iff_low_byte bs, ?bit8, fun w hw => ?width, fun h => ?sums⟩,
    checksumOk_replicate_zero⟩
  case bit8 => rw [checksumOk_iff_low_byte, xor_low_byte_eq_zero_iff]
  case width =>
    have hdvd : 256 ∣ 2 ^ w := pow_dvd_pow 2 hw
    rw [checksumOk_iff_low_byte, xor_low_byte_eq_zero_iff, Nat.mod_mod_of_dvd _ hdvd]
  case sums =>
    rw [checksumOk_iff_low_byte]
    simp only [List.mem_cons, List.not_mem_nil, or_false] at h
    omega

/-- Settles O27: CHKSUM ends by the checksum of the bytes it reads, which are `0` in the zero buffer and four
given ones under `REF`. -/
theorem chksumVerifiesTheStateBytes : Obligations.ChksumVerifiesTheStateBytes := by
  refine ⟨rfl, fun s => ?ends, fun s hzero => ?zero, fun s b0 b1 b2 b3 href h0 h1 h2 h3 => ?examples⟩
  case ends =>
    simp only [exec_chksum_eq, State.checksumHolds, State.bytes, checksumOk_iff]
  case zero =>
    exact exec_chksum_of_bad (by rw [State.bytes_of_zero hzero, checksumOk_replicate_zero])
  case examples =>
    have hbytes : s.bytes s.cfg.stateLen = [b0, b1, b2, b3] := by
      rw [State.bytes_of_ref href, h0, h1, h2, h3]
    refine ⟨fun hgood => exec_chksum_of_ok ?_, fun hbad => exec_chksum_of_bad ?_⟩
    · rw [hbytes]
      obtain h | h := hgood <;> rw [h] <;> decide
    · rw [hbytes, hbad]
      exact checksumOk_replicate_zero 4

/-- Settles O28: XTRACT leaves the command bit in `RES_CMD` and ends as a success. -/
theorem xtractTakesTheCommandBit : Obligations.XtractTakesTheCommandBit := by
  refine ⟨rfl, fun s => ⟨exec_xtract_eq s, fun t ht => ?_⟩⟩
  obtain rfl := Host.Outcome.next.inj ((exec_xtract_eq s).symm.trans ht)
  exact ⟨s.commandBit_eq_one_iff, s.commandBit_toNat⟩

end Sys2Proof.Machine

end

section

namespace Sys2Proof.Machine

/-! ### How ENCODE ends (spec/43_encode.md R171, R179) -/

theorem exec_encode_of_lt_bits {n : Nat} {s : State} (h : n < s.cfg.bits) :
    exec (.encode n) s = .next (s.endsFailed .badEncode 0xFFFF) := by
  show execEncode n s = _
  rw [execEncode_eq, if_neg (Nat.not_le.2 h)]
  rfl

theorem exec_encode_of_bits_le {n : Nat} {s : State} (h : s.cfg.bits ≤ n) :
    exec (.encode n) s = .next (State.endsOk
      { s with txlog := s.txlog ++ frames s.cfg s.data n (s.repeatCount.toNat + 1) }) := by
  show execEncode n s = _
  rw [execEncode_eq, if_pos h]
  rfl

/-- An ENCODE with enough bits appends its transmissions to `TXLOG`. -/
theorem txlog_of_exec_encode {n : Nat} {s t : State} (hn : s.cfg.bits ≤ n)
    (h : exec (.encode n) s = .next t) :
    t.txlog = s.txlog ++ frames s.cfg s.data n (s.repeatCount.toNat + 1) := by
  obtain rfl := Host.Outcome.next.inj ((exec_encode_of_bits_le hn).symm.trans h)
  rfl

/-! ### The bits that are sent (R173; spec/20_memory.md R64) -/

/-- The bit sent at place `t`, as a bit of the number `DATA`; above bit 63 it is 0. -/
theorem sentBit_data_iff (l : Bool) (s : State) (n t : Nat) :
    sentBit l s.data n t = true ↔ (if l then t else n - 1 - t) < 64 ∧
      (s.dataHi.toNat * 2 ^ 32 + s.dataLo.toNat).testBit (if l then t else n - 1 - t) = true := by
  have hbit (i : Nat) : s.data.getLsbD i = true ↔
      i < 64 ∧ (s.dataHi.toNat * 2 ^ 32 + s.dataLo.toNat).testBit i = true := by
    rw [← s.data_toNat, BitVec.testBit_toNat]
    exact ⟨fun h => ⟨BitVec.lt_of_getLsbD h, h⟩, And.right⟩
  cases l
  · exact hbit (n - 1 - t)
  · exact hbit t

/-! ### Counts over one transmission and over many (R180) -/

/-- Each data bit is one mark and one space. -/
theorem bitEvents_filter_kind_length (c : Config) (bit : Nat → Bool) (k : TxKind) (l : List Nat) :
    ((l.flatMap fun t => bitEvents c (bit t)).filter fun e => e.kind == k).length = l.length := by
  induction l with
  | nil => rfl
  | cons a l ih =>
    rw [List.flatMap_cons, List.filter_append, List.length_append, ih, List.length_cons, Nat.add_comm]
    cases k <;> rfl

theorem frame_filter_kind_length (c : Config) (d : BitVec 64) (n : Nat) (k : TxKind) :
    ((frame c d n).filter fun e => e.kind == k).length = n + 2 := by
  simp only [frame, List.filter_append, List.length_append, bitEvents_filter_kind_length,
    List.length_range]
  have hends : 1 + n + 1 = n + 2 := by omega
  cases k <;> exact hends

theorem bitEvents_one_dur_sum (c : Config) (b : Bool) :
    ((bitEvents c b).map TxEvent.dur).sum = c.bitMark + if b then c.oneSpace else c.zeroSpace := rfl

/-- The data bits last as long as their marks, their one-spaces and their zero-spaces together. -/
theorem bitEvents_dur_sum (c : Config) (bit : Nat → Bool) (l : List Nat) :
    ((l.flatMap fun t => bitEvents c (bit t)).map TxEvent.dur).sum =
      l.length * c.bitMark + (l.filter bit).length * c.oneSpace +
        (l.length - (l.filter bit).length) * c.zeroSpace := by
  induction l with
  | nil => simp
  | cons a l ih =>
    have hle : (l.filter bit).length ≤ l.length := List.length_filter_le bit l
    rw [List.flatMap_cons, List.map_append, List.sum_append, ih, bitEvents_one_dur_sum, List.length_cons]
    cases hbit : bit a with
    | true =>
      rw [if_pos rfl, List.filter_cons_of_pos hbit, List.length_cons, Nat.add_sub_add_right]
      ring
    | false =>
      rw [if_neg Bool.false_ne_true, List.filter_cons_of_neg (Bool.eq_false_iff.1 hbit),
        Nat.sub_add_comm hle]
      ring

theorem frame_dur_sum (c : Config) (d : BitVec 64) (n : Nat) :
    ((frame c d n).map TxEvent.dur).sum =
      c.hdrMark + c.hdrSpace + (n + 1) * c.bitMark +
        ((List.range n).filter fun k => sentBit c.lsbFirst d n k).length * c.oneSpace +
        (n - ((List.range n).filter fun k => sentBit c.lsbFirst d n k).length) * c.zeroSpace + c.gap := by
  simp only [frame, List.map_append, List.sum_append, bitEvents_dur_sum, List.length_range,
    List.map_cons, List.map_nil, List.sum_cons, List.sum_nil]
  ring

theorem frames_length (c : Config) (d : BitVec 64) (n times : Nat) :
    (frames c d n times).length = times * (2 * n + 4) := by
  simp [frames, frame_length]

theorem frames_filter_kind_length (c : Config) (d : BitVec 64) (n times : Nat) (k : TxKind) :
    ((frames c d n times).filter fun e => e.kind == k).length = times * (n + 2) := by
  simp [frames, List.filter_flatten, frame_filter_kind_length]

theorem frames_dur_sum (c : Config) (d : BitVec 64) (n times : Nat) :
    ((frames c d n times).map TxEvent.dur).sum = times * ((frame c d n).map TxEvent.dur).sum := by
  simp [frames, List.map_flatten, List.sum_flatten]

/-! ### A transmission loaded into RAW (R181) -/

/-- Every event of a transmission lasts as long as a constant of the profile, so that it fits a cell. -/
theorem dur_lt_of_mem_frame {c : Config} {d : BitVec 64} {n : Nat} {e : TxEvent} (h : e ∈ frame c d n) :
    e.dur < 2 ^ 16 := by
  refine c.duration_lt ?_
  simp only [frame, bitEvents, List.mem_append, List.mem_flatMap, List.mem_cons, List.not_mem_nil,
    or_false] at h
  obtain ((rfl | rfl) | ⟨t, -, rfl | rfl⟩) | rfl | rfl := h
  case inl.inr.inr => cases sentBit c.lsbFirst d n t <;> simp
  all_goals simp

/-- The cells from `OFFSET` on hold the durations of one transmission of `n` bits of `d`. -/
def State.HoldsFrame (s : State) (d : BitVec 64) (n : Nat) : Prop :=
  ∀ i e, (frame s.cfg d n)[i]? = some e →
    s.mem.rawCell (s.offset.toNat + i) = some (BitVec.ofNat 16 e.dur)

namespace State.HoldsFrame

variable {s : State} {d : BitVec 64} {n : Nat} (h : s.HoldsFrame d n)

include h

theorem cellValue {i : Nat} {e : TxEvent} (he : (frame s.cfg d n)[i]? = some e) :
    s.cellValue (s.offset.toNat + i) = e.dur := by
  rw [State.cellValue, h i e he, Option.getD_some, BitVec.toNat_ofNat,
    Nat.mod_eq_of_lt (dur_lt_of_mem_frame (List.mem_of_getElem? he))]

theorem written : s.written s.offset.toNat (s.offset.toNat + (2 * n + 4)) := by
  intro i hi hin
  have hplace : i - s.offset.toNat < (frame s.cfg d n).length := by rw [frame_length]; omega
  have hcell := h _ _ (List.getElem?_eq_getElem hplace)
  rw [Nat.add_sub_cancel' hi] at hcell
  simp [hcell]

theorem bitMark_value {t : Nat} (ht : t < n) :
    s.cellValue (s.offset.toNat + 2 + 2 * t) = s.cfg.bitMark := by
  obtain ⟨-, -, hbits, -⟩ := frame_get s.cfg d n
  rw [Nat.add_assoc]
  exact h.cellValue (hbits t ht).1

theorem bitSpace_value {t : Nat} (ht : t < n) :
    s.cellValue (s.offset.toNat + 3 + 2 * t) =
      if sentBit s.cfg.lsbFirst d n t then s.cfg.oneSpace else s.cfg.zeroSpace := by
  obtain ⟨-, -, hbits, -⟩ := frame_get s.cfg d n
  rw [Nat.add_assoc]
  exact h.cellValue (hbits t ht).2

theorem headerAligned : s.headerAligned := by
  obtain ⟨hmark, hspace, -⟩ := (Params.selfMatch_iff _).1 s.cfg.selfMatches
  obtain ⟨h0, h1, -⟩ := frame_get s.cfg d n
  have hv0 : s.cellValue s.offset.toNat = s.cfg.hdrMark := h.cellValue h0
  have hv1 : s.cellValue (s.offset.toNat + 1) = s.cfg.hdrSpace := h.cellValue h1
  rw [State.headerAligned, hv0, hv1]
  exact ⟨hmark, hspace⟩

theorem bitMarkAligned {t : Nat} (ht : t < n) : s.bitMarkAligned t := by
  obtain ⟨-, -, hmark, -⟩ := (Params.selfMatch_iff _).1 s.cfg.selfMatches
  rw [State.bitMarkAligned, h.bitMark_value ht]
  exact hmark

/-- A one arrives where a one was sent: no zero-space is taken for a one-space (spec/00_scope.md R10). -/
theorem arrived_eq_sentBit {t : Nat} (ht : t < n) : s.arrived t = sentBit s.cfg.lsbFirst d n t := by
  obtain ⟨-, -, -, hone, hzero, -⟩ := (Params.selfMatch_iff _).1 s.cfg.selfMatches
  rw [State.arrived, h.bitSpace_value ht]
  cases sentBit s.cfg.lsbFirst d n t with
  | true => exact hone
  | false =>
    refine Bool.eq_false_iff.2 fun hboth => ?_
    exact Bool.eq_false_iff.1 (s.cfg.separate _ hboth) hzero

theorem bitSpaceAligned {t : Nat} (ht : t < n) : s.bitSpaceAligned t := by
  obtain ⟨-, -, -, hone, hzero, -⟩ := (Params.selfMatch_iff _).1 s.cfg.selfMatches
  rw [State.bitSpaceAligned, h.bitSpace_value ht]
  cases sentBit s.cfg.lsbFirst d n t with
  | true => exact .inl hone
  | false => exact .inr hzero

theorem footerMarkAligned : s.footerMarkAligned n := by
  obtain ⟨-, -, hmark, -⟩ := (Params.selfMatch_iff _).1 s.cfg.selfMatches
  obtain ⟨-, -, -, hfoot, -⟩ := frame_get s.cfg d n
  rw [State.footerMarkAligned, Nat.add_assoc, h.cellValue hfoot]
  exact hmark

theorem footerGapAligned : s.footerGapAligned n := by
  obtain ⟨-, -, -, -, -, hgap⟩ := (Params.selfMatch_iff _).1 s.cfg.selfMatches
  obtain ⟨-, -, -, -, hfoot⟩ := frame_get s.cfg d n
  rw [State.footerGapAligned, Nat.add_assoc, h.cellValue hfoot]
  exact hgap

theorem footerWritten : s.written (s.offset.toNat + 2 + 2 * n) (s.offset.toNat + 4 + 2 * n) :=
  fun i hi hin => h.written i (by omega) (by omega)

/-- A loaded transmission passes every test of DECODE up to its footer. -/
theorem alignedTo {strict : Bool} (hlen : s.offset.toNat + (2 * n + 4) ≤ s.rawlen.toNat)
    (hstrict : strict = true → n = s.cfg.bits) (h0 : n ≠ 0) (h8 : n % 8 = 0)
    (hcap : n / 8 ≤ s.cfg.stateCap) : s.AlignedTo strict n n where
  length := hlen
  strictBits := hstrict
  header := h.headerAligned
  nonzero := h0
  wholeBytes := h8
  fits := hcap
  cells i hi hin := h.written i hi (by omega)
  marks _ ht := h.bitMarkAligned ht
  spaces _ ht := h.bitSpaceAligned ht

/-- The bytes that arrive are those of the payload. -/
theorem arrivedByte_eq_payloadByte (h8 : n % 8 = 0) {j : Nat} (hj : j < n / 8) :
    s.arrivedByte j = payloadByte s.cfg.lsbFirst d n j := by
  rw [← packedByte_sentBit _ _ h8 hj, State.arrivedByte, packedByte, packedByte]
  congr 2
  apply List.map_congr_left
  intro k hk
  rw [h.arrived_eq_sentBit (by have := List.mem_range.1 hk; omega)]

theorem arrivedBytes_eq (h8 : n % 8 = 0) :
    (List.range (n / 8)).map s.arrivedByte =
      (List.range (n / 8)).map (payloadByte s.cfg.lsbFirst d n) :=
  List.map_congr_left fun _ hj => h.arrivedByte_eq_payloadByte h8 (List.mem_range.1 hj)

end State.HoldsFrame

/-- Transmission `r` of those an ENCODE appended, event by event (R174). -/
theorem txlog_get_of_exec_encode {n r i : Nat} {s t : State} (hn : s.cfg.bits ≤ n)
    (h : exec (.encode n) s = .next t) (hr : r ≤ s.repeatCount.toNat) (hi : i < 2 * n + 4) :
    t.txlog[s.txlog.length + r * (2 * n + 4) + i]? = (frame s.cfg s.data n)[i]? := by
  have hget := flatten_replicate_get (frame s.cfg s.data n) (Nat.lt_succ_of_le hr)
    (by rwa [frame_length])
  rw [frame_length] at hget
  rw [txlog_of_exec_encode hn h, Nat.add_assoc, List.getElem?_append_right (Nat.le_add_right _ _),
    Nat.add_sub_cancel_left]
  exact hget

end Sys2Proof.Machine

end

section

namespace Sys2Proof.Machine

/-! ### DECODE of a loaded transmission (R181) -/

/-- The loose half of R181: a loaded transmission decodes to its payload. -/
theorem State.HoldsFrame.decode_loose {s : State} {d : BitVec 64} {n : Nat} (h : s.HoldsFrame d n)
    (hwf : s.mem.wf = true) (haligned : s.AlignedTo false n n) :
    ∃ t, exec (.decode false n) s = .next t ∧ t.status.ok = true ∧ t.resBits.toNat = n ∧
      t.resProto.toNat = s.cfg.protoTag ∧
      (∀ j, j < n / 8 → t.mem.stateByte j = payloadByte s.cfg.lsbFirst d n j) ∧
      t.resCmd = (t.mem.stateByte 2).extractLsb' 7 1 := by
  obtain ⟨m, hm, hexec⟩ := decodeOfAnAlignedFrameSucceeds false n s hwf haligned h.footerWritten
    h.footerMarkAligned h.footerGapAligned (by simp)
  have hcap := haligned.fits
  have hcaps := s.cfg.stateCap_bounds
  have htag := s.cfg.protoTag_bounds
  refine ⟨_, hexec, rfl, ?bits, ?proto, fun j hj => ?payload, rfl⟩
  case bits => exact (BitVec.toNat_ofNat _ _).trans (Nat.mod_eq_of_lt (by omega))
  case proto => exact (BitVec.toNat_ofNat _ _).trans (Nat.mod_eq_of_lt (by omega))
  case payload => exact (hm.arrived j hj).trans (h.arrivedByte_eq_payloadByte haligned.wholeBytes hj)

/-- The strict half of R181: with the protocol's bit count every pulse aligns and only the checksum of the
payload decides. -/
theorem State.HoldsFrame.decode_strict {s : State} {d : BitVec 64} {n : Nat} (h : s.HoldsFrame d n)
    (hwf : s.mem.wf = true) (h8 : n % 8 = 0)
    (haligned : n = s.cfg.bits → s.AlignedTo true n n) :
    ∃ u, exec (.decode true n) s = .next u ∧ (u.status.ok = true ↔ n = s.cfg.bits ∧
      checksumOk ((List.range (n / 8)).map (payloadByte s.cfg.lsbFirst d n)) = true) := by
  by_cases hn : n = s.cfg.bits
  case neg => exact ⟨_, strictDecodeRejectsOtherBitCounts.1 n s hn, by simp [State.endsFailed, hn]⟩
  have hsum : (byteSum ((List.range s.cfg.stateLen).map s.arrivedByte) ^^^ 0x1FE) % 256 = 0 ↔
      checksumOk ((List.range (n / 8)).map (payloadByte s.cfg.lsbFirst d n)) = true := by
    rw [← checksumOk_iff, s.cfg.stateLen_eq, ← hn, h.arrivedBytes_eq h8]
  by_cases hok : checksumOk ((List.range (n / 8)).map (payloadByte s.cfg.lsbFirst d n)) = true
  case pos =>
    obtain ⟨m, -, hexec⟩ := decodeOfAnAlignedFrameSucceeds true n s hwf (haligned hn) h.footerWritten
      h.footerMarkAligned h.footerGapAligned fun _ => hsum.2 hok
    exact ⟨_, hexec, iff_of_true rfl ⟨hn, hok⟩⟩
  case neg =>
    obtain ⟨m, -, hexec⟩ := strictDecodeRejectsABadChecksum.1 n s hwf (haligned hn) h.footerWritten
      h.footerMarkAligned h.footerGapAligned (mt hsum.1 hok)
    exact ⟨_, hexec, iff_of_false Bool.false_ne_true fun hboth => hok hboth.2⟩

/-! ### The obligations -/

/-- Settles O29: the guard is the only thing that turns ENCODE away. -/
theorem encodeRefusesTooFewBits : Obligations.EncodeRefusesTooFewBits :=
  fun _ _ => ⟨exec_encode_of_lt_bits, fun hn => ⟨_, exec_encode_of_bits_le hn, rfl⟩⟩

/-- Settles O30: the one transmission is `frame`, its events are those of `frame_get`, and the bits it sends
are bits of the number `DATA` by `sentBit_data_iff`. -/
theorem encodeEmitsTheFrames : Obligations.EncodeEmitsTheFrames := by
  intro n s hn
  obtain ⟨hmark, hspace, hbits, hfooter⟩ := frame_get s.cfg s.data n
  refine ⟨frame s.cfg s.data n, exec_encode_of_bits_le hn, frame_length _ _ n, hmark, hspace,
    fun t ht => ?_, hfooter⟩
  simpa only [sentBit_data_iff] using hbits t ht

/-- Settles O31: what is appended are the transmissions, and each count over them is `REPEAT + 1` times the
count over one. -/
theorem encodeCountsAndDurations : Obligations.EncodeCountsAndDurations := by
  intro n s t h
  refine ⟨fun hn => ?refused, fun hn => ⟨frames s.cfg s.data n (s.repeatCount.toNat + 1),
    txlog_of_exec_encode hn h, frames_length _ _ _ _, frames_filter_kind_length _ _ _ _ _,
    frames_filter_kind_length _ _ _ _ _, ?durations⟩⟩
  case refused =>
    obtain rfl := Host.Outcome.next.inj ((exec_encode_of_lt_bits hn).symm.trans h)
    rfl
  case durations => rw [frames_dur_sum, frame_dur_sum]

/-- Settles O32: each transmission is the one `frame` by `txlog_get_of_exec_encode`, so the cells hold it, and
both DECODEs of a held transmission are known. -/
theorem encodeThenDecodeRecoversThePayload : Obligations.EncodeThenDecodeRecoversThePayload := by
  intro n r s₀ s₁ s h8 hbits hcap hencode hr hcfg hwf hlen hloaded
  have hframe : s.HoldsFrame s₀.data n := by
    intro i e he
    have hi : i < 2 * n + 4 := by
      rw [← frame_length s.cfg s₀.data n]
      exact (List.getElem?_eq_some_iff.1 he).1
    obtain ⟨e', he', hcell⟩ := hloaded i hi
    rw [txlog_get_of_exec_encode hbits hencode hr hi, ← hcfg, he] at he'
    rwa [Option.some.inj he']
  rw [← hcfg] at hbits hcap
  have hbounds := s.cfg.bits_bounds
  have haligned (strict : Bool) (hstrict : strict = true → n = s.cfg.bits) : s.AlignedTo strict n n :=
    hframe.alignedTo hlen hstrict (by omega) h8 (by omega)
  exact ⟨hframe.decode_loose hwf (haligned false (by simp)),
    hframe.decode_strict hwf h8 fun hn => haligned true fun _ => hn⟩

end Sys2Proof.Machine

end

section

namespace Sys2Proof.Machine

/-! ### The word of `STATUS` (spec/10_state.md R23) -/

theorem Status.word_busy (t : Status) : t.word.getLsbD 0 = t.busy := by
  simp only [Status.word, BitVec.getLsbD_append]
  simp

theorem Status.word_lockerr (t : Status) : t.word.getLsbD 3 = t.lockerr := by
  simp only [Status.word, BitVec.getLsbD_append]
  simp

theorem State.endsOk_word {s : State} (h : s.status.lockerr = false) :
    s.endsOk.status.word = 0x00000006 := by
  have hflags : s.endsOk.status = ⟨false, true, true, false, none⟩ := by rw [State.endsOk, h]
  rw [hflags]
  decide

theorem State.endsFailed_illegalCmd_word {s : State} (h : s.status.lockerr = false) (idx : Half) :
    (s.endsFailed .illegalCmd idx).status.word = 0x00000702 := by
  have hflags : (s.endsFailed .illegalCmd idx).status =
      ⟨false, true, false, false, some .illegalCmd⟩ := by rw [State.endsFailed, h]
  rw [hflags]
  decide

/-! ### The engine's turn, by what is in flight (spec/10_state.md R36) -/

theorem engineTurn_of_command {s : State} {i : Instr} (hbusy : s.status.busy = true)
    (h : decode s.cmdr = some i) : engineTurn s = exec i s := by
  simp [engineTurn, hbusy, h]

theorem engineTurn_of_idle {s : State} (h : s.status.busy = false) : engineTurn s = .next s := by
  simp [engineTurn, h]

/-- `NOP` written to `CMD` and completed (R185): completion writes again every flag acceptance wrote. -/
theorem engineTurn_nop {s : State} (h : s.status.busy = false) :
    engineTurn (s.hostWrite 0x0000 0x00000000) = .next (({ s with cmdr := 0 }).endsOk) := by
  have hnop : decode 0x00000000 = some .nop := by decide
  rw [State.hostWrite_cmd h, engineTurn_of_command (s := s.accept 0x00000000) rfl hnop]
  rfl

/-! ### What no command writes (spec/20_memory.md R79): its own word, its operands, the host's side -/

/-- `t` is `s` but for what commands write: the flags other than `LOCKERR`, the results, the buffers, `TXLOG`
and the count of free values. -/
def State.WrittenByEngine (s t : State) : Prop :=
  t = { s with
    status := { t.status with lockerr := s.status.lockerr },
    resBits := t.resBits, resProto := t.resProto, resCmd := t.resCmd, failidx := t.failidx,
    mem := t.mem, txlog := t.txlog, fresh := t.fresh }

theorem State.WrittenByEngine.cmdr {s t : State} (h : s.WrittenByEngine t) : t.cmdr = s.cmdr := by
  rw [h]

theorem Flow.Within.close_writtenByEngine {α : Type} {k b : Nat} {s : State} {f : Flow α}
    (h : f.Within k b s) : s.WrittenByEngine f.close := by
  cases f with
  | go a t =>
    rw [Flow.close_go, Touched.frame (t := t) h]
    rfl
  | stop c idx t =>
    rw [Flow.close_stop, h.1.frame]
    rfl

theorem exec_writtenByEngine {i : Instr} {s t : State} (h : exec i s = .next t) : s.WrittenByEngine t := by
  have hmatch (test : Tolerance → Nat → Nat → Bool) (sel : Sel) :
      s.WrittenByEngine (s.matchOne test sel) :=
    (matchSteps_within test sel s).close_writtenByEngine
  cases i with
  | nop => exact Host.Outcome.next.inj h ▸ rfl
  | decode strict n =>
    rcases execDecode_outcome h with ⟨v, rfl, hv, -⟩ | ⟨c, idx, v, rfl, hv, -⟩
    · rw [hv.frame]; rfl
    · rw [hv.frame]; rfl
  | encode n =>
    obtain rfl := Host.Outcome.next.inj ((execEncode_eq n s).symm.trans h)
    split <;> rfl
  | chksum => exact Host.Outcome.next.inj h ▸ (require_within 0 0 _ (by simp) s).close_writtenByEngine
  | xtract => exact Host.Outcome.next.inj h ▸ rfl
  | matchm sel => exact Host.Outcome.next.inj h ▸ hmatch _ sel
  | matchs sel => exact Host.Outcome.next.inj h ▸ hmatch _ sel
  | matchg sel => exact Host.Outcome.next.inj h ▸ hmatch _ sel

theorem engineTurn_writtenByEngine {s t : State} (h : engineTurn s = .next t) : s.WrittenByEngine t := by
  cases hbusy : s.status.busy with
  | false => exact Host.Outcome.next.inj ((engineTurn_of_idle hbusy).symm.trans h) ▸ rfl
  | true =>
    cases hd : decode s.cmdr with
    | none => exact Host.Outcome.next.inj ((engineTurn_of_illegal hbusy hd).symm.trans h) ▸ rfl
    | some i => exact exec_writtenByEngine ((engineTurn_of_command hbusy hd).symm.trans h)

/-! ### What changes `CMDR` (R186) -/

theorem State.writeReg_cmdr {r : Reg} (h : r ≠ .cmd) (s : State) (v : Word) :
    (s.writeReg v r).cmdr = s.cmdr := by
  cases r with
  | cmd => exact absurd rfl h
  | _ => rfl

theorem State.hostRead_cmdr (s : State) (x : Half) : (s.hostRead x).cmdr = s.cmdr := by
  rw [State.hostRead_frame]

/-- A host write that changes `CMDR` was an acceptance: index 0 is the only one of `CMD`. -/
theorem State.hostWrite_changes_cmdr {s : State} {x : Half} {v : Word}
    (h : (s.hostWrite x v).cmdr ≠ s.cmdr) :
    x = 0x0000 ∧ s.status.busy = false ∧ (s.hostWrite x v).cmdr = v := by
  cases hbusy : s.status.busy with
  | true =>
    rw [State.hostWrite_busy hbusy] at h
    exact absurd rfl h
  | false =>
    have hcmd : regAt s.cfg x = .cmd := by
      by_contra hr
      rw [State.hostWrite_idle hbusy] at h
      exact h (State.writeReg_cmdr hr s v)
    obtain rfl := eq_zero_of_regAt_cmd hcmd
    exact ⟨rfl, rfl, by rw [State.hostWrite_cmd hbusy]; rfl⟩

theorem turn_changes_cmdr {e : Event} {s t : State} (h : turn e s = .next t) (hne : t.cmdr ≠ s.cmdr) :
    (∃ v, e = .hostWrite 0x0000 v ∧ s.status.busy = false ∧ t.cmdr = v) ∨ e = .reset := by
  cases e with
  | hostRead x =>
    obtain rfl := Host.Outcome.next.inj h
    exact absurd (s.hostRead_cmdr x) hne
  | hostWrite x v =>
    obtain rfl := Host.Outcome.next.inj h
    obtain ⟨rfl, hbusy, hv⟩ := State.hostWrite_changes_cmdr hne
    exact .inl ⟨v, rfl, hbusy, hv⟩
  | engine => exact absurd (engineTurn_writtenByEngine h).cmdr hne
  | reset => exact .inr rfl

theorem step_changes_cmdr {s t : State} (h : step s = .next t) (hne : t.cmdr ≠ s.cmdr) :
    (∃ v rest, s.pending = .hostWrite 0x0000 v :: rest ∧ s.status.busy = false ∧ t.cmdr = v) ∨
    ∃ rest, s.pending = .reset :: rest := by
  cases hp : s.pending with
  | nil =>
    have hengine : engineTurn s = .next t := by rwa [step, hp] at h
    exact absurd (engineTurn_writtenByEngine hengine).cmdr hne
  | cons e rest =>
    rw [step_of_pending hp] at h
    rcases turn_changes_cmdr h hne with ⟨v, rfl, hbusy, hv⟩ | rfl
    · exact .inl ⟨v, rest, rfl, hbusy, hv⟩
    · exact .inr ⟨rest, rfl⟩

/-! ### The obligations -/

/-- Settles O34: the completion is that of the list of illegal words, its state holds the word in `CMDR`,
which index 0 reads; what changes `CMDR` is `step_changes_cmdr`. -/
theorem illegalWordFailsAndStaysReadable : Obligations.IllegalWordFailsAndStaysReadable := by
  have hturn {w : Word} {s : State} (hw : decode w = none) (hidle : s.status.busy = false) :=
    (illegalWordsAreThoseOfTheList w).2 hw s hidle
  refine ⟨fun w s hw hidle => ⟨?busy, ?cmdr, hturn hw hidle, fun t ht => ?readable⟩,
    fun s t => step_changes_cmdr, fun s t w hw hidle hlock ht => ?examples⟩
  case busy => rw [State.hostWrite_cmd hidle, State.accept_status, Status.onAccept_busy]
  case cmdr => rw [State.hostWrite_cmd hidle, State.accept_cmdr]
  case readable =>
    obtain rfl := Host.Outcome.next.inj ((hturn hw hidle).symm.trans ht)
    rw [State.hostRead_of_regAt (regAt_zero _) rfl]
    rfl
  case examples =>
    have hillegal : decode w = none := by
      rcases hw with rfl | rfl
      · decide
      · decide
    obtain rfl := Host.Outcome.next.inj ((hturn hillegal hidle).symm.trans ht)
    exact State.endsFailed_illegalCmd_word (s := { s with cmdr := w }) hlock 0xFFFF

/-- Settles O33: in the example `BUSY` and `LOCKERR` are read off the word of `STATUS`, so the write is
accepted and `LOCKERR` stays 0. -/
theorem nopSucceedsAndErasesTheStatus : Obligations.NopSucceedsAndErasesTheStatus := by
  refine ⟨by decide, fun _ => rfl, fun s => engineTurn_nop, fun s t hword ht => ?_⟩
  have hidle : s.status.busy = false := by rw [← Status.word_busy, hword]; rfl
  have hlock : s.status.lockerr = false := by rw [← Status.word_lockerr, hword]; rfl
  obtain rfl := Host.Outcome.next.inj ((engineTurn_nop hidle).symm.trans ht)
  exact State.endsOk_word hlock

end Sys2Proof.Machine

end

section

namespace Sys2Proof

/-! ### The words of the commands (spec/30_encoding.md R95 to R99) -/

/-- Settles O1: the fields of the encoded word are those of the command, and a word with them decodes to it. -/
theorem decodeOfEncodeGivesTheCommand : Obligations.DecodeOfEncodeGivesTheCommand :=
  fun i hwf => (decode_eq_some_iff (encode i) i).2 ⟨hwf, fieldsOf_wordOf (encodeFields i)⟩

/-- Settles O2: a legal word has the fields of its command, and its fields are all there is to a word. -/
theorem legalWordsAreTheWordsOfTheirCommands : Obligations.LegalWordsAreTheWordsOfTheirCommands := by
  intro w i hdecode
  obtain ⟨hwf, hfields⟩ := (decode_eq_some_iff w i).1 hdecode
  exact ⟨hwf, by rw [encode, ← hfields, wordOf_fieldsOf]⟩

/-- Settles O5: the decoder runs on each of the words. -/
theorem spelledWordsDecodeAsTheSpecSays : Obligations.SpelledWordsDecodeAsTheSpecSays :=
  ⟨rfl, rfl, rfl, rfl, rfl, rfl, rfl, rfl, rfl, rfl, rfl, by decide⟩

end Sys2Proof

end

section

namespace Sys2Proof.Machine

/-! ### Every command as the sequence of its lines (spec/44_control.md R187) -/

/-- The lines of a command, up to its end: `exec_eq_close` says that `exec` closes them. -/
def commandLines : Instr → State → Flow Unit
  | .nop, s => .go () s
  | .decode strict n, s => decodeSteps strict n s.noResult
  | .encode n, s => (require (decide (s.cfg.bits ≤ n)) .badEncode s).andThen fun _ s =>
      .go () (s.emit (frames s.cfg s.data n (s.repeatCount.toNat + 1)))
  | .chksum, s => require s.checksumHolds .checksum s
  | .xtract, s => .go () (s.setResCmd s.commandBit)
  | .matchm sel, s => matchSteps matchMark sel s
  | .matchs sel, s => matchSteps matchSpace sel s
  | .matchg sel, s => matchSteps matchAtLeast sel s

theorem exec_eq_close (i : Instr) (s : State) : exec i s = .next (commandLines i s).close := by
  cases i <;> rfl

theorem eq_close_of_exec {i : Instr} {s t : State} (h : exec i s = .next t) :
    t = (commandLines i s).close :=
  (Host.Outcome.next.inj ((exec_eq_close i s).symm.trans h)).symm

/-- The commands that only read: their lines touch no byte of `STATE` and no register. -/
theorem commandLines_within {i : Instr} (hdecode : ∀ strict n, i ≠ .decode strict n)
    (hencode : ∀ n, i ≠ .encode n) (hxtract : i ≠ .xtract) (s : State) :
    (commandLines i s).Within 0 s.rawlen.toNat s := by
  cases i with
  | nop => exact .refl 0 s
  | decode strict n => exact absurd rfl (hdecode strict n)
  | encode n => exact absurd rfl (hencode n)
  | chksum => exact require_within _ _ _ (by simp) s
  | xtract => exact absurd rfl hxtract
  | matchm sel => exact matchSteps_within _ sel s
  | matchs sel => exact matchSteps_within _ sel s
  | matchg sel => exact matchSteps_within _ sel s

theorem Flow.Within.stop_index {α : Type} {k b : Nat} {s t : State} {f : Flow α} (h : f.Within k b s)
    {c : FailClass} {idx : Half} (hstop : f = .stop c idx t) :
    (c ≠ .pulseMismatch → idx = noIndex) ∧ (c = .pulseMismatch → ∃ i, i < b ∧ idx = cellIndex i) := by
  subst hstop
  exact h.2

/-- A command that fails carries an index exactly for a mismatch, and then one below `RAWLEN`
(spec/10_state.md R31). -/
theorem commandLines_stop_index {i : Instr} {s t : State} {c : FailClass} {idx : Half}
    (h : commandLines i s = .stop c idx t) :
    (c ≠ .pulseMismatch → idx = noIndex) ∧
    (c = .pulseMismatch → ∃ k, k < s.rawlen.toNat ∧ idx = cellIndex k) := by
  cases i with
  | decode strict n =>
    obtain ⟨v, hgo, -⟩ | ⟨c', idx', v, hstop, -, hno, hcell, -⟩ := decodeSteps_outcome strict n s.noResult
    · cases hgo.symm.trans h
    · obtain ⟨rfl, rfl, -⟩ := Flow.stop.inj (hstop.symm.trans h)
      exact ⟨hno, hcell⟩
  | encode n =>
    obtain hguard | ⟨_, u, -, hgo⟩ := Flow.andThen_eq_stop.1 h
    · exact (require_within 0 _ _ (by simp) s).stop_index hguard
    · cases hgo
  | xtract => cases h
  | nop | chksum | matchm sel | matchs sel | matchg sel =>
    exact (commandLines_within (by simp) (by simp) (by simp) s).stop_index h

/-- The flags at the end of any command (spec/10_state.md R36). -/
theorem Flow.close_status {α : Type} (f : Flow α) :
    f.close.status.busy = false ∧ f.close.status.done = true ∧
    (f.close.status.ok = true ↔ f.close.status.diag = none) := by
  cases f with
  | go a t => simp
  | stop c idx t => simp

theorem commandLines_close_failidx {i : Instr} {s : State}
    (h : (commandLines i s).close.status.diag ≠ some .pulseMismatch) :
    (commandLines i s).close.failidx = noIndex := by
  cases hl : commandLines i s with
  | go a t => rfl
  | stop c idx t =>
    refine (commandLines_stop_index hl).1 ?_
    rintro rfl
    exact h (by rw [hl]; rfl)

/-- Settles O35: a command is its lines and their end, which writes the flags; `LOCKERR` is no register that a
command writes. -/
theorem everyCommandCompletes : Obligations.EveryCommandCompletes := by
  intro i s
  obtain ⟨hbusy, hdone, hok⟩ := (commandLines i s).close_status
  have hlock : (commandLines i s).close.status.lockerr = s.status.lockerr := by
    rw [exec_writtenByEngine (exec_eq_close i s)]
  exact ⟨_, exec_eq_close i s, hbusy, hdone, hlock, hok, commandLines_close_failidx⟩

/-! ### What each command leaves (spec/20_memory.md R79) -/

theorem Touched.txlog {k : Nat} {s t : State} (h : Touched k s t) : t.txlog = s.txlog := by rw [h.frame]

/-- DECODE leaves RAW, `TXLOG` and the bytes beyond its frame. -/
theorem exec_decode_frame {strict : Bool} {n : Nat} {s t : State} (h : exec (.decode strict n) s = .next t) :
    (∀ k, t.mem.rawCell k = s.mem.rawCell k) ∧ (∀ j, n / 8 ≤ j → t.mem.stateByte j = s.mem.stateByte j) ∧
    t.txlog = s.txlog := by
  rcases execDecode_outcome h with ⟨v, rfl, hv, -⟩ | ⟨c, idx, v, rfl, hv, -⟩
  · exact ⟨hv.rawCell, hv.bytes, hv.txlog⟩
  · exact ⟨hv.rawCell, fun j hj => hv.bytes j ((Nat.min_le_left _ _).trans hj), hv.txlog⟩

theorem exec_encode_frame {n : Nat} {s t : State} (h : exec (.encode n) s = .next t) :
    t.mem = s.mem ∧ t.resBits = s.resBits ∧ t.resProto = s.resProto ∧ t.resCmd = s.resCmd := by
  obtain rfl := Host.Outcome.next.inj ((execEncode_eq n s).symm.trans h)
  split <;> exact ⟨rfl, rfl, rfl, rfl⟩

/-- A command that only reads leaves both buffers, the results and `TXLOG`. -/
theorem exec_reading_frame {i : Instr} (hdecode : ∀ strict n, i ≠ .decode strict n)
    (hencode : ∀ n, i ≠ .encode n) (hxtract : i ≠ .xtract) {s t : State} (h : exec i s = .next t) :
    (∀ k, t.mem.rawCell k = s.mem.rawCell k) ∧ (∀ j, t.mem.stateByte j = s.mem.stateByte j) ∧
    t.resBits = s.resBits ∧ t.resProto = s.resProto ∧ t.resCmd = s.resCmd ∧ t.txlog = s.txlog := by
  obtain rfl := eq_close_of_exec h
  obtain ⟨hframe, hbytes, -⟩ := (commandLines_within hdecode hencode hxtract s).close_frame
  exact ⟨fun k => by rw [hframe]; rfl, hbytes, by rw [hframe], by rw [hframe], by rw [hframe], by rw [hframe]⟩

/-- Settles O36: what no command writes is `exec_writtenByEngine`; what each may write is its own frame. -/
theorem commandsWriteOnlyTheirSpaces : Obligations.CommandsWriteOnlyTheirSpaces := by
  intro i s t h
  refine ⟨?fixed, ?written⟩
  case fixed =>
    rw [exec_writtenByEngine h]
    exact ⟨rfl, rfl, rfl, rfl, rfl, rfl, rfl, rfl, rfl, rfl⟩
  case written =>
    cases i with
    | decode strict n =>
      obtain ⟨hraw, hbytes, htx⟩ := exec_decode_frame h
      refine ⟨hraw, ?_, fun hno => absurd rfl (hno strict n),
        fun hno => absurd rfl (hno strict n), fun _ => htx⟩
      rintro _ _ ⟨⟩
      exact hbytes
    | encode n =>
      obtain ⟨hmem, hbits, hproto, hcmd⟩ := exec_encode_frame h
      exact ⟨fun k => by rw [hmem], by simp, fun _ => ⟨fun j => by rw [hmem], hbits, hproto⟩,
        fun _ _ => hcmd, fun hno => absurd rfl (hno n)⟩
    | xtract =>
      obtain rfl := eq_close_of_exec h
      exact ⟨fun _ => rfl, by simp, fun _ => ⟨fun _ => rfl, rfl, rfl⟩, fun _ hno => absurd rfl hno,
        fun _ => rfl⟩
    | nop | chksum | matchm sel | matchs sel | matchg sel =>
      obtain ⟨hraw, hbytes, hbits, hproto, hcmd, htx⟩ :=
        exec_reading_frame (by simp) (by simp) (by simp) h
      exact ⟨hraw, by simp, fun _ => ⟨hbytes, hbits, hproto⟩,
        fun _ _ => hcmd, fun _ => htx⟩

/-! ### What no command reads (spec/10_state.md R38; spec/20_memory.md R77; spec/41_decode.md R147) -/

/-- `Unseen.decodeSteps` of the state a DECODE starts from, its result registers cleared. -/
theorem Unseen.commandLines_decode {a b : Nat} {g : State → State} {s : State}
    (h : Unseen a b s.mem.raw g) (strict : Bool) (n : Nat) (ha : a ≤ s.offset.toNat)
    (hHeader : s.offset.toNat + 2 * (n + 1) ≤ s.rawlen.toNat → s.offset.toNat + 2 ≤ b)
    (hData : s.offset.toNat + (2 * n + 4) ≤ s.rawlen.toNat → s.offset.toNat + (2 * n + 4) ≤ b) :
    Machine.commandLines (.decode strict n) (g s) =
      (Machine.commandLines (.decode strict n) s).mapState g := by
  have hclear : (g s).noResult = g s.noResult := h.result s 0 0 0
  rw [Machine.commandLines, hclear]
  exact Unseen.decodeSteps (s := s.noResult) strict n h ha hHeader hData

/-- A change that the engine cannot see passes through the lines of a command, where it passes through the two
commands that write registers of their own. -/
theorem Unseen.commandLines {a b : Nat} {g : State → State} {s : State} (h : Unseen a b s.mem.raw g)
    (ha : a ≤ s.offset.toNat) (hb : s.rawlen.toNat ≤ b)
    (hencode : ∀ n, Machine.commandLines (.encode n) (g s) = (Machine.commandLines (.encode n) s).mapState g)
    (hxtract : Machine.commandLines .xtract (g s) = (Machine.commandLines .xtract s).mapState g)
    (i : Instr) : Machine.commandLines i (g s) = (Machine.commandLines i s).mapState g := by
  cases i with
  | nop => rfl
  | decode strict n => exact h.commandLines_decode strict n ha (fun hl => by omega) (fun hl => by omega)
  | encode n => exact hencode n
  | chksum =>
    show require (g s).checksumHolds .checksum (g s) = _
    rw [h.checksumHolds]
    exact require_mapState ..
  | xtract => exact hxtract
  | matchm sel => exact h.matchSteps _ sel ha hb
  | matchs sel => exact h.matchSteps _ sel ha hb
  | matchg sel => exact h.matchSteps _ sel ha hb

/-- The lines of ENCODE, by its guard. -/
theorem commandLines_encode (n : Nat) (s : State) :
    commandLines (.encode n) s =
      if s.cfg.bits ≤ n then .go () (s.emit (frames s.cfg s.data n (s.repeatCount.toNat + 1)))
      else .stop .badEncode noIndex s := by
  by_cases h : s.cfg.bits ≤ n <;> simp [commandLines, h]

/-- Settles O37: other flags pass unseen through the lines, and the end writes them all but `LOCKERR`. -/
theorem noCommandReadsAFlag : Obligations.NoCommandReadsAFlag := by
  intro i s t flags idx h
  obtain rfl := eq_close_of_exec h
  have hlines := (unseen_otherFlags s.offset.toNat s.rawlen.toNat s.mem.raw flags idx).commandLines
    le_rfl le_rfl (fun n => by rw [commandLines_encode, commandLines_encode]; split <;> rfl) rfl i
  rw [exec_eq_close, hlines, Flow.close_otherFlags]

/-- The end of a command leaves the cells of RAW that it is given. -/
theorem Flow.close_otherRaw {α : Type} (f : Flow α) (other : List (Nat × Half)) :
    (f.mapState fun s => { s with mem := { s.mem with raw := other } }).close =
      { f.close with mem := { f.close.mem with raw := other } } := by
  cases f <;> rfl

/-- Settles O38: every cell that a command reads is below `RAWLEN`, so the others pass unseen. -/
theorem noCommandReadsBeyondRawlen : Obligations.NoCommandReadsBeyondRawlen := by
  intro i s t other hother h
  obtain rfl := eq_close_of_exec h
  have hlines := (unseen_otherRaw (a := 0) (b := s.rawlen.toNat) fun k _ hk => hother k hk).commandLines
    (Nat.zero_le _) le_rfl (fun n => by rw [commandLines_encode, commandLines_encode]; split <;> rfl) rfl i
  rw [exec_eq_close, hlines, Flow.close_otherRaw]

/-- Settles O24: the cells DECODE may read are those of its frame that lie below `RAWLEN`. -/
theorem decodeIgnoresCellsOutsideItsFrame : Obligations.DecodeIgnoresCellsOutsideItsFrame := by
  intro strict n s t other hother h
  obtain rfl := eq_close_of_exec h
  have hunseen := unseen_otherRaw (a := s.offset.toNat)
    (b := min (s.offset.toNat + (2 * n + 4)) s.rawlen.toNat) fun i hi hin =>
      hother i hi (by omega) (by omega)
  have hlines := hunseen.commandLines_decode strict n le_rfl (fun hl => by omega) (fun hl => by omega)
  rw [exec_eq_close, hlines, Flow.close_otherRaw]

end Sys2Proof.Machine

end

section

namespace Sys2Proof.Machine

/-! ### The MATCH commands (spec/40_match.md R117 to R120) -/

theorem matchOne_of_short {s : State} (h : s.rawlen.toNat ≤ s.offset.toNat)
    (test : Tolerance → Nat → Nat → Bool) (sel : Sel) :
    s.matchOne test sel = s.endsFailed .tooShort 0xFFFF := by
  rw [State.matchOne, decide_eq_false (Nat.not_lt.2 h)]
  rfl

/-- Inside `RAWLEN` a MATCH command is one read and one comparison. -/
theorem matchOne_of_inside {s : State} (h : s.offset.toNat < s.rawlen.toNat)
    (test : Tolerance → Nat → Nat → Bool) (sel : Sel) :
    s.matchOne test sel =
      if test s.cfg.tol (s.loadRaw s.offset.toNat).1 (expected s.cfg sel)
      then (s.loadRaw s.offset.toNat).2.endsOk
      else (s.loadRaw s.offset.toNat).2.endsFailed .pulseMismatch s.offset := by
  rw [State.matchOne, decide_eq_true h, require_true, Flow.go_andThen, matchCell, cellIndex_toNat]
  split <;> rfl

/-- The three outcomes of a command that is one comparison: the index check, a written cell, and a cell never
written, whose one read draws a free value (spec/20_memory.md R78). -/
theorem comparesOneCell_of_matchOne {command : Sel → Instr} {test : Tolerance → Nat → Nat → Bool}
    (hexec : ∀ sel s, exec (command sel) s = .next (s.matchOne test sel)) :
    ComparesOneCell command test := by
  intro sel s
  rw [hexec]
  refine ⟨fun hshort => ?short, fun hinside v hv => ?written, fun hinside hnone => ?unwritten⟩
  case short => rw [matchOne_of_short hshort]
  case written =>
    rw [matchOne_of_inside hinside, State.loadRaw_of_written (by simp [hv]), State.cellValue, hv]
    rfl
  case unwritten =>
    refine ⟨s.freeBits s.cfg.durW, State.freeBits_lt _ s, ?_⟩
    rw [matchOne_of_inside hinside, State.loadRaw_of_unwritten hnone]

/-- The comparison of a written cell below `RAWLEN` holds: the command succeeds. -/
theorem ComparesOneCell.exec_of_holds {command : Sel → Instr} {test : Tolerance → Nat → Nat → Bool}
    (h : ComparesOneCell command test) {sel : Sel} {s : State} {i v : Half}
    (hoffset : s.offset = i) (hinside : i.toNat < s.rawlen.toNat) (hv : s.mem.rawCell i.toNat = some v)
    (htest : test s.cfg.tol v.toNat (expected s.cfg sel) = true) :
    exec (command sel) s = .next s.endsOk := by
  subst hoffset
  obtain ⟨-, hwritten, -⟩ := h sel s
  rw [hwritten hinside v hv, if_pos htest]

/-- The comparison of a written cell below `RAWLEN` fails: the command names the cell. -/
theorem ComparesOneCell.exec_of_fails {command : Sel → Instr} {test : Tolerance → Nat → Nat → Bool}
    (h : ComparesOneCell command test) {sel : Sel} {s : State} {i v : Half}
    (hoffset : s.offset = i) (hinside : i.toNat < s.rawlen.toNat) (hv : s.mem.rawCell i.toNat = some v)
    (htest : test s.cfg.tol v.toNat (expected s.cfg sel) = false) :
    exec (command sel) s = .next (s.endsFailed .pulseMismatch i) := by
  subst hoffset
  obtain ⟨-, hwritten, -⟩ := h sel s
  rw [hwritten hinside v hv, htest, if_neg Bool.false_ne_true]

/-! ### The obligations -/

/-- Settles O9: MATCHM is one comparison by `MatchMark`; the examples are its written outcome in `REF`. -/
theorem matchmComparesOneCellAsAMark : Obligations.MatchmComparesOneCellAsAMark := by
  have hcompares : ComparesOneCell .matchm (fun t m d => inWindow t m (d + t.excess)) :=
    comparesOneCell_of_matchOne fun _ _ => rfl
  refine ⟨fun sel => by cases sel <;> decide, hcompares, fun s hcfg hoffset hrawlen => ?_⟩
  have hinside : (0 : Half).toNat < s.rawlen.toNat := by rw [hrawlen]; decide
  exact ⟨fun hv => hcompares.exec_of_holds hoffset hinside hv (by rw [hcfg]; decide),
    fun hv => hcompares.exec_of_fails hoffset hinside hv (by rw [hcfg]; decide)⟩

/-- Settles O10: MATCHS is one comparison by `MatchSpace`; the examples are its written outcome in `REF`. -/
theorem matchsComparesOneCellAsASpace : Obligations.MatchsComparesOneCellAsASpace := by
  have hcompares : ComparesOneCell .matchs (fun t m d => inWindow t m (d - t.excess)) :=
    comparesOneCell_of_matchOne fun _ _ => rfl
  refine ⟨fun sel => by cases sel <;> decide, hcompares, fun s hcfg hoffset hrawlen => ?_⟩
  have hinside : (3 : Half).toNat < s.rawlen.toNat := by rw [hrawlen]; decide
  exact ⟨fun hv => hcompares.exec_of_holds hoffset hinside hv (by rw [hcfg]; decide),
    fun hv => hcompares.exec_of_fails hoffset hinside hv (by rw [hcfg]; decide)⟩

/-- Settles O11: MATCHG is one comparison by `MatchAtLeast`, which has no upper edge; the examples are its
written outcome in `REF`. -/
theorem matchgComparesOneCellAsAGap : Obligations.MatchgComparesOneCellAsAGap := by
  have hcompares : ComparesOneCell .matchg (fun t m d => decide (lo t (d - t.excess) ≤ m)) :=
    comparesOneCell_of_matchOne fun _ _ => rfl
  refine ⟨fun sel => by cases sel <;> decide, hcompares, fun s hcfg hoffset hrawlen => ?_⟩
  have hinside : (0 : Half).toNat < s.rawlen.toNat := by rw [hrawlen]; decide
  exact ⟨fun hv => hcompares.exec_of_holds hoffset hinside hv (by rw [hcfg]; decide),
    fun hv => hcompares.exec_of_holds hoffset hinside hv (by rw [hcfg]; decide),
    fun hv => hcompares.exec_of_fails hoffset hinside hv (by rw [hcfg]; decide)⟩

end Sys2Proof.Machine

end

section

namespace Sys2Proof.Machine

/-! ### Where DECODE stops at a data bit (spec/41_decode.md R137 to R139) -/

/-- DECODE past its header, at the first data bit that fails: the bytes before its byte have been stored. -/
theorem State.AlignedTo.exec_decode_of_pairFails {strict : Bool} {n b f : Nat} {s : State}
    (hwf : s.mem.wf = true) (h : s.AlignedTo strict n b) (hb : b < n)
    (hfails : s.PairFails (s.offset.toNat + 2 + 2 * b) f) :
    ∃ m, s.HoldsArrived (b / 8) m ∧
      exec (.decode strict n) s =
        .next (({ s with mem := m }).noResult.endsFailed .pulseMismatch (BitVec.ofNat 16 f)) := by
  have hwhole := h.wholeBytes
  have hfails' : s.noResult.PairFails (s.noResult.offset.toNat + 2 + 2 * b) f := by
    cases hfails with
    | mark h0 hm => exact .mark h0 hm
    | space h0 h1 hm hone hzero => exact .space h0 h1 hm hone hzero
  have hstops := dataBytes_fails (n / 8) 0 (s.noResult.offset.toNat + 2) (t := b) (by omega)
    (fun u hu => h.noResult.pair hu) hfails'
  refine ⟨_, (State.HoldsArrived.store (s := s.noResult) hwf (b / 8)).ofNoResult, ?_⟩
  refine exec_decode_of_stop ?_
  rw [h.noResult.decodeSteps, hstops, State.storeBytes_eq]
  rfl

/-- Settles O17: a mark cell outside its window, and a space cell outside both, are the two ways in which a
written data bit fails. -/
theorem decodeStopsAtTheFirstBadBit : Obligations.DecodeStopsAtTheFirstBadBit := by
  intro strict n b s hwf haligned hb
  refine ⟨fun h0 hmark => ?mark, fun h0 h1 hmark hspace => ?space⟩
  case mark => exact haligned.exec_decode_of_pairFails hwf hb (.mark h0 (by simpa using hmark))
  case space =>
    obtain ⟨hone, hzero⟩ := not_or.1 hspace
    have hindex : s.offset.toNat + 3 + 2 * b = s.offset.toNat + 2 + 2 * b + 1 := by omega
    rw [hindex] at h1 hone hzero ⊢
    exact haligned.exec_decode_of_pairFails hwf hb
      (.space h0 h1 hmark (by simpa using hone) (by simpa using hzero))

/-! ### What a DECODE that goes on has met, its cells being written (R132 to R143) -/

theorem bitsAdmissible_iff (c : Config) (n : Nat) :
    bitsAdmissible c n = true ↔ n ≠ 0 ∧ n % 8 = 0 ∧ n / 8 ≤ c.stateCap := by
  simp [bitsAdmissible, and_assoc]

/-- A sequence that opens with a guard goes on exactly when the guard holds and the later lines go on. -/
theorem require_andThen_eq_go {β : Type} {test : Bool} {c : FailClass} {s t : State} {b : β}
    {k : Unit → State → Flow β} :
    (require test c s).andThen k = .go b t ↔ test = true ∧ k () s = .go b t := by
  cases test <;> simp

theorem preHeader_eq_go {s t : State} {a : Unit} (h0 : s.mem.rawCell s.offset.toNat ≠ none)
    (h1 : s.mem.rawCell (s.offset.toNat + 1) ≠ none) (h : preHeader s.offset.toNat s = .go a t) :
    s.headerAligned ∧ t = s := by
  obtain ⟨_, u, hmark, hspace⟩ := Flow.andThen_eq_go.1 h
  obtain ⟨hmark, rfl⟩ := matchCell_eq_go h0 hmark
  obtain ⟨hspace, rfl⟩ := matchCell_eq_go h1 hspace
  exact ⟨⟨hmark, hspace⟩, rfl⟩

theorem footer_eq_go {s t : State} {a : Unit} {i : Nat} (h0 : s.mem.rawCell i ≠ none)
    (h1 : s.mem.rawCell (i + 1) ≠ none) (h : footer i s = .go a t) :
    matchMark s.cfg.tol (s.cellValue i) s.cfg.bitMark = true ∧
    matchAtLeast s.cfg.tol (s.cellValue (i + 1)) s.cfg.gap = true := by
  obtain ⟨_, u, hmark, hgap⟩ := Flow.andThen_eq_go.1 h
  obtain ⟨hmark, rfl⟩ := matchCell_eq_go h0 hmark
  obtain ⟨hgap, -⟩ := matchCell_eq_go h1 hgap
  exact ⟨hmark, hgap⟩

/-- The cell pairs of the data bits align one by one. -/
theorem State.AlignedTo.of_pairs {strict : Bool} {n : Nat} {s : State}
    (hlen : s.offset.toNat + (2 * n + 4) ≤ s.rawlen.toNat) (hstrict : strict = true → n = s.cfg.bits)
    (hheader : s.headerAligned) (hadm : bitsAdmissible s.cfg n = true)
    (hw : s.written s.offset.toNat (s.offset.toNat + (2 + 2 * n)))
    (hpairs : ∀ t, t < n → s.PairAligned (s.offset.toNat + 2 + 2 * t)) : s.AlignedTo strict n n := by
  obtain ⟨hnonzero, hwhole, hfits⟩ := (bitsAdmissible_iff _ _).1 hadm
  refine ⟨hlen, hstrict, hheader, hnonzero, hwhole, hfits, hw, fun t ht => (hpairs t ht).mark, fun t ht => ?_⟩
  have hspace := (hpairs t ht).space
  rwa [show s.offset.toNat + 2 + 2 * t + 1 = s.offset.toNat + 3 + 2 * t by omega] at hspace

theorem State.AlignedTo.ofNoResult {strict : Bool} {n b : Nat} {s : State}
    (h : s.noResult.AlignedTo strict n b) : s.AlignedTo strict n b :=
  ⟨h.length, h.strictBits, h.header, h.nonzero, h.wholeBytes, h.fits, h.cells, h.marks, h.spaces⟩

/-- A DECODE over written cells that goes on to its end has met an aligned frame. -/
theorem decodeSteps_eq_go {strict : Bool} {n : Nat} {s t : State} {a : Unit}
    (hw : s.written 0 s.rawlen.toNat) (h : decodeSteps strict n s = .go a t) :
    s.AlignedTo strict n n ∧ s.footerMarkAligned n ∧ s.footerGapAligned n := by
  unfold decodeSteps at h
  obtain ⟨hshort, h⟩ := require_andThen_eq_go.1 h
  obtain ⟨hstrict, h⟩ := require_andThen_eq_go.1 h
  obtain ⟨_, u, hheader, h⟩ := Flow.andThen_eq_go.1 h
  have hl : s.offset.toNat + 2 * (n + 1) ≤ s.rawlen.toNat := by
    have := of_decide_eq_true hshort
    unfold State.avail at this
    omega
  obtain ⟨hheader, hu⟩ := preHeader_eq_go (hw.cell (by omega)) (hw.cell (by omega)) hheader
  rw [hu] at h
  obtain ⟨hadm, h⟩ := require_andThen_eq_go.1 h
  obtain ⟨hlong, h⟩ := require_andThen_eq_go.1 h
  have hlen : s.offset.toNat + (2 * n + 4) ≤ s.rawlen.toNat := by
    have := of_decide_eq_true hlong
    unfold State.avail at this
    omega
  obtain ⟨-, hwhole, -⟩ := (bitsAdmissible_iff _ _).1 hadm
  obtain ⟨_, v, hdata, h⟩ := Flow.andThen_eq_go.1 h
  have hpairs := dataBytes_eq_go (fun i _ hi => hw i (by omega) (by omega)) hdata
  have hv : Touched (n / 8) s v := by
    have hwithin := dataBytes_within (k := n / 8) (b := s.rawlen.toNat) (n / 8) 0 (s.offset.toNat + 2)
      (by omega) (by omega) s
    rwa [hdata] at hwithin
  obtain ⟨_, _, hfooter, -⟩ := Flow.andThen_eq_go.1 h
  have hfooter := footer_eq_go (by rw [hv.rawCell]; exact hw.cell (by omega))
    (by rw [hv.rawCell]; exact hw.cell (by omega)) hfooter
  rw [hv.cfg, hv.cellValue, hv.cellValue,
    show s.offset.toNat + 2 + 2 * n + 1 = s.offset.toNat + 3 + 2 * n by omega] at hfooter
  exact ⟨.of_pairs hlen (by simpa [imp_iff_not_or] using hstrict) hheader hadm
    (fun i _ hi => hw i (by omega) (by omega)) (fun t ht => hpairs t (by omega)), hfooter⟩

/-- Settles O21: an aligned frame succeeds by O20. Conversely a DECODE that succeeds has met an aligned frame,
and where it is strict a bad checksum would have failed it by O19. -/
theorem decodeSucceedsExactlyOnAlignedFrames : Obligations.DecodeSucceedsExactlyOnAlignedFrames := by
  intro strict n s hwf hw
  have hfooterWritten (h : s.AlignedTo strict n n) :
      s.written (s.offset.toNat + 2 + 2 * n) (s.offset.toNat + 4 + 2 * n) := fun i _ hi => by
    have := h.length
    exact hw i (by omega) (by omega)
  constructor
  · rintro ⟨t, hexec, hok⟩
    cases hsteps : decodeSteps strict n s.noResult with
    | stop c idx u =>
      obtain rfl := Host.Outcome.next.inj ((exec_decode_of_stop hsteps).symm.trans hexec)
      cases hok
    | go a u =>
      obtain ⟨haligned, hmark, hgap⟩ := decodeSteps_eq_go (s := s.noResult) hw hsteps
      have haligned := haligned.ofNoResult
      refine ⟨haligned, hmark, hgap, fun hstrict => ?_⟩
      subst hstrict
      by_contra hsum
      obtain ⟨m, -, hfails⟩ := strictDecodeRejectsABadChecksum.1 n s hwf haligned
        (hfooterWritten haligned) hmark hgap hsum
      obtain rfl := Host.Outcome.next.inj (hfails.symm.trans hexec)
      cases hok
  · rintro ⟨haligned, hmark, hgap, hsum⟩
    obtain ⟨m, -, hexec⟩ := decodeOfAnAlignedFrameSucceeds strict n s hwf haligned
      (hfooterWritten haligned) hmark hgap hsum
    exact ⟨_, hexec, rfl⟩

/-! ### What DECODE leaves, whatever the cells it read (R131, R139, R143 to R145) -/

/-- Settles O22: the failed half of `execDecode_outcome`, on a state whose result registers were cleared. -/
theorem failedDecodeLeavesNoResult : Obligations.FailedDecodeLeavesNoResult := by
  intro strict n s t h hfailed
  obtain ⟨v, rfl, -⟩ | ⟨c, idx, v, rfl, hv, hindex, -, hmem, -⟩ := execDecode_outcome h
  · cases hfailed
  refine ⟨?results, ⟨c, rfl, hindex⟩, fun j hj => hv.bytes j ((Nat.min_le_left _ _).trans hj),
    fun hdiag => ?unchanged⟩
  case results =>
    rw [hv.frame]
    exact ⟨rfl, rfl, rfl⟩
  case unchanged =>
    rcases hdiag with hc | hc | hc <;>
      exact hmem (by rintro rfl; cases hc) (by rintro rfl; cases hc)

/-- The successful half of `execDecode_outcome`. -/
theorem execDecode_of_ok {strict : Bool} {n : Nat} {s t : State} (h : exec (.decode strict n) s = .next t)
    (hok : t.status.ok = true) :
    ∃ v, t = (v.storeResult n).endsOk ∧ Touched (n / 8) s.noResult v ∧ bitsAdmissible s.cfg n = true ∧
      (strict = true → n = s.cfg.bits ∧ v.checksumHolds = true) := by
  obtain hsuccess | ⟨c, idx, v, rfl, -⟩ := execDecode_outcome h
  · exact hsuccess
  · cases hok

/-- Settles O57: the result registers are written over a state that differs from the first only in bytes of the
frame and in drawn free values. -/
theorem successfulDecodeLeavesExactlyItsResult : Obligations.SuccessfulDecodeLeavesExactlyItsResult := by
  intro strict n s t h hok
  obtain ⟨v, rfl, hv, hadm, -⟩ := execDecode_of_ok h hok
  refine ⟨(bitsAdmissible_iff _ _).1 hadm, v.mem, hv.raw, hv.bytes, ?_⟩
  rw [hv.frame]
  rfl

/-- A DECODE that succeeds has a bit count that its 16-bit register holds. -/
theorem ofNat_bits_toNat {c : Config} {n : Nat} (h : bitsAdmissible c n = true) :
    (BitVec.ofNat 16 n).toNat = n := by
  obtain ⟨-, -, hfits⟩ := (bitsAdmissible_iff _ _).1 h
  have := c.stateCap_bounds
  rw [BitVec.toNat_ofNat, Nat.mod_eq_of_lt (by omega)]

/-- `K_PROTO_TAG` fits `RES_PROTO` (spec/00_scope.md R9). -/
theorem ofNat_protoTag_toNat (c : Config) : (BitVec.ofNat 8 c.protoTag).toNat = c.protoTag := by
  have := c.protoTag_bounds
  rw [BitVec.toNat_ofNat, Nat.mod_eq_of_lt (by omega)]

/-- Settles O23: the guards of a strict DECODE have held, and the result registers are those of R143. -/
theorem strictSuccessHasCountAndChecksum : Obligations.StrictSuccessHasCountAndChecksum := by
  intro n s t h hok
  obtain ⟨v, rfl, hv, hadm, hstrict⟩ := execDecode_of_ok h hok
  obtain ⟨rfl, hsum⟩ := hstrict rfl
  have hcfg : v.cfg = s.cfg := hv.cfg
  refine ⟨rfl, ?checksum, ofNat_bits_toNat hadm, ?proto, rfl⟩
  case checksum =>
    rw [← hcfg]
    exact (checksumOk_iff _).1 hsum
  case proto =>
    rw [← hcfg]
    exact ofNat_protoTag_toNat v.cfg

/-- Settles O25: a whole, non-zero number of bytes below three leaves byte 2, from which the command bit is
taken. -/
theorem shortDecodeTakesTheOldCommandBit : Obligations.ShortDecodeTakesTheOldCommandBit := by
  intro strict n s t hshort h hok
  obtain ⟨⟨hnonzero, hwhole, -⟩, m, -, hkept, hresult⟩ :=
    successfulDecodeLeavesExactlyItsResult strict n s t h hok
  have hbyte : m.stateByte 2 = s.mem.stateByte 2 := hkept 2 (by omega)
  rw [hresult, ← hbyte]
  exact ⟨rfl, rfl, by omega⟩

end Sys2Proof.Machine

end

section

namespace Sys2Proof.Machine

/-! ### The word of `STATUS` (spec/10_state.md R23; spec/60_exceptions.md R200) -/

theorem Status.word_done (t : Status) : t.word.getLsbD 1 = t.done := by
  simp only [Status.word, BitVec.getLsbD_append]
  simp

theorem Status.word_ok (t : Status) : t.word.getLsbD 2 = t.ok := by
  simp only [Status.word, BitVec.getLsbD_append]
  simp

theorem Status.word_diag (t : Status) : t.word.extractLsb' 8 4 = diagCode t.diag := by
  apply BitVec.eq_of_getLsbD_eq
  intro i hi
  simp only [Status.word, BitVec.getLsbD_extractLsb', BitVec.getLsbD_append]
  interval_cases i <;> simp

theorem Status.word_reserved (t : Status) :
    t.word.extractLsb' 4 4 = 0 ∧ t.word.extractLsb' 12 20 = 0 := by
  constructor <;>
  · apply BitVec.eq_of_getLsbD_eq
    intro i hi
    simp only [Status.word, BitVec.getLsbD_extractLsb', BitVec.getLsbD_append]
    interval_cases i <;> simp

/-! ### Reads and writes by the register an index names (R21, R42; spec/20_memory.md R72) -/

theorem State.hostWrite_of_regAt {s : State} {x : Half} {r : Reg} (hidle : s.status.busy = false)
    (hx : regAt s.cfg x = r) (v : Word) : s.hostWrite x v = s.writeReg v r := by
  rw [State.hostWrite_idle hidle, hx]

/-- A read of the register an index names, where that register has no value to return. -/
theorem State.hostRead_of_unspecified {s : State} {x : Half} {r : Reg} {w : Nat} (hx : regAt s.cfg x = r)
    (hr : s.unspecifiedWidth r = some w) (hw : w ≤ 32) :
    ∃ y : Word, y.toNat < 2 ^ w ∧
      s.hostRead x = { s with readLog := s.readLog ++ [⟨x, y⟩], fresh := s.fresh + 1 } := by
  subst hx
  exact State.hostRead_free hw hr

/-- The registers that hold the results of a command, with their widths, other than `STATE` (R28 to R31). -/
theorem State.unspecifiedWidth_results (s : State) :
    ∀ p ∈ [(Reg.resBits, 16), (.resProto, 8), (.resCmd, 1), (.failidx, 16)],
      s.unspecifiedWidth p.1 = if s.status.busy then some p.2 else none := by
  simp only [List.forall_mem_cons]
  exact ⟨rfl, rfl, rfl, rfl, by simp⟩

/-- The low 16 bits of a word, clamped to `RAW_CAP`, fit `RAWLEN` (R27). -/
theorem ofNat_clamped_toNat (c : Config) (v : Word) :
    (BitVec.ofNat 16 (min (v.toNat % 2 ^ 16) c.rawCap)).toNat = min (v.toNat % 2 ^ 16) c.rawCap := by
  rw [BitVec.toNat_ofNat, Nat.mod_eq_of_lt (by omega)]

/-! ### What changes `LOCKERR` (R23, R38) -/

theorem State.WrittenByEngine.lockerr {s t : State} (h : s.WrittenByEngine t) :
    t.status.lockerr = s.status.lockerr := by
  rw [h]

theorem State.writeReg_lockerr {r : Reg} (h : r ≠ .status) (s : State) (v : Word) :
    (s.writeReg v r).status.lockerr = s.status.lockerr := by
  cases r with
  | status => exact absurd rfl h
  | _ => rfl

theorem State.hostRead_lockerr (s : State) (x : Half) :
    (s.hostRead x).status.lockerr = s.status.lockerr := by
  rw [State.hostRead_frame]

/-- A host write that changes `LOCKERR` was dropped, or cleared it through index 1, the only one of
`STATUS`. -/
theorem State.hostWrite_changes_lockerr {s : State} {x : Half} {v : Word}
    (h : (s.hostWrite x v).status.lockerr ≠ s.status.lockerr) :
    (s.status.busy = true ∧ (s.hostWrite x v).status.lockerr = true) ∨
    (s.status.busy = false ∧ x = 0x0001 ∧ v.getLsbD 3 = true ∧
      (s.hostWrite x v).status.lockerr = false) := by
  cases hbusy : s.status.busy with
  | true => exact .inl ⟨rfl, by rw [State.hostWrite_busy hbusy]; rfl⟩
  | false =>
    rw [State.hostWrite_idle hbusy] at h ⊢
    have hstatus : regAt s.cfg x = .status := by
      by_contra hr
      exact h (State.writeReg_lockerr hr s v)
    rw [hstatus] at h ⊢
    have hcleared : (s.writeReg v .status).status.lockerr = (s.status.lockerr && !v.getLsbD 3) := rfl
    rw [hcleared] at h ⊢
    have hbit : v.getLsbD 3 = true := by
      by_contra hbit
      exact h (by rw [Bool.eq_false_iff.2 hbit, Bool.not_false, Bool.and_true])
    exact .inr ⟨rfl, eq_one_of_regAt_status hstatus, hbit, by rw [hbit, Bool.not_true, Bool.and_false]⟩

theorem turn_changes_lockerr {e : Event} {s t : State} (h : turn e s = .next t)
    (hne : t.status.lockerr ≠ s.status.lockerr) :
    (∃ x v, e = .hostWrite x v ∧
      ((s.status.busy = true ∧ t.status.lockerr = true) ∨
        (s.status.busy = false ∧ x = 0x0001 ∧ v.getLsbD 3 = true ∧ t.status.lockerr = false))) ∨
    e = .reset := by
  cases e with
  | hostRead x =>
    obtain rfl := Host.Outcome.next.inj h
    exact absurd (s.hostRead_lockerr x) hne
  | hostWrite x v =>
    obtain rfl := Host.Outcome.next.inj h
    exact .inl ⟨x, v, rfl, State.hostWrite_changes_lockerr hne⟩
  | engine => exact absurd (engineTurn_writtenByEngine h).lockerr hne
  | reset => exact .inr rfl

/-! ### The obligations -/

/-- Settles O41: the word field by field; its write is `Status.onWrite`, by the value of bit 3. -/
theorem statusWordAndItsWrite : Obligations.StatusWordAndItsWrite := by
  refine ⟨fun t => ⟨t.word_busy, t.word_done, t.word_ok, t.word_lockerr, t.word_reserved.1,
    t.word_reserved.2, fun hd => ?success, fun p hp hd => ?code⟩, fun s v hidle => ?write⟩
  case success => rw [t.word_diag, hd]; rfl
  case code =>
    rw [t.word_diag, hd]
    clear hd
    revert p
    decide
  case write =>
    rw [State.hostWrite_of_regAt hidle (r := .status) rfl]
    show ({ s with status := s.status.onWrite v } : State) = _
    rw [Status.onWrite]
    cases v.getLsbD 3 with
    | true => rw [Bool.not_true, Bool.and_false, if_pos rfl]
    | false => rw [Bool.not_false, Bool.and_true, if_neg Bool.false_ne_true]

/-- Settles O42, index by index: what the register keeps of the word, and what a write to a buffer leaves of
it. -/
theorem writesKeepTheLowBits : Obligations.WritesKeepTheLowBits := by
  intro s v hidle hwf
  have hwrite {x : Half} {r : Reg} (hx : regAt s.cfg x = r) := State.hostWrite_of_regAt hidle hx v
  refine ⟨⟨v.setWidth 16, BitVec.toNat_setWidth _ _, hwrite (r := .offset) rfl,
      hwrite (r := .repeatCount) rfl⟩, hwrite (r := .dataLo) rfl, hwrite (r := .dataHi) rfl,
    ⟨_, ofNat_clamped_toNat s.cfg v, hwrite (r := .rawlen) rfl⟩, fun j hj => ?stateByte,
    fun i hi => ?rawCell⟩
  case stateByte =>
    refine ⟨s.mem.setStateByte j (v.setWidth 8), hwrite (regAt_stateIndex hj),
      Memory.wf_setStateByte hwf _ _, rfl, ?_,
      fun k hk => Memory.stateByte_setStateByte_ne (Ne.symm hk) _ _⟩
    rw [Memory.stateByte_setStateByte_self hwf, BitVec.toNat_setWidth]
  case rawCell =>
    exact ⟨_, hwrite (regAt_rawIndex hi), Memory.wf_setRawCell hwf _ _, rfl,
      ⟨_, Memory.rawCell_setRawCell_self hwf _ _, cutDuration_toNat s.cfg v.toNat⟩,
      fun k hk => Memory.rawCell_setRawCell_ne (Ne.symm hk) _ _⟩

/-- Settles O43: each index names its register, which returns its value or, where `State.unspecifiedWidth` says
so, a free one of its width. -/
theorem hostReadsReturnTheRegister : Obligations.HostReadsReturnTheRegister := by
  intro s
  have hresults := s.unspecifiedWidth_results
  simp only [List.forall_mem_cons, List.not_mem_nil, false_imp_iff, implies_true, and_true] at hresults ⊢
  obtain ⟨hbits, hproto, hcmd, hfailidx⟩ := hresults
  refine ⟨?always, fun hidle => ⟨?results, fun j hj => ?stateByte⟩, fun i hi c hc => ?written,
    fun hbusy => ⟨?resultsBusy, fun j hj => ?stateByteBusy⟩, fun i hi hnone => ?unwritten⟩
  case always =>
    exact ⟨State.hostRead_of_regAt rfl rfl, State.hostRead_of_regAt rfl rfl,
      State.hostRead_of_regAt rfl rfl, State.hostRead_of_regAt rfl rfl, State.hostRead_of_regAt rfl rfl,
      State.hostRead_of_regAt rfl rfl, State.hostRead_of_regAt rfl rfl⟩
  case results =>
    rw [hidle] at hbits hproto hcmd hfailidx
    exact ⟨State.hostRead_of_regAt rfl hbits, State.hostRead_of_regAt rfl hproto,
      State.hostRead_of_regAt rfl hcmd, State.hostRead_of_regAt rfl hfailidx⟩
  case stateByte =>
    exact State.hostRead_of_regAt (regAt_stateIndex hj) (by simp [State.unspecifiedWidth, hidle])
  case written =>
    rw [State.hostRead_of_regAt (regAt_rawIndex hi) (by simp [State.unspecifiedWidth, hc]), State.regWord, hc]
    rfl
  case resultsBusy =>
    rw [hbusy] at hbits hproto hcmd hfailidx
    exact ⟨State.hostRead_of_unspecified rfl hbits (by decide),
      State.hostRead_of_unspecified rfl hproto (by decide),
      State.hostRead_of_unspecified rfl hcmd (by decide),
      State.hostRead_of_unspecified rfl hfailidx (by decide)⟩
  case stateByteBusy =>
    exact State.hostRead_of_unspecified (regAt_stateIndex hj) (by simp [State.unspecifiedWidth, hbusy])
      (by decide)
  case unwritten =>
    exact State.hostRead_of_unspecified (regAt_rawIndex hi) (by simp [State.unspecifiedWidth, hnone])
      (s.cfg.durW_bounds.2.trans (by decide))

/-- Settles O46: the four indices name registers that ignore writes. -/
theorem resultRegistersIgnoreWrites : Obligations.ResultRegistersIgnoreWrites := by
  intro s v hidle
  simp only [List.forall_mem_cons, List.not_mem_nil, false_imp_iff, implies_true, and_true]
  exact ⟨State.hostWrite_of_regAt hidle (r := .resBits) rfl v,
    State.hostWrite_of_regAt hidle (r := .resProto) rfl v,
    State.hostWrite_of_regAt hidle (r := .resCmd) rfl v,
    State.hostWrite_of_regAt hidle (r := .failidx) rfl v⟩

/-- Settles O47: at the end of the schedule the engine moves, which leaves `LOCKERR`; else by the turn that is
taken. -/
theorem lockerrChangesOnlyByHostOrReset : Obligations.LockerrChangesOnlyByHostOrReset := by
  intro s t h hne
  cases hp : s.pending with
  | nil =>
    have hengine : engineTurn s = .next t := by rwa [step, hp] at h
    exact absurd (engineTurn_writtenByEngine hengine).lockerr hne
  | cons e rest =>
    rw [step_of_pending hp] at h
    rcases turn_changes_lockerr h hne with ⟨x, v, rfl, hcause⟩ | rfl
    · exact .inl ⟨x, v, rest, rfl, hcause⟩
    · exact .inr ⟨rest, rfl⟩

end Sys2Proof.Machine

end

section

namespace Sys2Proof.Machine

/-! ### One step, by the turn it takes (spec/20_memory.md R70) -/

theorem step_of_schedule_end {s : State} (h : s.pending = []) : step s = engineTurn s := by
  unfold step
  rw [h]

theorem step_of_engine {s : State} {rest : List Event} (h : s.pending = .engine :: rest) :
    step s = engineTurn (s.withPending rest) :=
  step_of_pending h

theorem step_of_reset {s : State} {rest : List Event} (h : s.pending = .reset :: rest) :
    step s = .next (s.withPending rest).resetUnit :=
  step_of_pending h

/-! ### No step stops the unit -/

/-- The engine's turn answers, and leaves no command in flight (spec/10_state.md R36; spec/60_exceptions.md
R214). -/
theorem engineTurn_answers (s : State) : ∃ t, engineTurn s = .next t ∧ t.status.busy = false := by
  cases hbusy : s.status.busy with
  | false => exact ⟨s, engineTurn_of_idle hbusy, hbusy⟩
  | true =>
    cases hd : decode s.cmdr with
    | none => exact ⟨_, engineTurn_of_illegal hbusy hd, rfl⟩
    | some i =>
      obtain ⟨t, hexec, ht, -⟩ := everyCommandCompletes i s
      exact ⟨t, (engineTurn_of_command hbusy hd).trans hexec, ht⟩

theorem turn_answers (e : Event) (s : State) : ∃ t, turn e s = .next t := by
  cases e with
  | hostRead x => exact ⟨_, rfl⟩
  | hostWrite x v => exact ⟨_, rfl⟩
  | engine => exact (engineTurn_answers s).imp fun _ => And.left
  | reset => exact ⟨_, rfl⟩

/-! ### A command in flight (R36; spec/20_memory.md R71; spec/70_reset_and_hazards.md R242) -/

theorem core_run_succ_of_step {M : Host.Core} {s t : M.State} (h : M.step s = .next t) (k : Nat) :
    M.run (k + 1) s = M.run k t := by
  rw [Host.Core.run, h]

theorem runs_succ_of_step {s t : State} (h : step s = .next t) (k : Nat) : runs (k + 1) s = runs k t :=
  core_run_succ_of_step (M := Sys2Proof.core) h k

/-- `u` is `s` but for `LOCKERR` and the host's side. -/
def State.SameCommandState (s u : State) : Prop :=
  u = { s with status := { s.status with lockerr := u.status.lockerr },
               pending := u.pending, readLog := u.readLog, fresh := u.fresh }

theorem State.SameCommandState.trans {s t u : State} (h : s.SameCommandState t)
    (g : t.SameCommandState u) : s.SameCommandState u := by
  unfold State.SameCommandState at *
  rw [g, h]

theorem State.SameCommandState.busy {s u : State} (h : s.SameCommandState u) :
    u.status.busy = s.status.busy := by
  rw [h]

theorem State.hostRead_same (s : State) (x : Half) (rest : List Event) :
    s.SameCommandState ((s.withPending rest).hostRead x) := by
  rw [State.hostRead_frame]
  rfl

theorem State.hostWrite_same {s : State} (h : s.status.busy = true) (x : Half) (v : Word)
    (rest : List Event) : s.SameCommandState ((s.withPending rest).hostWrite x v) := by
  rw [State.hostWrite_busy (s := s.withPending rest) h]
  rfl

theorem State.hostRead_pending (s : State) (x : Half) : (s.hostRead x).pending = s.pending := by
  rw [State.hostRead_frame]

/-- The step that ends a command in flight has come: the engine's turn, or a reset. -/
def State.AtCompletion (s : State) : Prop :=
  s.pending = [] ∨ (∃ rest, s.pending = .engine :: rest) ∨ ∃ rest, s.pending = .reset :: rest

theorem State.AtCompletion.step {s : State} (h : s.AtCompletion) :
    ∃ t, Machine.step s = .next t ∧ t.status.busy = false := by
  obtain hend | ⟨rest, hengine⟩ | ⟨rest, hreset⟩ := h
  · rw [step_of_schedule_end hend]
    exact engineTurn_answers s
  · rw [step_of_engine hengine]
    exact engineTurn_answers _
  · exact ⟨_, step_of_reset hreset, rfl⟩

/-- While the host moves a command in flight stays as it was accepted. -/
theorem runs_to_completion {s : State} {events : List Event} (hbusy : s.status.busy = true)
    (hp : s.pending = events) :
    ∃ k u, k ≤ events.length ∧ runs k s = .next u ∧ s.SameCommandState u ∧ u.AtCompletion := by
  induction events generalizing s with
  | nil => exact ⟨0, s, le_rfl, rfl, rfl, .inl hp⟩
  | cons e rest ih =>
    have hhost {t : State} (hstep : step s = .next t) (hsame : s.SameCommandState t)
        (hpending : t.pending = rest) :
        ∃ k u, k ≤ (e :: rest).length ∧ runs k s = .next u ∧ s.SameCommandState u ∧ u.AtCompletion := by
      obtain ⟨k, u, hk, hrun, hu, hcomplete⟩ := ih (hsame.busy.trans hbusy) hpending
      exact ⟨k + 1, u, Nat.succ_le_succ hk, (runs_succ_of_step hstep k).trans hrun, hsame.trans hu,
        hcomplete⟩
    cases e with
    | hostRead x => exact hhost (step_of_pending hp) (s.hostRead_same x rest) (State.hostRead_pending _ x)
    | hostWrite x v =>
      refine hhost (step_of_pending hp) (State.hostWrite_same hbusy x v rest) ?_
      rw [State.hostWrite_busy (s := s.withPending rest) hbusy]
      rfl
    | engine => exact ⟨0, s, Nat.zero_le _, rfl, rfl, .inr (.inl ⟨rest, hp⟩)⟩
    | reset => exact ⟨0, s, Nat.zero_le _, rfl, rfl, .inr (.inr ⟨rest, hp⟩)⟩

/-! ### The obligations -/

/-- Settles O52: the engine's turn and every other turn answer. -/
theorem everyStepAnswersANextState : Obligations.EveryStepAnswersANextState := by
  intro s
  cases hp : s.pending with
  | nil =>
    rw [step_of_schedule_end hp]
    exact (engineTurn_answers s).imp fun _ => And.left
  | cons e rest =>
    rw [step_of_pending hp]
    exact turn_answers e _

/-- Settles O53: the host's turns leave the command as it was, until the one that completes it. -/
theorem acceptedCommandCompletesOnItsState : Obligations.AcceptedCommandCompletesOnItsState := by
  intro s hbusy
  obtain ⟨k, u, hk, hrun, hsame, hcomplete⟩ := runs_to_completion hbusy rfl
  exact ⟨k, u, hk, hrun, hsame, hcomplete, hcomplete.step⟩

/-- Settles O49: the reset is that turn alone, and it drops what was in flight. -/
theorem resetAbandonsTheCommandInFlight : Obligations.ResetAbandonsTheCommandInFlight :=
  fun _ _ hreset => step_of_reset hreset

/-- Settles O50: at the end of the schedule, or at its own turn, the engine runs the decoded command. -/
theorem stepRunsTheCommandInFlight : Obligations.StepRunsTheCommandInFlight := by
  intro s i hbusy hd
  refine ⟨fun hend => ?_, fun rest hengine => ?_⟩
  · rw [step_of_schedule_end hend, engineTurn_of_command hbusy hd]
  · rw [step_of_engine hengine]
    exact engineTurn_of_command (s := s.withPending rest) hbusy hd

/-- Settles O51: the placed word is accepted and the engine's turn comes next. -/
theorem placedWordRunsNext : Obligations.PlacedWordRunsNext := by
  intro s w
  have hword : BitVec.ofNat 32 (w.toNat % 2 ^ 32) = w := by
    rw [Nat.mod_eq_of_lt w.isLt, BitVec.ofNat_toNat, BitVec.setWidth_eq]
  have hstep : step (s.withFetchWord 32 w.toNat) = engineTurn (s.accept w) := by
    rw [State.withFetchWord, hword]
    exact step_of_engine rfl
  rw [hstep]
  cases hd : decode w with
  | none => exact engineTurn_of_illegal (s := s.accept w) rfl hd
  | some i => exact engineTurn_of_command (s := s.accept w) rfl hd

end Sys2Proof.Machine

end

section

namespace Sys2Proof.Machine

/-! ### Canonical buffers (spec/10_state.md R33, R34) -/

/-- Settles O56: each buffer is a rising list, which its lookups determine; in a canonical `STATE` they are what
the bytes read as. -/
theorem memoriesThatReadAlikeAreEqual : Obligations.MemoriesThatReadAlikeAreEqual := by
  intro m k hm hk hbytes hcells
  obtain ⟨hmState, hmRaw, -⟩ := (Memory.wf_iff m).1 hm
  obtain ⟨hkState, hkRaw, -⟩ := (Memory.wf_iff k).1 hk
  have hstate : m.stateBuf = k.stateBuf := rising_ext hmState hkState fun j => by
    rw [Memory.lookup_stateBuf hm, Memory.lookup_stateBuf hk, hbytes]
  have hraw : m.raw = k.raw := rising_ext hmRaw hkRaw hcells
  obtain ⟨mState, mRaw⟩ := m
  obtain rfl : mState = k.stateBuf := hstate
  obtain rfl : mRaw = k.raw := hraw
  rfl

/-! ### What the invariants do not look at -/

/-- The invariants look at no operand, nor at `CMDR`, `RES_CMD` and `LOCKERR`. -/
theorem State.Inv.ofUnread {s t : State} (h : s.Inv)
    (ht : t = { s with
      cmdr := t.cmdr, offset := t.offset, repeatCount := t.repeatCount, dataLo := t.dataLo,
      dataHi := t.dataHi, resCmd := t.resCmd, status := { s.status with lockerr := t.status.lockerr } }) :
    t.Inv := by
  rw [ht]
  exact ⟨h.memory, h.stateInside, h.rawInside, h.rawWidth, h.rawlen, h.proto, h.resultWhole, h.resultBits,
    h.busyNotDone, h.okDone, h.okDiag, h.diagDone, h.indexOnlyMismatch, h.indexInside, h.sent⟩

theorem State.Inv.withPending {s : State} (h : s.Inv) (p : List Event) : (s.withPending p).Inv :=
  h.hostSide rfl

/-! ### Commands keep the invariants -/

theorem ofNat_protoTag_ne_zero (c : Config) : BitVec.ofNat 8 c.protoTag ≠ 0 := by
  intro hzero
  have htag := ofNat_protoTag_toNat c
  rw [hzero] at htag
  have := c.protoTag_bounds
  simp at htag
  omega

theorem ofNat_bits_ne_zero {c : Config} {n : Nat} (h : bitsAdmissible c n = true) :
    BitVec.ofNat 16 n ≠ 0 := by
  intro hzero
  have hn := ofNat_bits_toNat h
  rw [hzero] at hn
  exact ((bitsAdmissible_iff _ _).1 h).1 hn.symm

/-- The result registers of a DECODE that succeeds keep them (spec/41_decode.md R143). -/
theorem State.Inv.storeResult {s : State} (h : s.Inv) {n : Nat} (hadm : bitsAdmissible s.cfg n = true) :
    (s.storeResult n).Inv := by
  obtain ⟨-, hwhole, hfits⟩ := (bitsAdmissible_iff _ _).1 hadm
  refine ⟨h.memory, h.stateInside, h.rawInside, h.rawWidth, h.rawlen, .inr rfl, ?whole, ?bits,
    h.busyNotDone, h.okDone, h.okDiag, h.diagDone, h.indexOnlyMismatch, h.indexInside, h.sent⟩
  case whole => exact iff_of_false (ofNat_protoTag_ne_zero s.cfg) (ofNat_bits_ne_zero hadm)
  case bits =>
    show (BitVec.ofNat 16 n).toNat % 8 = 0 ∧ (BitVec.ofNat 16 n).toNat / 8 ≤ s.cfg.stateCap
    rw [ofNat_bits_toNat hadm]
    exact ⟨hwhole, hfits⟩

theorem State.Inv.execDecode {s t : State} (h : s.Inv) {strict : Bool} {n : Nat}
    (hexec : Machine.execDecode strict n s = .next t) : t.Inv := by
  obtain ⟨v, rfl, hv, hadm, -⟩ | ⟨c, idx, v, rfl, hv, hnone, hcell, -⟩ := execDecode_outcome hexec
  · obtain ⟨-, -, hfits⟩ := (bitsAdmissible_iff _ _).1 hadm
    have hcfg : v.cfg = s.cfg := hv.cfg
    exact ((h.noResult.touched hv hfits).storeResult (by rw [hcfg]; exact hadm)).succeed
  · exact h.noResult.close (f := (Flow.stop c idx v : Flow Unit)) ⟨hv, hnone, hcell⟩
      (Nat.min_le_right _ _) le_rfl

theorem State.Inv.execEncode {s t : State} (h : s.Inv) {n : Nat}
    (hexec : Machine.execEncode n s = .next t) : t.Inv := by
  obtain rfl := Host.Outcome.next.inj ((execEncode_eq n s).symm.trans hexec)
  split
  · exact (h.emit (frames_alternating _ _ _ _)).succeed
  · exact h.raiseFail (fun _ => rfl) (by simp)

theorem State.Inv.exec {s t : State} (h : s.Inv) {i : Instr} (hexec : Machine.exec i s = .next t) : t.Inv := by
  cases i with
  | decode strict n => exact h.execDecode hexec
  | encode n => exact h.execEncode hexec
  | xtract =>
    obtain rfl := eq_close_of_exec hexec
    have hcmd : (s.setResCmd s.commandBit).Inv := h.ofUnread rfl
    exact hcmd.succeed
  | nop | chksum | matchm sel | matchs sel | matchg sel =>
    obtain rfl := eq_close_of_exec hexec
    exact h.close (commandLines_within (by simp) (by simp) (by simp) s) (Nat.zero_le _) le_rfl

theorem State.Inv.engineTurn {s t : State} (h : s.Inv) (hturn : Machine.engineTurn s = .next t) : t.Inv := by
  cases hbusy : s.status.busy with
  | false =>
    obtain rfl := Host.Outcome.next.inj ((engineTurn_of_idle hbusy).symm.trans hturn)
    exact h
  | true =>
    cases hd : decode s.cmdr with
    | none =>
      obtain rfl := Host.Outcome.next.inj ((engineTurn_of_illegal hbusy hd).symm.trans hturn)
      exact h.raiseFail (fun _ => rfl) (by simp)
    | some i => exact h.exec ((engineTurn_of_command hbusy hd).symm.trans hturn)

/-! ### The host and the platform keep the invariants -/

theorem State.Inv.accept {s : State} (h : s.Inv) (v : Word) : (s.accept v).Inv :=
  ⟨h.memory, h.stateInside, h.rawInside, h.rawWidth, h.rawlen, h.proto, h.resultWhole, h.resultBits,
    by simp, by simp, by simp, by simp, fun _ => rfl, by simp, h.sent⟩

/-- `RAWLEN` clamps (spec/10_state.md R27). -/
theorem State.Inv.writeRawlen {s : State} (h : s.Inv) (v : Word) : (s.writeReg v .rawlen).Inv := by
  refine ⟨h.memory, h.stateInside, h.rawInside, h.rawWidth, ?rawlen, h.proto, h.resultWhole, h.resultBits,
    h.busyNotDone, h.okDone, h.okDiag, h.diagDone, h.indexOnlyMismatch, h.indexInside, h.sent⟩
  show (BitVec.ofNat 16 (min (v.toNat % 2 ^ 16) s.cfg.rawCap)).toNat ≤ s.cfg.rawCap
  rw [ofNat_clamped_toNat]
  exact Nat.min_le_right _ _

/-- A cell of RAW that exists takes a `DUR_W`-bit value (R34). -/
theorem State.Inv.writeRawCell {s : State} (h : s.Inv) {i : Nat} (hi : i < s.cfg.rawCap) (v : Word) :
    (s.writeReg v (.rawCell i)).Inv := by
  refine ⟨Memory.wf_setRawCell h.memory _ _, h.stateInside, fun c hc => ?inside, fun c hc => ?width,
    h.rawlen, h.proto, h.resultWhole, h.resultBits, h.busyNotDone, h.okDone, h.okDiag, h.diagDone,
    h.indexOnlyMismatch, h.indexInside, h.sent⟩
  case inside =>
    obtain ⟨-, hindex⟩ | hold := mem_update hc
    · rw [hindex]
      exact hi
    · exact h.rawInside c hold
  case width =>
    obtain ⟨hvalue, -⟩ | hold := mem_update hc
    · rw [← Option.some.inj hvalue, cutDuration_toNat]
      exact Nat.mod_lt _ (Nat.two_pow_pos _)
    · exact h.rawWidth c hold

theorem State.Inv.hostWrite {s : State} (h : s.Inv) (x : Half) (v : Word) : (s.hostWrite x v).Inv := by
  cases hbusy : s.status.busy with
  | true =>
    rw [State.hostWrite_busy hbusy]
    exact h.ofUnread rfl
  | false =>
    rw [State.hostWrite_idle hbusy]
    cases hx : regAt s.cfg x with
    | cmd => exact h.accept v
    | rawlen => exact h.writeRawlen v
    | stateCell j =>
      exact h.touched (Touched.storeByte (Nat.lt_succ_self j) (v.setWidth 8) s) (stateCell_inside hx)
    | rawCell i => exact h.writeRawCell (rawCell_inside hx) v
    | status | offset | repeatCount | dataLo | dataHi => exact h.ofUnread rfl
    | resBits | resProto | resCmd | failidx | param p | unmapped => exact h

theorem State.Inv.hostRead {s : State} (h : s.Inv) (x : Half) : (s.hostRead x).Inv := by
  rw [State.hostRead_frame]
  exact h.hostSide rfl

/-- A reset in any state gives them, whatever the parameters (R40). -/
theorem State.inv_resetUnit (s : State) : s.resetUnit.Inv :=
  ⟨Memory.wf_reset, by simp [State.reset], by simp [State.reset], by simp [State.reset], Nat.zero_le _,
    .inl rfl, iff_of_true rfl rfl, by simp [State.reset], by simp [State.reset], by simp [State.reset],
    by simp [State.reset], fun _ => rfl, fun _ => rfl, by simp [State.reset], rfl⟩

theorem State.Inv.turn {s t : State} (h : s.Inv) {e : Event} (hturn : Machine.turn e s = .next t) : t.Inv := by
  cases e with
  | hostRead x => exact Host.Outcome.next.inj hturn ▸ h.hostRead x
  | hostWrite x v => exact Host.Outcome.next.inj hturn ▸ h.hostWrite x v
  | engine => exact h.engineTurn hturn
  | reset => exact Host.Outcome.next.inj hturn ▸ s.inv_resetUnit

/-! ### The obligations -/

/-- Settles O54: the state after reset is what a reset leaves of itself. -/
theorem resetSatisfiesTheInvariants : Obligations.ResetSatisfiesTheInvariants :=
  State.reset.inv_resetUnit

/-- Settles O55: the turn that the step takes keeps them, the engine's or another agent's. -/
theorem everyStepKeepsTheInvariants : Obligations.EveryStepKeepsTheInvariants := by
  intro s t h hstep
  cases hp : s.pending with
  | nil => exact h.engineTurn ((step_of_schedule_end hp).symm.trans hstep)
  | cons e rest => exact (h.withPending rest).turn ((step_of_pending hp).symm.trans hstep)

end Sys2Proof.Machine

end
